-- ==== Sys2Proof/Word.lean ====
section
/-! DEFINITION. The bit-vector types of the host bus (spec/20_memory.md R60, R62; spec/00_scope.md R8). -/

namespace Sys2Proof

/-- An 8-bit code unit, one byte of MSG_BUF (00_scope.md R8). -/
abbrev Byte := BitVec 8

/-- The 32-bit data word of the host bus (20_memory.md R62). -/
abbrev Word := BitVec 32

/-- A 17-bit byte address of the host bus space (20_memory.md R60). -/
abbrev Addr := BitVec 17

end Sys2Proof
end

