-- ==== Sys2Proof/Syntax.lean ====
section
/-! DEFINITION. The abstract syntax: the commands of the CTRL format (spec/30_encoding.md R90 to R94) and the transactions of
the BUS format (R99). -/

namespace Sys2Proof

/-- What the command decoder of 30_encoding.md R93 returns. -/
inductive Command where
  | nop | derive | encrypt | decrypt | modinv | badcmd
deriving DecidableEq, Repr

/-- One constructor per mnemonic of spec/opcode_table.json. The first six are CTRL words, the last two BUS tuples. The table's
four BADCMD rows (OP 5, OP 6 and 7, OP 8 to 15, and RSVD not 0) are one instruction, whose word is kept whole so that no
bit of an encoding is lost (log entry 19). -/
inductive Instr where
  /-- CTRL word 0x00000000 (44_control.md R201). -/
  | nop
  /-- CTRL word 0x00000001 (40_key_derivation.md R120). -/
  | derive
  /-- CTRL word 0x00000002 (42_encrypt.md R160). -/
  | encrypt
  /-- CTRL word 0x00000003 (43_decrypt.md R180). -/
  | decrypt
  /-- CTRL word 0x00000004 (41_modular_inverse.md R143). -/
  | modinv
  /-- Every other CTRL word (30_encoding.md R94, 44_control.md R202). -/
  | badcmd (word : Word)
  /-- A bus read (20_memory.md R66); pwdata is there and ignored (30_encoding.md R99). -/
  | rd (paddr : Addr) (pwdata : Word)
  /-- A bus write (20_memory.md R67). -/
  | wr (paddr : Addr) (pwdata : Word)
deriving DecidableEq, Repr

end Sys2Proof
end

