-- ==== Sys2Proof/WellFormed.lean ====
section
/-! DEFINITION. Which syntax terms are instructions: BADCMD must carry a word that no valid command row matches
(spec/30_encoding.md R93, R94). Every other term is one. -/

namespace Sys2Proof

/-- A reserved or malformed CTRL word: RSVD is not 0, or OP is in 0x5 to 0xF (30_encoding.md R94). -/
def reservedWord (v : Word) : Bool :=
  v.extractLsb' 4 28 != 0 || decide (5 ≤ (v.extractLsb' 0 4).toNat)

/-- The one check on terms: the word of BADCMD is a reserved one. -/
def Instr.wellFormed : Instr → Bool
  | .badcmd v => reservedWord v
  | .nop => true
  | .derive => true
  | .encrypt => true
  | .decrypt => true
  | .modinv => true
  | .rd _ _ => true
  | .wr _ _ => true

end Sys2Proof
end

