-- ==== Sys2Proof/Decode.lean ====
section
/-! DEFINITION. The decoder, total on any bytes and rejecting by name, then the encoder, written from the same formats of
spec/30_encoding.md (R90 to R94 for CTRL, R99 for BUS). A packet is a list of bytes, the least significant byte of the format
first (log entry 12): four bytes hold a CTRL word, seven bytes hold a 50-bit BUS tuple under six zero bits. -/

namespace Sys2Proof

/-- Why a packet is no encoded instruction. -/
inductive DecodeError where
  /-- Neither four bytes (CTRL) nor seven (BUS). -/
  | badLength (bytes : Nat)
  /-- Seven bytes whose bits above bit 49 are not all 0. -/
  | paddingSet
deriving DecidableEq, Repr

/-- The low `k` bytes of `w`, least significant first. -/
def leBytes (k w : Nat) : List Byte := (List.range k).map fun i => BitVec.ofNat 8 (w >>> (8 * i))

/-- The number whose bytes, least significant first, are given. -/
def leNat : List Byte → Nat
  | [] => 0
  | b :: rest => b.toNat + 256 * leNat rest

/-- The command decoder, letter for letter R93. -/
def decodeCommand (v : Word) : Command :=
  if v.extractLsb' 4 28 ≠ 0 then .badcmd
  else
    match (v.extractLsb' 0 4).toNat with
    | 0x0 => .nop
    | 0x1 => .derive
    | 0x2 => .encrypt
    | 0x3 => .decrypt
    | 0x4 => .modinv
    | _ => .badcmd

/-- The instruction of a CTRL word (R90, R93). Total: every 32-bit value has exactly one decoding. -/
def decodeCtrl (v : Word) : Instr :=
  match decodeCommand v with
  | .nop => .nop
  | .derive => .derive
  | .encrypt => .encrypt
  | .decrypt => .decrypt
  | .modinv => .modinv
  | .badcmd => .badcmd v

/-- The transaction of a BUS tuple: pwrite is bit 49, paddr bits [48:32], pwdata bits [31:0] (R99). -/
def decodeBus (t : BitVec 50) : Instr :=
  if t.getLsbD 49 then .wr (t.extractLsb' 32 17) (t.extractLsb' 0 32)
  else .rd (t.extractLsb' 32 17) (t.extractLsb' 0 32)

/-- The decoder on bytes. -/
def decode (bytes : List Byte) : Except DecodeError Instr :=
  match bytes.length with
  | 4 => .ok (decodeCtrl (BitVec.ofNat 32 (leNat bytes)))
  | 7 => if leNat bytes < 2 ^ 50 then .ok (decodeBus (BitVec.ofNat 50 (leNat bytes))) else .error .paddingSet
  | k => .error (.badLength k)

/-- A CTRL word as its four bytes (R90). -/
def ctrlPacket (v : Word) : List Byte := leBytes 4 v.toNat

/-- A BUS tuple: `p aaaaaaaaaaaaaaaaa dddddddddddddddddddddddddddddddd` from the top bit down (R99). -/
def busTuple (pwrite : Bool) (paddr : Addr) (pwdata : Word) : BitVec 50 :=
  (BitVec.ofBool pwrite).setWidth 50 <<< 49 ||| paddr.setWidth 50 <<< 32 ||| pwdata.setWidth 50

/-- A BUS tuple as its seven bytes. -/
def busPacket (pwrite : Bool) (paddr : Addr) (pwdata : Word) : List Byte := leBytes 7 (busTuple pwrite paddr pwdata).toNat

/-- The encoder: the OP values of R91 with RSVD = 0, a BADCMD word as it stands, and the tuples of R99. -/
def encode : Instr → List Byte
  | .nop => ctrlPacket 0x0
  | .derive => ctrlPacket 0x1
  | .encrypt => ctrlPacket 0x2
  | .decrypt => ctrlPacket 0x3
  | .modinv => ctrlPacket 0x4
  | .badcmd v => ctrlPacket v
  | .rd a w => busPacket false a w
  | .wr a w => busPacket true a w

/-- The packet of an instruction whose bits are `w`, numbered as spec/opcode_table.json numbers them: rows of up to 32 bits are
CTRL words, wider rows BUS tuples. A width beyond 56 bits keeps its own bytes, which the decoder rejects by their length. -/
def tablePacket (nbits w : Nat) : List Byte :=
  leBytes (if nbits ≤ 32 then 4 else if nbits ≤ 56 then 7 else (nbits + 7) / 8) w

/-- What this decoder reads from a word of the opcode table. -/
def decodeTableWord (nbits w : Nat) : Option Instr :=
  match decode (tablePacket nbits w) with
  | .ok i => some i
  | .error _ => none

end Sys2Proof
end

