-- ==== Sys2Proof/Config.lean ====
section
/-! DEFINITION. What an implementation fixes (PW, MAXLEN, MAXBLK and what is derived from them), the hardwired public
exponent, and the free values: constants with no body, which no proof can evaluate. -/

namespace Sys2Proof

/-- The implementation parameters of 00_scope.md R6. They are OPEN in the spec (92_eei_decisions.md D2) and a model takes
them as an argument: the state carries one such record and no step changes it (log entry 1). -/
structure Config where
  /-- PW: width in bits of P and Q. -/
  pw : Nat
  /-- MAXLEN: capacity of MSG_BUF in bytes. -/
  maxlen : Nat
  /-- MAXBLK: capacity of CT_BUF in blocks. -/
  maxblk : Nat
deriving DecidableEq, Repr

namespace Config

/-- NW = 2 * PW, the width of N, D, MA, MM, MR and of a CT_BUF entry (R7). -/
def nw (c : Config) : Nat := 2 * c.pw

/-- WPP = PW / 32, the number of words of the P and Q windows (R7). -/
def wpp (c : Config) : Nat := c.pw / 32

/-- WPN = NW / 32, the number of words of a modulus-sized window and of a CT_BUF entry (R7). -/
def wpn (c : Config) : Nat := c.nw / 32

/-- The constraints of R6's table. -/
abbrev Legal (c : Config) : Prop :=
  c.pw % 32 = 0 ∧ 32 ≤ c.pw ∧ c.pw ≤ 1024 ∧
  c.maxlen % 4 = 0 ∧ 4 ≤ c.maxlen ∧ c.maxlen ≤ 4096 ∧
  1 ≤ c.maxblk ∧ c.maxblk ≤ 16384 / c.wpn

/-- The reference configuration of R6: PW = 64, MAXLEN = 256, MAXBLK = 1024. -/
def reference : Config := { pw := 64, maxlen := 256, maxblk := 1024 }

/-- The public exponent E, "fixed at 65537" (R8, 10_state.md R34). -/
def e : Nat := 65537

/-- FREE VALUE: the k-th word drawn by a read of a held register while STATUS.BUSY = 1 (44_control.md R204,
93_implementation_defined.md I1). Nothing constrains it. Log entry 3. -/
opaque freeWord : Nat → Word

/-- FREE VALUE: what the buffer byte at a bus byte address holds after the `epoch`-th reset until something writes it
(10_state.md R42, R43, 93_implementation_defined.md I3). Nothing constrains it. Log entry 2. -/
opaque freeByte : (epoch : Nat) → (addr : Nat) → Byte

end Config

end Sys2Proof
end

