-- ==== Sys2Proof/Machine/State.lean ====
section
/-! DEFINITION. The state of the machine as plain data (spec/10_state.md R20 to R51, spec/44_control.md R213), the reasons a
step can stop, and the state after reset. The values of the wide registers are natural numbers, as the spec's pseudocode has
them (00_scope.md R9, R10); Sys2Proof/Safety.lean states their widths as an invariant. -/

namespace Sys2Proof.Machine

/-- The hidden sequencing state `phase` (10_state.md R45). -/
inductive Phase where
  | idle | derive | encrypt | decrypt | modinv
deriving DecidableEq, Repr

/-- The error codes 0 to 8 of 60_exceptions.md R221. The reserved codes 9 to 15, "never produced", have no constructor. -/
inductive ErrCode where
  | none | badcmd | arg | keyder | noinv | nokey | capacity | declen | crange
deriving DecidableEq, Repr

/-- The fields of STATUS (10_state.md R22 to R28, 30_encoding.md R98). -/
structure Status where
  busy     : Bool
  done     : Bool
  err      : Bool
  keyValid : Bool
  trunc    : Bool
  wign     : Bool
  errcode  : ErrCode
deriving DecidableEq, Repr

/-- MIC's hidden working registers (10_state.md R47). -/
structure MicRegs where
  r0 : Nat
  r1 : Nat
  t0 : Nat
  t1 : Nat
deriving DecidableEq, Repr

/-- One request on the modexp port: base, exponent and modulus (44_control.md R209, R213). -/
structure MxReq where
  base : Nat
  exp  : Nat
  mod  : Nat
deriving DecidableEq, Repr

/-- The response of a host-bus access (20_memory.md R65). -/
inductive Resp where
  | okay | slverr
deriving DecidableEq, Repr

/-- What can be observed, beside irq (00_scope.md R14): a bus response with its data, or a request on the modexp port. -/
inductive Event where
  | busResp (resp : Resp) (rdata : Word)
  | mxIssue (req : MxReq)
deriving DecidableEq, Repr

/-- One entry of the host's program: an encoded transaction, or the poll loop `wait` of 30_encoding.md R101. -/
inductive HostOp where
  | txn (bytes : List Byte)
  | wait
deriving DecidableEq, Repr

/-- Whose move a step is (00_scope.md R14): the host's next access, the controller's next internal step, the engine's
answer, or an edge of rst_n (70_reset_and_hazards.md R260). -/
inductive Turn where
  | host | controller | engine | resetLow | resetHigh
deriving DecidableEq, Repr

/-- The wide registers, each a window of 32-bit words (10_state.md R35 to R41). -/
inductive Wide where
  | p | q | n | d | ma | mm | mr
deriving DecidableEq, Repr

/-- What an aligned, mapped bus address selects (20_memory.md R61): a register, word j of a wide register's window, word w of
MSG_BUF or word u of CT_BUF. -/
inductive Region where
  | ctrl | status | irqEn | msgLen | blkCount | blockLen | e
  | wide (w : Wide) (j : Nat)
  | msgBuf (w : Nat)
  | ctBuf (u : Nat)
deriving DecidableEq, Repr

/-- MSG_BUF and CT_BUF in one list of (bus byte address, byte) pairs, addresses strictly rising. -/
abbrev Memory := List Host.Cell

/-- The state. INVENTORY.md lists each field with its rule; fields marked MODEL are the model's own. -/
structure State where
  /-- MODEL: the implementation parameters (00_scope.md R6), which no step changes. -/
  cfg       : Config
  status    : Status
  /-- IRQ_EN.DONE_IE (R30). -/
  doneIe    : Bool
  msgLen    : Word
  blkCount  : Word
  blockLen  : Word
  p         : Nat
  q         : Nat
  n         : Nat
  d         : Nat
  ma        : Nat
  mm        : Nat
  mr        : Nat
  /-- MSG_BUF and CT_BUF (R42, R43): the bytes written since reset. -/
  mem       : Memory
  phase     : Phase
  blk       : Nat
  mxPending : Bool
  /-- MODEL: the running command has passed its checks (44_control.md R205). -/
  checked   : Bool
  phi       : Nat
  mic       : MicRegs
  acc       : List Bool
  tp        : Bool
  seg       : Nat
  /-- MODEL: the answers c[0], c[1], ... of the running ENCRYPT (42_encrypt.md R160). -/
  answers   : List Nat
  /-- The request the engine holds and has not answered. -/
  mxReq     : Option MxReq
  /-- The answer present on the port and not yet absorbed. -/
  mxRsp     : Option Nat
  /-- MODEL: false for an engine that never answers (44_control.md R207). -/
  mxLive    : Bool
  /-- rst_n = 0 (70_reset_and_hazards.md R260). -/
  inReset   : Bool
  /-- MODEL: the host's transactions still to come. -/
  program   : List HostOp
  /-- MODEL: whose move the next step is. -/
  turn      : Turn
  /-- MODEL: the moves after it. -/
  sched     : List Turn
  /-- MODEL: how many free words have been drawn. -/
  draws     : Nat
  /-- MODEL: how many resets there have been, which indexes the free buffer contents. -/
  epoch     : Nat
  /-- MODEL: what has been observed, newest first. -/
  trace     : List Event
deriving DecidableEq, Repr

/-- Reasons the model stops with a fault. No instruction's meaning raises one. -/
inductive Fault where
  /-- Raised by `step` when the host's next packet is neither a CTRL word nor a BUS tuple (30_encoding.md R90). Safe: the
  hardware has no such transaction (log entry 15). -/
  | notATransaction
deriving DecidableEq, Repr

/-- Reasons the model refuses a step. -/
inductive Refusal where
  /-- Raised by `exec` for an instruction without a meaning; no arm does. Safe. -/
  | notModelled (mnemonic : String)
  /-- Raised by `step` when the host makes an access while rst_n = 0, which 70_reset_and_hazards.md R260 leaves unspecified and
  93_implementation_defined.md I2 treats as `refuse`. Safe (log entry 14). -/
  | busAccessInReset
deriving DecidableEq, Repr

/-- The machine right after reset in a configuration: the values of 10_state.md R51, the hidden scratch at 0 (log entry 5), and
agents with nothing to do (log entry 16). -/
def State.resetWith (c : Config) : State where
  cfg := c
  status := { busy := false, done := false, err := false, keyValid := false, trunc := false, wign := false, errcode := .none }
  doneIe := false
  msgLen := 0
  blkCount := 0
  blockLen := 0
  p := 0
  q := 0
  n := 0
  d := 0
  ma := 0
  mm := 0
  mr := 0
  mem := []
  phase := .idle
  blk := 0
  mxPending := false
  checked := false
  phi := 0
  mic := { r0 := 0, r1 := 0, t0 := 0, t1 := 0 }
  acc := []
  tp := false
  seg := 0
  answers := []
  mxReq := none
  mxRsp := none
  mxLive := true
  inReset := false
  program := []
  turn := .host
  sched := []
  draws := 0
  epoch := 0
  trace := []

/-- The machine right after reset, in the reference configuration of 00_scope.md R6 (log entry 1). -/
def State.reset : State := State.resetWith Config.reference

end Sys2Proof.Machine
end

