-- ==== Sys2Proof/Machine/Flags.lean ====
section
/-! DEFINITION. The STATUS fields: the word read back (spec/30_encoding.md R98), the write-one-to-clear write
(spec/10_state.md R23 to R29), what each event does to them (spec/60_exceptions.md R223 to R225, spec/44_control.md R203),
and irq (R230). No command sets a flag as a side effect of arithmetic (10_state.md R49). -/

namespace Sys2Proof.Machine

/-- The 4-bit ERRCODE of an error (60_exceptions.md R221). -/
def errBits : ErrCode → BitVec 4
  | .none => 0
  | .badcmd => 1
  | .arg => 2
  | .keyder => 3
  | .noinv => 4
  | .nokey => 5
  | .capacity => 6
  | .declen => 7
  | .crange => 8

/-- The STATUS word read back: ERRCODE << 8, then WIGN, TRUNC, KEY_VALID, ERR, DONE, BUSY from bit 5 down to bit 0
(20_memory.md R66). -/
def statusWord (f : Status) : Word :=
  (errBits f.errcode).setWidth 32 <<< 8 |||
  (BitVec.ofBool f.wign).setWidth 32 <<< 5 |||
  (BitVec.ofBool f.trunc).setWidth 32 <<< 4 |||
  (BitVec.ofBool f.keyValid).setWidth 32 <<< 3 |||
  (BitVec.ofBool f.err).setWidth 32 <<< 2 |||
  (BitVec.ofBool f.done).setWidth 32 <<< 1 |||
  (BitVec.ofBool f.busy).setWidth 32

/-- A host write of STATUS: bits 1, 2, 4 and 5 clear DONE, ERR with ERRCODE, TRUNC and WIGN (20_memory.md R67). -/
def statusW1c (v : Word) (f : Status) : Status :=
  { f with
    done := f.done && !v.getLsbD 1
    err := f.err && !v.getLsbD 2
    errcode := if v.getLsbD 2 then .none else f.errcode
    trunc := f.trunc && !v.getLsbD 4
    wign := f.wign && !v.getLsbD 5 }

/-- StartEffects(): DONE, ERR, ERRCODE and TRUNC cleared (60_exceptions.md R223). -/
def statusStart (f : Status) : Status := { f with done := false, err := false, errcode := .none, trunc := false }

/-- The STATUS part of `complete()`: BUSY <- 0, DONE <- 1 (60_exceptions.md R224). -/
def statusComplete (f : Status) : Status := { f with busy := false, done := true }

/-- The STATUS part of `raise Error(code)`: ERR <- 1, ERRCODE <- code, DONE <- 1, BUSY <- 0 (60_exceptions.md R225). -/
def statusError (c : ErrCode) (f : Status) : Status := { f with err := true, errcode := c, done := true, busy := false }

/-- A host write ignored because BUSY = 1 sets WIGN (44_control.md R203). -/
def statusIgnored (f : Status) : Status := { f with wign := true }

/-- The interrupt output: DONE and DONE_IE (60_exceptions.md R230). -/
def State.irq (s : State) : Bool := s.status.done && s.doneIe

end Sys2Proof.Machine
end

