-- ==== Sys2Proof/Machine/Operands.lean ====
section
/-! DEFINITION. Operand assembly and the integer and bit-sequence helpers of the pseudocode: spec/00_scope.md R11 to R13,
spec/20_memory.md R68 to R71, spec/30_encoding.md R96, R97, spec/42_encrypt.md R162, spec/43_decrypt.md R184 to R186. -/

namespace Sys2Proof.Machine

/-! ### Integer helpers (R11) -/

/-- `ceil_div(a, b)`, for b at least 1 (R11). -/
def ceilDiv (a b : Nat) : Nat := (a + b - 1) / b

/-- `bitlen(x)`, the least k with x < 2^k (R11). -/
def bitlen (x : Nat) : Nat := if x = 0 then 0 else Nat.log2 x + 1

/-- `phi = (p-1)*(q-1)` (40_key_derivation.md R122). -/
def totient (p q : Nat) : Nat := (p - 1) * (q - 1)

/-- Square and multiply over the `fuel` low bits of `x`, keeping `a * b^x mod m`. -/
def powModLoop : (fuel a b x m : Nat) → Nat
  | 0, a, _, _, m => a % m
  | f + 1, a, b, x, m =>
    if x = 0 then a % m
    else powModLoop f (if x % 2 = 1 then a * b % m else a) (b * b % m) (x / 2) m

/-- What the modexp engine answers: `b^x mod m` (44_control.md R209), by square and multiply so that it can be evaluated;
`powMod_eq` in Laws/Arith.lean says that it is `b ^ x % m`. -/
def powMod (b x m : Nat) : Nat := powModLoop (bitlen x) 1 (b % m) x m

/-! ### Words of wide values (20_memory.md R68) -/

/-- Word j of a wide value: its bits [32j+31:32j]. -/
def wordOf (v j : Nat) : Word := BitVec.ofNat 32 (v / 2 ^ (32 * j))

/-- A wide value with bits [32j+31:32j] replaced by a word (20_memory.md R67). -/
def withWord (v j : Nat) (w : Word) : Nat :=
  v % 2 ^ (32 * j) + w.toNat * 2 ^ (32 * j) + v / 2 ^ (32 * (j + 1)) * 2 ^ (32 * (j + 1))

/-! ### Bit sequences (R12, R13) -/

/-- `val(s)`: the sequence as a binary number, most significant bit first. -/
def bitsVal (s : List Bool) : Nat := s.foldl (fun a b => 2 * a + b.toNat) 0

/-- `render(v, w)`: the w low bits of v, most significant first. -/
def render (v w : Nat) : List Bool := (List.range w).map fun t => v.testBit (w - 1 - t)

/-- `s[i..j)`. -/
def bitSlice (s : List Bool) (i j : Nat) : List Bool := (s.drop i).take (j - i)

/-! ### Buffers -/

/-- Bus byte address of MSG(i) (20_memory.md R69). -/
def msgAddr (i : Nat) : Nat := 0x1000 + i

/-- Bus byte address of the first word of CT(i) (20_memory.md R70). -/
def ctAddr (c : Config) (i : Nat) : Nat := 0x10000 + 4 * c.wpn * i

/-- What an address that no write has reached since reset reads as: no value of the model's, a free value is read
(log entry 2). -/
def unlistedByte : Option Byte := none

/-- The byte listed at an address. -/
def memLookup : Memory → Nat → Option Byte
  | [], _ => unlistedByte
  | (k, b) :: rest, a => if k = a then some b else memLookup rest a

/-- The buffer byte at a bus byte address: what was written last, or the free value it has held since reset. -/
def byteAt (s : State) (a : Nat) : Byte :=
  match memLookup s.mem a with
  | some b => b
  | none => Config.freeByte s.epoch a

/-- The bytes at consecutive addresses. -/
def bytesAt (s : State) (a : Nat) : Nat → List Byte
  | 0 => []
  | k + 1 => byteAt s a :: bytesAt s (a + 1) k

/-- The number that bytes hold, the least significant at the lowest address. -/
def bytesVal : List Byte → Nat
  | [] => 0
  | b :: rest => b.toNat + 256 * bytesVal rest

/-- The k low bytes of a number, least significant first. -/
def valBytes : (k v : Nat) → List Byte
  | 0, _ => []
  | k + 1, v => BitVec.ofNat 8 v :: valBytes k (v / 256)

/-- MSG(i) (00_scope.md R10). -/
def msgByte (s : State) (i : Nat) : Byte := byteAt s (msgAddr i)

/-- CT(i) as a natural number (00_scope.md R10, 30_encoding.md R96). -/
def ctEntry (s : State) (i : Nat) : Nat := bytesVal (bytesAt s (ctAddr s.cfg i) (4 * s.cfg.wpn))

/-- One 32-bit word of a buffer, little-endian byte lanes (20_memory.md R69, R70). -/
def bufWord (s : State) (a : Nat) : Word := BitVec.ofNat 32 (bytesVal (bytesAt s a 4))

/-- `Bits(L)`: the message bit sequence of MSG(0..L) (00_scope.md R13). -/
def msgBits (s : State) (len : Nat) : List Bool := (List.range len).flatMap fun i => render (msgByte s i).toNat 8

/-- `Bytes(s)`: byte i is val(s[8i..8i+8)), for i < len (00_scope.md R13). -/
def bitsBytes (bits : List Bool) (len : Nat) : List Byte :=
  (List.range len).map fun i => BitVec.ofNat 8 (bitsVal (bitSlice bits (8 * i) (8 * i + 8)))

/-! ### Blocks of ENCRYPT and DECRYPT -/

/-- L = x[MSG_LEN]. -/
def msgCount (s : State) : Nat := s.msgLen.toNat

/-- The block count k = ceil_div(8*L, bl) (42_encrypt.md R165). -/
def blockCount (s : State) : Nat := ceilDiv (8 * msgCount s) s.blockLen.toNat

/-- The value of plaintext block i: val(S[lo..hi)) with lo = i*bl and hi = min(lo+bl, 8L) (42_encrypt.md R160, R162). -/
def blockValue (s : State) (i : Nat) : Nat :=
  bitsVal (bitSlice (msgBits s (msgCount s)) (i * s.blockLen.toNat)
    (min (i * s.blockLen.toNat + s.blockLen.toNat) (8 * msgCount s)))

/-- The width at which DECRYPT renders block i of k when `emitted` bits are already in ACC: bl, and for the last block the
bits still needed (43_decrypt.md R184, R185). -/
def renderWidth (bl len k i emitted : Nat) : Nat := if i < k - 1 then bl else 8 * len - emitted

/-- Appending one plain value to (ACC, TP): its w low bits, and TP <- 1 when it does not fit (43_decrypt.md R180, R186). -/
def appendBlock (w pv : Nat) (at_ : List Bool × Bool) : List Bool × Bool :=
  (at_.1 ++ render pv w, at_.2 || decide (2 ^ w ≤ pv))

end Sys2Proof.Machine
end

