-- ==== Sys2Proof/Machine/Ops.lean ====
section
/-! DEFINITION. The shared operations: the buffer memory, the address map and the registers behind it, starting a command,
ending it with success or with an error (the controller's "trap" mechanism, spec/60_exceptions.md section 2), the host's
acknowledgement, and the modexp port. The meanings call these and nothing below them. -/

namespace Sys2Proof.Machine

/-! ### The buffer memory -/

/-- Writing one byte: the list stays strictly rising, and the address is listed once. -/
def memSet : Memory → Nat → Byte → Memory
  | [], a, b => [(a, b)]
  | (k, v) :: rest, a, b =>
    if a < k then (a, b) :: (k, v) :: rest
    else if a = k then (a, b) :: rest
    else (k, v) :: memSet rest a b

/-- Writing bytes at consecutive addresses. -/
def memSetBytes : Memory → Nat → List Byte → Memory
  | m, _, [] => m
  | m, a, b :: bs => memSetBytes (memSet m a b) (a + 1) bs

/-- CT(i) <- v for i = first, first+1, ... over a list of entry values (42_encrypt.md R164). -/
def memSetEntries (c : Config) : Memory → Nat → List Nat → Memory
  | m, _, [] => m
  | m, i, v :: vs => memSetEntries c (memSetBytes m (ctAddr c i) (valBytes (4 * c.wpn) v)) (i + 1) vs

/-- The canonical form: addresses strictly rising, and no entry equal to what an unlisted address reads as. -/
abbrev Memory.wf (m : Memory) : Prop :=
  m.Pairwise (fun x y => x.1 < y.1) ∧ ∀ c ∈ m, some c.2 ≠ unlistedByte

/-! ### The address map (20_memory.md R61) -/

/-- How many words of a wide register's window are mapped (10_state.md R20). -/
def wideWords (c : Config) : Wide → Nat
  | .p => c.wpp
  | .q => c.wpp
  | .n => c.wpn
  | .d => c.wpn
  | .ma => c.wpn
  | .mm => c.wpn
  | .mr => c.wpn

/-- The wide register whose window starts at 0x100 times a page number. -/
def widePage : Nat → Option Wide
  | 1 => some .p
  | 2 => some .q
  | 3 => some .n
  | 4 => some .d
  | 5 => some .ma
  | 6 => some .mm
  | 7 => some .mr
  | _ => none

/-- The single-word registers, by word index from address 0. -/
def fixedReg : Nat → Option Region
  | 0 => some .ctrl
  | 1 => some .status
  | 2 => some .irqEn
  | 3 => some .msgLen
  | 4 => some .blkCount
  | 5 => some .blockLen
  | 6 => some .e
  | _ => none

/-- Which region a byte address lies in; none where it is unmapped (R61, R64). -/
def region (c : Config) (a : Nat) : Option Region :=
  if a < 0x100 then fixedReg (a / 4)
  else if a < 0x800 then
    match widePage (a / 0x100) with
    | some w => if a % 0x100 / 4 < wideWords c w then some (.wide w (a % 0x100 / 4)) else none
    | none => none
  else if 0x1000 ≤ a ∧ a < 0x1000 + c.maxlen then some (.msgBuf ((a - 0x1000) / 4))
  else if 0x10000 ≤ a ∧ a < 0x10000 + 4 * (c.maxblk * c.wpn) then some (.ctBuf ((a - 0x10000) / 4))
  else none

/-- What a bus access reaches: nothing when it is misaligned or unmapped (R63, R64). -/
def busTarget (c : Config) (a : Addr) : Option Region := if a.toNat % 4 = 0 then region c a.toNat else none

/-- `held(addr)`: every mapped address except CTRL, STATUS, IRQ_EN and E (20_memory.md R66). -/
def held : Region → Bool
  | .ctrl => false
  | .status => false
  | .irqEn => false
  | .e => false
  | .msgLen => true
  | .blkCount => true
  | .blockLen => true
  | .wide _ _ => true
  | .msgBuf _ => true
  | .ctBuf _ => true

/-! ### Registers -/

/-- `x[W]` of a wide register. -/
def readWide (s : State) : Wide → Nat
  | .p => s.p
  | .q => s.q
  | .n => s.n
  | .d => s.d
  | .ma => s.ma
  | .mm => s.mm
  | .mr => s.mr

/-- The data a read of a region returns (20_memory.md R66): CTRL reads 0, E reads 65537 in every state. -/
def readRegion (s : State) : Region → Word
  | .ctrl => 0
  | .status => statusWord s.status
  | .irqEn => (BitVec.ofBool s.doneIe).setWidth 32
  | .msgLen => s.msgLen
  | .blkCount => s.blkCount
  | .blockLen => s.blockLen
  | .e => BitVec.ofNat 32 Config.e
  | .wide w j => wordOf (readWide s w) j
  | .msgBuf w => bufWord s (msgAddr (4 * w))
  | .ctBuf u => bufWord s (0x10000 + 4 * u)

/-- One bus response on the trace (20_memory.md R65). -/
def respond (r : Resp) (rdata : Word) (s : State) : State := { s with trace := .busResp r rdata :: s.trace }

/-- A host write ignored because a command runs: it changes nothing but WIGN (44_control.md R203). -/
def ignoredWrite (s : State) : State := { s with status := statusIgnored s.status }

/-! ### Starting and ending a command -/

/-- StartEffects() (60_exceptions.md R223). -/
def startEffects (s : State) : State := { s with status := statusStart s.status }

/-- The start of a command that runs: StartEffects, BUSY <- 1, phase <- c, blk <- 0, mx_pending <- 0 (44_control.md R200). Its
checks are still to be made (R205). -/
def startCommand (ph : Phase) (s : State) : State :=
  { s with
    status := { statusStart s.status with busy := true }
    phase := ph
    blk := 0
    mxPending := false
    checked := false }

/-- `complete()`: BUSY <- 0, DONE <- 1, phase <- IDLE (60_exceptions.md R224). The command's outputs are written in the same
step by the meaning that calls it. -/
def completeCommand (s : State) : State := { s with status := statusComplete s.status, phase := .idle }

/-- `raise Error(code)`, also written ErrorCompletion(code): how every error is taken (60_exceptions.md R225). No output is
written; DERIVE's key clear (40_key_derivation.md R127) is `clearKey`, in its own meaning. -/
def errorCompletion (code : ErrCode) (s : State) : State :=
  { s with status := statusError code s.status, phase := .idle }

/-- The acknowledgement of a completion, a W1C write of STATUS; it restores nothing, because nothing was saved
(60_exceptions.md R228). -/
def acknowledge (v : Word) (s : State) : State := { s with status := statusW1c v s.status }

/-- What a failed DERIVE writes: N, D, BLOCK_LEN and KEY_VALID at 0 (40_key_derivation.md R127). -/
def clearKey (s : State) : State :=
  { s with n := 0, d := 0, blockLen := 0, status := { s.status with keyValid := false } }

/-- CommandWrite(v) (44_control.md R200). -/
def commandWrite (v : Word) (s : State) : State :=
  if s.status.busy then ignoredWrite s
  else
    match decodeCommand v with
    | .nop => s
    | .badcmd => errorCompletion .badcmd (startEffects s)
    | .derive => startCommand .derive s
    | .encrypt => startCommand .encrypt s
    | .decrypt => startCommand .decrypt s
    | .modinv => startCommand .modinv s

/-- The host's write of a word to CTRL, with its response (20_memory.md R67): how a CTRL word gets its first effect. -/
def ctrlWrite (v : Word) (s : State) : State := respond .okay 0 (commandWrite v s)

/-- The move is the controller's and `ph` is the command it is running: what follows is that command's next internal step, not
a write of its word (44_control.md R205). -/
def running (ph : Phase) (s : State) : Bool := decide (s.turn = .controller) && decide (s.phase = ph)

/-! ### Held registers and buffers -/

/-- A write that is honoured: one word of a register or buffer (20_memory.md R67). Regions that are not writable this way are
left alone. -/
def storeRegion (v : Word) (s : State) : Region → State
  | .msgLen => { s with msgLen := v }
  | .blkCount => { s with blkCount := v }
  | .wide .p j => { s with p := withWord s.p j v }
  | .wide .q j => { s with q := withWord s.q j v }
  | .wide .ma j => { s with ma := withWord s.ma j v }
  | .wide .mm j => { s with mm := withWord s.mm j v }
  | .msgBuf w => { s with mem := memSetBytes s.mem (msgAddr (4 * w)) (valBytes 4 v.toNat) }
  | .ctBuf u => { s with mem := memSetBytes s.mem (0x10000 + 4 * u) (valBytes 4 v.toNat) }
  | .ctrl => s
  | .status => s
  | .irqEn => s
  | .blockLen => s
  | .e => s
  | .wide .n _ => s
  | .wide .d _ => s
  | .wide .mr _ => s

/-- The regions a host write is ignored for, busy or not, without WIGN: E, BLOCK_LEN and the N, D and MR windows (R67). -/
def readOnly : Region → Bool
  | .e => true
  | .blockLen => true
  | .wide .n _ => true
  | .wide .d _ => true
  | .wide .mr _ => true
  | .wide .p _ => false
  | .wide .q _ => false
  | .wide .ma _ => false
  | .wide .mm _ => false
  | .ctrl => false
  | .status => false
  | .irqEn => false
  | .msgLen => false
  | .blkCount => false
  | .msgBuf _ => false
  | .ctBuf _ => false

/-- The effect of a bus write on a region (20_memory.md R67), in the rule's order. -/
def writeRegion (v : Word) (s : State) (r : Region) : State :=
  if r = .ctrl then commandWrite v s
  else if r = .status then acknowledge v s
  else if r = .irqEn then { s with doneIe := v.getLsbD 0 }
  else if readOnly r then s
  else if s.status.busy then ignoredWrite s
  else storeRegion v s r

/-! ### The modexp port (44_control.md R205, R209) -/

/-- **issue**: one request, with its base in SEG; mx_pending <- 1. -/
def issueModExp (b x m : Nat) (s : State) : State :=
  { s with
    seg := b
    mxPending := true
    mxReq := some { base := b, exp := x, mod := m }
    mxRsp := none
    trace := .mxIssue { base := b, exp := x, mod := m } :: s.trace }

/-- **absorb**, the part every command shares: mx_pending <- 0, blk <- blk + 1, and the answer leaves the port. -/
def absorbModExp (s : State) : State := { s with mxPending := false, mxRsp := none, blk := s.blk + 1 }

end Sys2Proof.Machine
end

