-- ==== Sys2Proof/Machine/Agents.lean ====
section
/-! DEFINITION. What a step does around `exec`: whose move it is, where the next instruction comes from, the engine's answer and
the edges of rst_n (spec/00_scope.md R14, spec/44_control.md R205 to R209, spec/70_reset_and_hazards.md R260 to R262). -/

namespace Sys2Proof.Machine

/-- The CTRL word of the command that `phase` names: the sequencing state plays the part of a program counter
(10_state.md R44). -/
def phaseWord : Phase → Option Word
  | .idle => none
  | .derive => some 1
  | .encrypt => some 2
  | .decrypt => some 3
  | .modinv => some 4

/-- The poll of `wait`: RD of STATUS, at 0x004 (30_encoding.md R101). -/
def pollPacket : List Byte := busPacket false 0x004 0

/-- The packet of the instruction that this move runs, and the state with it taken. The host takes the head of its program; a
`wait` stays there while its poll will read BUSY = 1. The controller takes the command it is running. Nobody takes one while
rst_n = 0. -/
def fetch (s : State) : Option (List Byte × State) :=
  if s.inReset then none
  else
    match s.turn with
    | .host =>
      match s.program with
      | [] => none
      | .txn bytes :: rest => some (bytes, { s with program := rest })
      | .wait :: rest => some (pollPacket, if s.status.busy then s else { s with program := rest })
    | .controller => (phaseWord s.phase).map fun v => (ctrlPacket v, s)
    | .engine => none
    | .resetLow => none
    | .resetHigh => none

/-- The controller holds: a request is out and no answer is present (44_control.md R207). -/
def holds (s : State) : Bool := s.mxPending && s.mxRsp.isNone

/-- Who moves when the schedule gives no more moves: rst_n is released, a request is answered, the controller steps unless it
holds, and else it is the host's move. This is the schedule the spec's own programs assume (95_test_vectors.md section 3), and
it is fair (70_reset_and_hazards.md R270). Log entry 4. -/
def fairTurn (s : State) : Turn :=
  if s.inReset then .resetHigh
  else if s.mxReq.isSome && s.mxLive then .engine
  else if s.phase ≠ .idle && !holds s then .controller
  else .host

/-- The next move is the schedule's head, and without one the fair choice. -/
def advanceTurn (s : State) : State :=
  match s.sched with
  | t :: rest => { s with turn := t, sched := rest }
  | [] => { s with turn := fairTurn s }

/-- The engine answers the request it holds with b^x mod m (44_control.md R209). An answer that no request waits for, one
issued before a reset, is ignored by the controller (70_reset_and_hazards.md R262, log entry 10). -/
def engineAnswer (s : State) : State :=
  match s.mxReq with
  | none => s
  | some r =>
    if !s.mxLive then s
    else if s.mxPending then { s with mxReq := none, mxRsp := some (powMod r.base r.exp r.mod) }
    else { s with mxReq := none }

/-- rst_n = 0: every piece of the controller's state takes its reset value, and the buffers hold new free contents
(70_reset_and_hazards.md R261, R262). The host, the engine and the record of what was observed are outside it. -/
def assertReset (s : State) : State :=
  { State.resetWith s.cfg with
    inReset := true
    epoch := s.epoch + 1
    draws := s.draws
    mxReq := s.mxReq
    mxLive := s.mxLive
    program := s.program
    turn := s.turn
    sched := s.sched
    trace := s.trace }

/-- rst_n = 1 again (70_reset_and_hazards.md R264). -/
def releaseReset (s : State) : State := { s with inReset := false }

/-- A move that runs no instruction: the host has nothing to issue (or may not, in reset), the controller is idle, the engine
answers, or rst_n changes. -/
def otherMove (s : State) : Host.Outcome State Fault Refusal :=
  match s.turn with
  | .host => if s.inReset && !s.program.isEmpty then .refused .busAccessInReset else .next (advanceTurn s)
  | .controller => .next (advanceTurn s)
  | .engine => .next (advanceTurn (engineAnswer s))
  | .resetLow => .next (advanceTurn (assertReset s))
  | .resetHigh => .next (advanceTurn (releaseReset s))

/-- After an instruction the move passes on. -/
def afterExec : Host.Outcome State Fault Refusal → Host.Outcome State Fault Refusal
  | .next s => .next (advanceTurn s)
  | .fault r => .fault r
  | .refused r => .refused r

/-- The packet as the host's very next move, out of reset. -/
def hostIssues (bytes : List Byte) (s : State) : State :=
  { s with turn := .host, inReset := false, program := .txn bytes :: s.program }

end Sys2Proof.Machine
end

