-- ==== Sys2Proof/Machine/Bcf.lean ====
section
/-! DEFINITION. BCF, the block cipher sequencer: ENCRYPT (spec/42_encrypt.md) and DECRYPT (spec/43_decrypt.md). Each internal
step is one of the kinds of 44_control.md R205: check, issue, absorb, complete, or the hold of R207 while a request is
unanswered. -/

namespace Sys2Proof.Machine

/-! ### ENCRYPT -/

/-- The first of ENCRYPT's checks that fails (42_encrypt.md R161). -/
def encryptCheck (s : State) : Option ErrCode :=
  if s.status.keyValid = false then some .nokey
  else if s.cfg.maxlen < msgCount s then some .capacity
  else if s.cfg.maxblk < blockCount s then some .capacity
  else none

/-- What a successful ENCRYPT commits together: CT(i) <- c[i] for i < k, and BLK_COUNT <- k (R164). -/
def encryptCommit (s : State) : State :=
  { s with
    mem := memSetEntries s.cfg s.mem 0 s.answers
    blkCount := BitVec.ofNat 32 (blockCount s) }

/-- The next internal step of ENCRYPT (R160, R163). -/
def encryptStep (s : State) : State :=
  if !s.checked then
    match encryptCheck s with
    | some code => errorCompletion code s
    | none => { s with checked := true, answers := [] }
  else if s.mxPending then
    match s.mxRsp with
    | none => s
    | some c => absorbModExp { s with answers := s.answers ++ [c] }
  else if s.blk < blockCount s then issueModExp (blockValue s s.blk) Config.e s.n s
  else completeCommand (encryptCommit s)

/-- ENCRYPT (CTRL word 2; R160): written by the host it starts, run by the controller it takes its next step. -/
def execEncrypt (s : State) : Host.Outcome State Fault Refusal :=
  if running .encrypt s then .next (encryptStep s) else .next (ctrlWrite 2 s)

/-! ### DECRYPT -/

/-- The number k of blocks to decrypt, x[BLK_COUNT] (43_decrypt.md R180). -/
def cipherCount (s : State) : Nat := s.blkCount.toNat

/-- Some CT(i) with i < k is not below N (43_decrypt.md R182). -/
def cipherOutOfRange (s : State) : Bool := (List.range (cipherCount s)).any fun i => decide (s.n ≤ ctEntry s i)

/-- The first of DECRYPT's checks that fails (43_decrypt.md R181). -/
def decryptCheck (s : State) : Option ErrCode :=
  if s.status.keyValid = false then some .nokey
  else if s.cfg.maxlen < msgCount s then some .capacity
  else if s.cfg.maxblk < cipherCount s then some .capacity
  else if cipherCount s ≠ blockCount s then some .declen
  else if cipherOutOfRange s then some .crange
  else none

/-- The width at which the current block is rendered (43_decrypt.md R184, R185). -/
def currentWidth (s : State) : Nat :=
  renderWidth s.blockLen.toNat (msgCount s) (cipherCount s) s.blk s.acc.length

/-- One plain value into ACC and TP (43_decrypt.md R184 to R186). -/
def decryptAppend (pv : Nat) (s : State) : State :=
  { s with
    acc := (appendBlock (currentWidth s) pv (s.acc, s.tp)).1
    tp := (appendBlock (currentWidth s) pv (s.acc, s.tp)).2 }

/-- What a successful DECRYPT commits together: MSG(j) for j < L, and TRUNC <- TP (43_decrypt.md R187). -/
def decryptCommit (s : State) : State :=
  { s with
    mem := memSetBytes s.mem (msgAddr 0) (bitsBytes s.acc (msgCount s))
    status := { s.status with trunc := s.tp } }

/-- The next internal step of DECRYPT (43_decrypt.md R180, R183). -/
def decryptStep (s : State) : State :=
  if !s.checked then
    match decryptCheck s with
    | some code => errorCompletion code s
    | none => { s with checked := true, acc := [], tp := false }
  else if s.mxPending then
    match s.mxRsp with
    | none => s
    | some pv => absorbModExp (decryptAppend pv s)
  else if s.blk < cipherCount s then issueModExp (ctEntry s s.blk) s.d s.n s
  else completeCommand (decryptCommit s)

/-- DECRYPT (CTRL word 3; 43_decrypt.md R180): written by the host it starts, run by the controller it takes its next step. -/
def execDecrypt (s : State) : Host.Outcome State Fault Refusal :=
  if running .decrypt s then .next (decryptStep s) else .next (ctrlWrite 3 s)

end Sys2Proof.Machine
end

