-- ==== Sys2Proof/Machine/Bus.lean ====
section
/-! DEFINITION. The host-bus transactions RD and WR (spec/20_memory.md R62 to R67, spec/44_control.md R203, R204). -/

namespace Sys2Proof.Machine

/-- RD (20_memory.md R66). pwdata is ignored (30_encoding.md R99). A read of a held register while BUSY = 1 returns a free
word (44_control.md R204). -/
def execRd (paddr : Addr) (_pwdata : Word) (s : State) : Host.Outcome State Fault Refusal :=
  match busTarget s.cfg paddr with
  | none => .next (respond .slverr 0 s)
  | some r =>
    if s.status.busy && held r then .next (respond .okay (Config.freeWord s.draws) { s with draws := s.draws + 1 })
    else .next (respond .okay (readRegion s r) s)

/-- WR (20_memory.md R67). A write to CTRL runs CommandWrite (44_control.md R200). -/
def execWr (paddr : Addr) (pwdata : Word) (s : State) : Host.Outcome State Fault Refusal :=
  match busTarget s.cfg paddr with
  | none => .next (respond .slverr 0 s)
  | some r => .next (respond .okay 0 (writeRegion pwdata s r))

end Sys2Proof.Machine
end

