-- ==== Sys2Proof/Machine/Control.lean ====
section
/-! DEFINITION. The commands that never run: NOP and BADCMD (spec/44_control.md R201, R202). -/

namespace Sys2Proof.Machine

/-- NOP (CTRL word 0; R201): no effect; while BUSY = 1 it sets WIGN like any CTRL write (R203). -/
def execNop (s : State) : Host.Outcome State Fault Refusal := .next (ctrlWrite 0 s)

/-- BADCMD (any reserved CTRL word; R202): StartEffects and the error completion in the same step; while BUSY = 1 the word is
ignored and sets WIGN. -/
def execBadcmd (word : Word) (s : State) : Host.Outcome State Fault Refusal := .next (ctrlWrite word s)

end Sys2Proof.Machine
end

