-- ==== Sys2Proof/Machine/Mic.lean ====
section
/-! DEFINITION. MIC, the modular inverse controller (spec/41_modular_inverse.md), and MODINV. MIC runs the reference iteration of
R141, one pass of its loop per internal step (log entry 6). -/

namespace Sys2Proof.Machine

/-- The registers before the loop: r0 <- m, r1 <- a mod m, t0 <- 0, t1 <- 1 (R141). -/
def micLoad (a m : Nat) : MicRegs := { r0 := m, r1 := a % m, t0 := 0, t1 := 1 }

/-- One pass of the loop (R141), for r1 not 0. -/
def micPass (m : Nat) (g : MicRegs) : MicRegs :=
  { r0 := g.r1
    r1 := g.r0 - g.r0 / g.r1 * g.r1
    t0 := g.t1
    t1 := (g.t0 + m - g.r0 / g.r1 * g.t1 % m) % m }

/-- The next internal step of MODINV (R143): the check of m, then the passes of MIC, then NOINV or the result. -/
def modinvStep (s : State) : State :=
  if !s.checked then
    if s.mm < 2 then errorCompletion .arg s
    else { s with checked := true, mic := micLoad s.ma s.mm }
  else if s.mic.r1 ≠ 0 then { s with mic := micPass s.mm s.mic }
  else if s.mic.r0 ≠ 1 then errorCompletion .noinv s
  else completeCommand { s with mr := s.mic.t0 }

/-- MODINV (CTRL word 4; R143): written by the host it starts, run by the controller it takes its next step. -/
def execModinv (s : State) : Host.Outcome State Fault Refusal :=
  if running .modinv s then .next (modinvStep s) else .next (ctrlWrite 4 s)

end Sys2Proof.Machine
end

