-- ==== Sys2Proof/Machine/Kds.lean ====
section
/-! DEFINITION. KDS, the key derivation sequencer, and DERIVE (spec/40_key_derivation.md). -/

namespace Sys2Proof.Machine

/-- The error completion of DERIVE: it also clears the key (R127). -/
def deriveError (code : ErrCode) (s : State) : State := errorCompletion code (clearKey s)

/-- What a successful DERIVE commits together: N, D, BLOCK_LEN and KEY_VALID (R126). -/
def deriveCommit (s : State) : State :=
  { s with
    n := s.p * s.q
    d := s.mic.t0
    blockLen := BitVec.ofNat 32 (bitlen (s.p * s.q) - 1)
    status := { s.status with keyValid := true } }

/-- The next internal step of DERIVE (R120): ARG for an input below 2; phi into PHI and KEYDER when it is below 2, which MIC
rejects (41_modular_inverse.md R140); the passes of MIC on 65537 and phi; then KEYDER or the commit. -/
def deriveStep (s : State) : State :=
  if !s.checked then
    if s.p < 2 ∨ s.q < 2 then deriveError .arg s
    else if totient s.p s.q < 2 then deriveError .keyder { s with phi := totient s.p s.q }
    else
      { s with
        checked := true
        phi := totient s.p s.q
        mic := micLoad Config.e (totient s.p s.q) }
  else if s.mic.r1 ≠ 0 then { s with mic := micPass s.phi s.mic }
  else if s.mic.r0 ≠ 1 then deriveError .keyder s
  else completeCommand (deriveCommit s)

/-- DERIVE (CTRL word 1; R120): written by the host it starts, run by the controller it takes its next step. -/
def execDerive (s : State) : Host.Outcome State Fault Refusal :=
  if running .derive s then .next (deriveStep s) else .next (ctrlWrite 1 s)

end Sys2Proof.Machine
end

