-- ==== Sys2Proof/Machine/Dispatch.lean ====
section
/-! DEFINITION. One arm per constructor of Instr. -/

namespace Sys2Proof.Machine

def exec (i : Instr) (s : State) : Host.Outcome State Fault Refusal :=
  match i with
  | .nop => Sys2Proof.Machine.execNop s
  | .derive => Sys2Proof.Machine.execDerive s
  | .encrypt => Sys2Proof.Machine.execEncrypt s
  | .decrypt => Sys2Proof.Machine.execDecrypt s
  | .modinv => Sys2Proof.Machine.execModinv s
  | .badcmd word => Sys2Proof.Machine.execBadcmd word s
  | .rd paddr pwdata => Sys2Proof.Machine.execRd paddr pwdata s
  | .wr paddr pwdata => Sys2Proof.Machine.execWr paddr pwdata s

end Sys2Proof.Machine
end

