-- ==== Sys2Proof/Machine/Step.lean ====
section
/-! DEFINITION. One step of the machine. -/

namespace Sys2Proof.Machine

/-- One move: the instruction it fetches, decoded and run, or a move that runs none. -/
def step (s : State) : Host.Outcome State Fault Refusal :=
  match fetch s with
  | none => otherMove s
  | some (bytes, s') =>
    match decode bytes with
    | .ok i => afterExec (exec i s')
    | .error _ => .fault .notATransaction

/-- The state whose very next step runs the instruction whose bits are `w`, numbered as spec/opcode_table.json numbers them:
the host's next transaction (log entry 12). -/
def State.withFetchWord (s : State) (nbits w : Nat) : State := hostIssues (tablePacket nbits w) s

end Sys2Proof.Machine
end

