-- ==== Sys2Proof/Machine/HostAsm.lean ====
section
/-! DEFINITION. The host-program assembly of spec/30_encoding.md R100 to R102: each line and each pseudo-instruction as the host
operations it expands to. Assertions (`=VALUE`) are no bus feature (R100) and have no operation. -/

namespace Sys2Proof.Machine

/-- Bus address of a wide register's window (R100's symbols P to MR). -/
def wideBase : Wide → Nat
  | .p => 0x100
  | .q => 0x200
  | .n => 0x300
  | .d => 0x400
  | .ma => 0x500
  | .mm => 0x600
  | .mr => 0x700

/-- `rd ADDR` (R100). -/
def asmRd (a : Nat) : HostOp := .txn (encode (.rd (BitVec.ofNat 17 a) 0))

/-- `wr ADDR, DATA` (R100). -/
def asmWr (a : Nat) (v : Word) : HostOp := .txn (encode (.wr (BitVec.ofNat 17 a) v))

/-- OP(NAME) (R91); a reserved word stands for itself. -/
def commandWord : Command → Word
  | .nop => 0
  | .derive => 1
  | .encrypt => 2
  | .decrypt => 3
  | .modinv => 4
  | .badcmd => 5

/-- `cmd NAME` (R101). -/
def asmCmd (c : Command) : HostOp := asmWr 0x000 (commandWord c)

/-- `wait` (R101). -/
def asmWait : HostOp := .wait

/-- `wrw W, V` (R101): every word of the window, in increasing j. -/
def asmWrw (c : Config) (w : Wide) (v : Nat) : List HostOp :=
  (List.range (wideWords c w)).map fun j => asmWr (wideBase w + 4 * j) (wordOf v j)

/-- `rdw W` (R101). -/
def asmRdw (c : Config) (w : Wide) : List HostOp :=
  (List.range (wideWords c w)).map fun j => asmRd (wideBase w + 4 * j)

/-- `wrct i, V` (R101). -/
def asmWrct (c : Config) (i v : Nat) : List HostOp :=
  (List.range c.wpn).map fun j => asmWr (ctAddr c i + 4 * j) (wordOf v j)

/-- `rdct i` (R101). -/
def asmRdct (c : Config) (i : Nat) : List HostOp :=
  (List.range c.wpn).map fun j => asmRd (ctAddr c i + 4 * j)

/-- `msg "s"` (R101) for the bytes of s: the words of MSG_BUF, 0 past the end, then MSG_LEN. -/
def asmMsg (bytes : List Byte) : List HostOp :=
  ((List.range (ceilDiv bytes.length 4)).map fun w =>
      asmWr (msgAddr (4 * w)) (BitVec.ofNat 32 (bytesVal ((bytes.drop (4 * w)).take 4)))) ++
    [asmWr 0x00C (BitVec.ofNat 32 bytes.length)]

/-- `ack` (R101). -/
def asmAck : HostOp := asmWr 0x004 0x00000036

end Sys2Proof.Machine
end

