-- ==== Sys2Proof/Safety.lean ====
section
/-! DEFINITION. The invariants of the machine, in the terms the claims use: what the rules say holds "in every state", and what
ties the hidden state of a running command to its operands. `MachineInv` is their conjunction; a run is safe while it holds. -/

namespace Sys2Proof.Machine

/-! ### Registers -/

/-- BUSY is 1 exactly while phase is not IDLE (spec/10_state.md R45), and ERR is 0 exactly while ERRCODE is (R28). -/
def StatusInv (s : State) : Prop :=
  (s.status.busy = true ↔ s.phase ≠ .idle) ∧ (s.status.err = false ↔ s.status.errcode = .none)

/-- The wide registers hold values of their widths (10_state.md R35 to R41). -/
def WidthInv (s : State) : Prop :=
  s.p < 2 ^ s.cfg.pw ∧ s.q < 2 ^ s.cfg.pw ∧ s.n < 2 ^ s.cfg.nw ∧ s.d < 2 ^ s.cfg.nw ∧
  s.ma < 2 ^ s.cfg.nw ∧ s.mm < 2 ^ s.cfg.nw ∧ s.mr < 2 ^ s.cfg.nw

/-- A byte address of MSG_BUF or CT_BUF (20_memory.md R61). -/
def bufferAddr (c : Config) (a : Nat) : Prop :=
  (0x1000 ≤ a ∧ a < 0x1000 + c.maxlen) ∨ (0x10000 ≤ a ∧ a < 0x10000 + 4 * (c.maxblk * c.wpn))

/-- The memory has its canonical form and lists buffer bytes only. -/
def MemInv (s : State) : Prop := Memory.wf s.mem ∧ ∀ c ∈ s.mem, bufferAddr s.cfg c.1

/-- KeyMaterial (10_state.md R50): with KEY_VALID = 1 the key registers come from some p and q of at least 2; with
KEY_VALID = 0 they are 0, as reset and a failed DERIVE leave them (40_key_derivation.md R127). -/
def KeyInv (s : State) : Prop :=
  if s.status.keyValid then
    ∃ p q, 2 ≤ p ∧ 2 ≤ q ∧ s.n = p * q ∧ 1 ≤ s.d ∧ s.d < totient p q ∧ Config.e * s.d % totient p q = 1 ∧
      s.blockLen.toNat = bitlen s.n - 1
  else s.n = 0 ∧ s.d = 0 ∧ s.blockLen = 0

/-! ### MIC (41_modular_inverse.md R141) -/

/-- What MIC's loop keeps: (t_i * a) mod m = r_i mod m for i = 0, 1, the greatest common divisor, reduced coefficients and a
falling remainder. -/
def MicRel (a m : Nat) (g : MicRegs) : Prop :=
  2 ≤ m ∧ g.t0 < m ∧ g.t1 < m ∧ g.t0 * a % m = g.r0 % m ∧ g.t1 * a % m = g.r1 % m ∧
  Nat.gcd g.r0 g.r1 = Nat.gcd (a % m) m ∧ g.r1 < g.r0 ∧ g.r0 ≤ m

/-- MIC's registers belong to the operands of the command that is past its checks. -/
def MicInv (s : State) : Prop :=
  (s.phase = .derive ∧ s.checked = true →
    2 ≤ s.p ∧ 2 ≤ s.q ∧ s.phi = totient s.p s.q ∧ MicRel Config.e s.phi s.mic) ∧
  (s.phase = .modinv ∧ s.checked = true → MicRel s.ma s.mm s.mic)

/-! ### BCF -/

/-- Ciphertext block i of the message (42_encrypt.md R163). -/
def cipherValue (s : State) (i : Nat) : Nat := powMod (blockValue s i) Config.e s.n

/-- Plain value of ciphertext block i (43_decrypt.md R183). -/
def plainValue (s : State) (i : Nat) : Nat := powMod (ctEntry s i) s.d s.n

/-- (ACC, TP) after the first i blocks of DECRYPT (43_decrypt.md R180). -/
def reassembled (s : State) : Nat → List Bool × Bool
  | 0 => ([], false)
  | i + 1 =>
    appendBlock (renderWidth s.blockLen.toNat (msgCount s) (cipherCount s) i (reassembled s i).1.length) (plainValue s i)
      (reassembled s i)

/-- The request on the port is for block blk, or its answer is there (44_control.md R209). -/
def PortHolds (s : State) (base exp : Nat) : Prop :=
  (s.mxReq = some { base := base, exp := exp, mod := s.n } ∧ s.mxRsp = none) ∨
  (s.mxReq = none ∧ s.mxRsp = some (powMod base exp s.n))

/-- The progress of a running ENCRYPT that is past its checks. -/
def EncryptProgress (s : State) : Prop :=
  encryptCheck s = none ∧ s.blk ≤ blockCount s ∧ s.answers = (List.range s.blk).map (cipherValue s) ∧
  (s.mxPending = true → s.blk < blockCount s ∧ PortHolds s (blockValue s s.blk) Config.e)

/-- The progress of a running DECRYPT that is past its checks. -/
def DecryptProgress (s : State) : Prop :=
  decryptCheck s = none ∧ s.blk ≤ cipherCount s ∧ (s.acc, s.tp) = reassembled s s.blk ∧
  (s.mxPending = true → s.blk < cipherCount s ∧ PortHolds s (ctEntry s s.blk) s.d)

/-- The modexp port and the block loop. -/
def BlockInv (s : State) : Prop :=
  (s.mxPending = true → s.checked = true ∧ (s.phase = .encrypt ∨ s.phase = .decrypt)) ∧
  (s.mxPending = false → s.mxRsp = none) ∧
  (s.phase ≠ .idle ∧ s.checked = false → s.blk = 0) ∧
  (s.phase = .encrypt ∧ s.checked = true → EncryptProgress s) ∧
  (s.phase = .decrypt ∧ s.checked = true → DecryptProgress s)

/-- Every request on the port has a modulus of at least 4 and a base below it (44_control.md R209). -/
def TraceInv (s : State) : Prop := ∀ r, Event.mxIssue r ∈ s.trace → 4 ≤ r.mod ∧ r.base < r.mod

/-! ### Reset -/

/-- While rst_n = 0 every piece of the controller's state keeps its reset value (70_reset_and_hazards.md R260, R261). -/
def ResetInv (s : State) : Prop :=
  s.inReset = true →
    s.status = State.reset.status ∧ s.doneIe = false ∧ s.msgLen = 0 ∧ s.blkCount = 0 ∧ s.blockLen = 0 ∧
    s.p = 0 ∧ s.q = 0 ∧ s.n = 0 ∧ s.d = 0 ∧ s.ma = 0 ∧ s.mm = 0 ∧ s.mr = 0 ∧ s.mem = [] ∧
    s.phase = .idle ∧ s.blk = 0 ∧ s.mxPending = false

/-- The invariant of the machine. -/
structure MachineInv (s : State) : Prop where
  legal  : s.cfg.Legal
  status : StatusInv s
  width  : WidthInv s
  mem    : MemInv s
  key    : KeyInv s
  mic    : MicInv s
  block  : BlockInv s
  trace  : TraceInv s
  reset  : ResetInv s

end Sys2Proof.Machine
end

