-- ==== Sys2Proof/Certificates/Slice0/Obligations.lean ====
section
/-! DEFINITION. The statements for the provers. `running c s` says that the move is the controller's and c is the command it runs;
a command executed otherwise is a write of its word to CTRL. An equation `exec i s = .next { s with ... }` says what i changes and
that it changes nothing else. `trace` records what was observed. -/

open Sys2Proof Sys2Proof.Machine

/-! ### Encoding -/

/-- Every well-formed instruction is decoded from its encoding, with every operand at every value (30_encoding.md R90 to R99). -/
def Obligations.DecodeEncodeRoundTrip : Prop :=
  ∀ i : Instr, i.wellFormed = true → decode (encode i) = .ok i

/-- What the decoder accepts is a well-formed instruction whose encoding is the packet: no two packets mean the same. -/
def Obligations.DecodedPacketIsTheEncoding : Prop :=
  ∀ (bytes : List Byte) (i : Instr), decode bytes = .ok i → i.wellFormed = true ∧ encode i = bytes

/-- R93: each valid command is the one word equal to its OP, and BADCMD is every other word. -/
def Obligations.CommandDecoderMatchesTheTable : Prop :=
  ∀ v : Word,
    (decodeCommand v = .nop ↔ v = 0) ∧ (decodeCommand v = .derive ↔ v = 1) ∧ (decodeCommand v = .encrypt ↔ v = 2) ∧
    (decodeCommand v = .decrypt ↔ v = 3) ∧ (decodeCommand v = .modinv ↔ v = 4) ∧
    (decodeCommand v = .badcmd ↔ v ≠ 0 ∧ v ≠ 1 ∧ v ≠ 2 ∧ v ≠ 3 ∧ v ≠ 4)

/-- Words written out from the formats: OP in [3:0] (R90, R91), a word with RSVD set (R92), and BUS tuples with pwrite at bit
49, paddr at [48:32] and pwdata at [31:0] (R99). -/
def Obligations.SampleWordsDecode : Prop :=
  decodeTableWord 32 0b00000000000000000000000000000000 = some .nop ∧
  decodeTableWord 32 0b00000000000000000000000000000001 = some .derive ∧
  decodeTableWord 32 0b00000000000000000000000000000010 = some .encrypt ∧
  decodeTableWord 32 0b00000000000000000000000000000011 = some .decrypt ∧
  decodeTableWord 32 0b00000000000000000000000000000100 = some .modinv ∧
  decodeTableWord 32 0b00000000000000000000000000010000 = some (.badcmd 0x10) ∧
  decodeTableWord 56 0b00000000000000010000000000000000000000000000000000 = some (.rd 0x4 0) ∧
  decodeTableWord 56 0b10000000010000000000000000000000000000000000101011 = some (.wr 0x100 43)

/-! ### A step runs the instruction it fetches -/

/-- A step runs the decoded instruction: on the host's move the transaction at the head of its program, or the poll of a `wait`,
an RD of STATUS, which stays at the head while BUSY = 1 and leaves it when BUSY = 0 (R101); on the controller's move the command
that phase names (in IDLE there is none). Whose move it is, the host's program and the poll are the model's (log entries 4, 12,
17). -/
def Obligations.StepRunsTheDecodedInstruction : Prop :=
  ∀ s : State, s.inReset = false →
    (∀ (i : Instr) (rest : List HostOp), s.turn = .host → s.program = .txn (encode i) :: rest → i.wellFormed = true →
      step s = afterExec (exec i { s with program := rest })) ∧
    (∀ rest : List HostOp, s.turn = .host → s.program = .wait :: rest →
      (s.status.busy = true → step s = afterExec (exec (.rd 0x004 0) s)) ∧
      (s.status.busy = false → step s = afterExec (exec (.rd 0x004 0) { s with program := rest }))) ∧
    (s.turn = .host → s.program = [] → step s = .next (advanceTurn s)) ∧
    (s.turn = .controller → s.phase = .derive → step s = afterExec (exec .derive s)) ∧
    (s.turn = .controller → s.phase = .encrypt → step s = afterExec (exec .encrypt s)) ∧
    (s.turn = .controller → s.phase = .decrypt → step s = afterExec (exec .decrypt s)) ∧
    (s.turn = .controller → s.phase = .modinv → step s = afterExec (exec .modinv s)) ∧
    (s.turn = .controller → s.phase = .idle → step s = .next (advanceTurn s))

/-- The model's loading device (log entry 12, DESIGN CHOICE): a word of the opcode table handed to the machine by withFetchWord
runs in the very next step, as the host's transaction. No rule of the spec says how a host's program is loaded. -/
def Obligations.TableWordRunsInTheNextStep : Prop :=
  ∀ (s : State) (nbits w : Nat) (i : Instr), decodeTableWord nbits w = some i →
    step (s.withFetchWord nbits w) = afterExec (exec i { s with turn := .host, inReset := false })

/-- A step stops exactly on two host moves: an access while rst_n = 0 is refused (93_implementation_defined.md I2; log entry 14),
and a packet that is no transaction is a fault (log entry 15). Every other step answers a next state. -/
def Obligations.StepStopsOnlyOnAForbiddenHostMove : Prop :=
  ∀ s : State,
    (s.turn = .host ∧ s.inReset = true ∧ s.program ≠ [] → step s = .refused .busAccessInReset) ∧
    (s.turn = .host ∧ s.inReset = false ∧ (∃ bytes rest, s.program = .txn bytes :: rest ∧ ∀ i, decode bytes ≠ .ok i) →
      step s = .fault .notATransaction) ∧
    (¬(s.turn = .host ∧ s.inReset = true ∧ s.program ≠ []) →
      ¬(s.turn = .host ∧ s.inReset = false ∧ ∃ bytes rest, s.program = .txn bytes :: rest ∧ ∀ i, decode bytes ≠ .ok i) →
      ∃ t, step s = .next t)

/-! ### Bus reads -/

/-- R61: which region each aligned address selects; every other address is unmapped. -/
def Obligations.AddressMapIsTheTable : Prop :=
  ∀ (c : Config) (a : Nat), c.Legal → a < 2 ^ 17 → a % 4 = 0 →
    (region c a = some .ctrl ↔ a = 0x000) ∧ (region c a = some .status ↔ a = 0x004) ∧
    (region c a = some .irqEn ↔ a = 0x008) ∧ (region c a = some .msgLen ↔ a = 0x00C) ∧
    (region c a = some .blkCount ↔ a = 0x010) ∧ (region c a = some .blockLen ↔ a = 0x014) ∧
    (region c a = some .e ↔ a = 0x018) ∧
    (∀ j, region c a = some (.wide .p j) ↔ a = 0x100 + 4 * j ∧ j < c.wpp) ∧
    (∀ j, region c a = some (.wide .q j) ↔ a = 0x200 + 4 * j ∧ j < c.wpp) ∧
    (∀ j, region c a = some (.wide .n j) ↔ a = 0x300 + 4 * j ∧ j < c.wpn) ∧
    (∀ j, region c a = some (.wide .d j) ↔ a = 0x400 + 4 * j ∧ j < c.wpn) ∧
    (∀ j, region c a = some (.wide .ma j) ↔ a = 0x500 + 4 * j ∧ j < c.wpn) ∧
    (∀ j, region c a = some (.wide .mm j) ↔ a = 0x600 + 4 * j ∧ j < c.wpn) ∧
    (∀ j, region c a = some (.wide .mr j) ↔ a = 0x700 + 4 * j ∧ j < c.wpn) ∧
    (∀ w, region c a = some (.msgBuf w) ↔ a = 0x1000 + 4 * w ∧ w < c.maxlen / 4) ∧
    (∀ u, region c a = some (.ctBuf u) ↔ a = 0x10000 + 4 * u ∧ u < c.maxblk * c.wpn)

/-- R63, R64: a misaligned or unmapped access answers (SLVERR, 0) and has no effect on any state. -/
def Obligations.MisalignedOrUnmappedAccessHasNoEffect : Prop :=
  ∀ (s : State) (a : Addr) (w : Word), a.toNat % 4 ≠ 0 ∨ region s.cfg a.toNat = none →
    exec (.rd a w) s = .next { s with trace := .busResp .slverr 0 :: s.trace } ∧
    exec (.wr a w) s = .next { s with trace := .busResp .slverr 0 :: s.trace }

/-- R66: an aligned, mapped read answers OKAY with the region's data and has no side effect, unless a command runs and the
region is held. CTRL reads 0 in every state (10_state.md R21), and MSG_LEN, BLK_COUNT and BLOCK_LEN read as their values. -/
def Obligations.ReadReturnsTheRegion : Prop :=
  ∀ (s : State) (w : Word),
    (∀ (a : Addr) (r : Region), a.toNat % 4 = 0 → region s.cfg a.toNat = some r →
      s.status.busy = false ∨ r = .ctrl ∨ r = .status ∨ r = .irqEn ∨ r = .e →
      exec (.rd a w) s = .next { s with trace := .busResp .okay (readRegion s r) :: s.trace }) ∧
    exec (.rd 0x000 w) s = .next { s with trace := .busResp .okay 0 :: s.trace } ∧
    (s.status.busy = false →
      exec (.rd 0x00C w) s = .next { s with trace := .busResp .okay s.msgLen :: s.trace } ∧
      exec (.rd 0x010 w) s = .next { s with trace := .busResp .okay s.blkCount :: s.trace } ∧
      exec (.rd 0x014 w) s = .next { s with trace := .busResp .okay s.blockLen :: s.trace })

/-- R98, R66: the STATUS word as a number, with the codes 0 to 8 of the table of 60_exceptions.md R221 in ERRCODE. -/
def Obligations.StatusWordFields : Prop :=
  (∀ s : State, (readRegion s .status).toNat =
    s.status.busy.toNat + 2 * s.status.done.toNat + 4 * s.status.err.toNat + 8 * s.status.keyValid.toNat +
      16 * s.status.trunc.toNat + 32 * s.status.wign.toNat + 256 * (errBits s.status.errcode).toNat) ∧
  errBits .none = 0 ∧ errBits .badcmd = 1 ∧ errBits .arg = 2 ∧ errBits .keyder = 3 ∧ errBits .noinv = 4 ∧
  errBits .nokey = 5 ∧ errBits .capacity = 6 ∧ errBits .declen = 7 ∧ errBits .crange = 8

/-- R68, R96: word j of a window holds bits [32j+31:32j], and the register is the sum of its words at 2^(32j). Each of the seven
windows is its own register's (10_state.md R35 to R41). -/
def Obligations.WideRegisterIsTheSumOfItsWords : Prop :=
  ∀ s : State,
    (readWide s .p = s.p ∧ readWide s .q = s.q ∧ readWide s .n = s.n ∧ readWide s .d = s.d ∧ readWide s .ma = s.ma ∧
      readWide s .mm = s.mm ∧ readWide s .mr = s.mr) ∧
    ∀ w : Wide, MachineInv s →
      (∀ j, (readRegion s (.wide w j)).toNat = readWide s w / 2 ^ (32 * j) % 2 ^ 32) ∧
      readWide s w = ((List.range (wideWords s.cfg w)).map fun j => (readRegion s (.wide w j)).toNat * 2 ^ (32 * j)).sum

/-- R69, R70: word w of MSG_BUF holds MSG(4w) to MSG(4w+3) in little-endian lanes, and word u of CT_BUF holds bits
[32(u mod WPN)+31:32(u mod WPN)] of CT(u div WPN). -/
def Obligations.BufferWordsAreLaidOut : Prop :=
  ∀ s : State, s.cfg.Legal →
    (∀ w, (readRegion s (.msgBuf w)).toNat =
      (msgByte s (4 * w)).toNat + 2 ^ 8 * (msgByte s (4 * w + 1)).toNat + 2 ^ 16 * (msgByte s (4 * w + 2)).toNat +
        2 ^ 24 * (msgByte s (4 * w + 3)).toNat) ∧
    (∀ u, (readRegion s (.ctBuf u)).toNat = ctEntry s (u / s.cfg.wpn) / 2 ^ (32 * (u % s.cfg.wpn)) % 2 ^ 32)

/-- R34: E reads as 65537 in every state, and a write to it is ignored. -/
def Obligations.EReadsAs65537InEveryState : Prop :=
  ∀ (s : State) (w : Word),
    exec (.rd 0x018 w) s = .next { s with trace := .busResp .okay 0x00010001 :: s.trace } ∧
    exec (.wr 0x018 w) s = .next { s with trace := .busResp .okay 0 :: s.trace }

/-- R204: while BUSY = 1 a read of any mapped address but CTRL, STATUS, IRQ_EN and E answers OKAY with a free word. The word is
the next of the model's free values, whatever it is (log entry 3). -/
def Obligations.BusyReadOfAHeldRegisterIsFree : Prop :=
  ∀ (s : State) (a : Addr) (w : Word) (r : Region), a.toNat % 4 = 0 → region s.cfg a.toNat = some r →
    s.status.busy = true → r ≠ .ctrl → r ≠ .status → r ≠ .irqEn → r ≠ .e →
    exec (.rd a w) s =
      .next { s with draws := s.draws + 1, trace := .busResp .okay (Config.freeWord s.draws) :: s.trace }

/-- R46 to R48: hidden scratch is never visible on the bus, in any state. -/
def Obligations.HiddenScratchIsInvisibleOnTheBus : Prop :=
  ∀ (s t t' : State) (i : Instr) (phi seg blk : Nat) (mic : MicRegs) (acc : List Bool) (tp : Bool) (answers : List Nat),
    (∃ a w, i = .rd a w ∨ i = .wr a w) → exec i s = .next t →
    exec i { s with phi := phi, seg := seg, blk := blk, mic := mic, acc := acc, tp := tp, answers := answers } = .next t' →
    t'.trace = t.trace ∧ t'.status = t.status

/-! ### Bus writes -/

/-- The W1C write of STATUS, at any time: bits 1, 2, 4 and 5 clear DONE, ERR with ERRCODE, TRUNC and WIGN, and nothing else
changes (10_state.md R23 to R29). -/
def Obligations.StatusWriteClearsItsFields : Prop :=
  ∀ (s : State) (v : Word), exec (.wr 0x004 v) s =
    .next { s with
      status :=
        { s.status with
          done := if v.getLsbD 1 then false else s.status.done
          err := if v.getLsbD 2 then false else s.status.err
          errcode := if v.getLsbD 2 then .none else s.status.errcode
          trunc := if v.getLsbD 4 then false else s.status.trunc
          wign := if v.getLsbD 5 then false else s.status.wign }
      trace := .busResp .okay 0 :: s.trace }

/-- R30: IRQ_EN keeps bit 0 of what is written, also while BUSY = 1, and reads back as that bit. -/
def Obligations.IrqEnableKeepsBitZero : Prop :=
  ∀ (s : State) (v w : Word),
    exec (.wr 0x008 v) s = .next { s with doneIe := v.getLsbD 0, trace := .busResp .okay 0 :: s.trace } ∧
    exec (.rd 0x008 w) s =
      .next { s with trace := .busResp .okay (if s.doneIe then 0x00000001 else 0x00000000) :: s.trace }

/-- R203: while BUSY = 1 a write to CTRL, MSG_LEN, BLK_COUNT, P, Q, MA, MM, MSG_BUF or CT_BUF changes nothing but WIGN; writes to
STATUS and IRQ_EN are honoured; and a write to a read-only register is ignored, busy or not, without WIGN. -/
def Obligations.WritesWhileBusyAreIgnoredOrHonoured : Prop :=
  ∀ (s : State) (a : Addr) (v : Word) (r : Region), a.toNat % 4 = 0 → region s.cfg a.toNat = some r →
    (s.status.busy = true →
      (r = .ctrl ∨ r = .msgLen ∨ r = .blkCount ∨
        (∃ j, r = .wide .p j ∨ r = .wide .q j ∨ r = .wide .ma j ∨ r = .wide .mm j) ∨ ∃ w, r = .msgBuf w ∨ r = .ctBuf w) →
      exec (.wr a v) s =
        .next { s with status := { s.status with wign := true }, trace := .busResp .okay 0 :: s.trace }) ∧
    (s.status.busy = true → r = .status →
      exec (.wr a v) s = .next { s with status := statusW1c v s.status, trace := .busResp .okay 0 :: s.trace }) ∧
    (s.status.busy = true → r = .irqEn →
      exec (.wr a v) s = .next { s with doneIe := v.getLsbD 0, trace := .busResp .okay 0 :: s.trace }) ∧
    ((r = .e ∨ r = .blockLen ∨ ∃ j, r = .wide .n j ∨ r = .wide .d j ∨ r = .wide .mr j) →
      exec (.wr a v) s = .next { s with trace := .busResp .okay 0 :: s.trace })

/-- R67: an idle write to an operand register stores the word, in a wide register as the word it names. -/
def Obligations.IdleRegisterWriteStoresTheWord : Prop :=
  ∀ (s : State) (a : Addr) (v : Word), s.status.busy = false →
    (a = 0x00C → exec (.wr a v) s = .next { s with msgLen := v, trace := .busResp .okay 0 :: s.trace }) ∧
    (a = 0x010 → exec (.wr a v) s = .next { s with blkCount := v, trace := .busResp .okay 0 :: s.trace }) ∧
    (∀ j, j < s.cfg.wpp → s.cfg.Legal → a.toNat = 0x100 + 4 * j →
      exec (.wr a v) s = .next { s with p := withWord s.p j v, trace := .busResp .okay 0 :: s.trace }) ∧
    (∀ j, j < s.cfg.wpp → s.cfg.Legal → a.toNat = 0x200 + 4 * j →
      exec (.wr a v) s = .next { s with q := withWord s.q j v, trace := .busResp .okay 0 :: s.trace }) ∧
    (∀ j, j < s.cfg.wpn → s.cfg.Legal → a.toNat = 0x500 + 4 * j →
      exec (.wr a v) s = .next { s with ma := withWord s.ma j v, trace := .busResp .okay 0 :: s.trace }) ∧
    (∀ j, j < s.cfg.wpn → s.cfg.Legal → a.toNat = 0x600 + 4 * j →
      exec (.wr a v) s = .next { s with mm := withWord s.mm j v, trace := .busResp .okay 0 :: s.trace })

/-- R67, R96, R267: replacing word j of a wide value changes that word and no other and stays within the window; writing every
word, one at a time, sets the register to the value, whatever it held before. -/
def Obligations.WordWriteReplacesOneWord : Prop :=
  ∀ (v v0 j k : Nat) (w : Word),
    (∀ i, wordOf (withWord v j w) i = if i = j then w else wordOf v i) ∧
    (j < k → v < 2 ^ (32 * k) → withWord v j w < 2 ^ (32 * k)) ∧
    (v < 2 ^ (32 * k) → v0 < 2 ^ (32 * k) → (List.range k).foldl (fun x i => withWord x i (wordOf v i)) v0 = v)

/-- R67, R69, R70: an idle write to MSG_BUF or CT_BUF stores the word's four bytes at its address, least significant first, and
changes no other byte and nothing else. Inside a word of CT_BUF the order of the bytes is the model's own representation (log
entry 21): R70 orders words only. -/
def Obligations.IdleBufferWriteStoresFourBytes : Prop :=
  ∀ (s : State) (a : Addr) (v : Word) (r : Region), s.status.busy = false → a.toNat % 4 = 0 →
    region s.cfg a.toNat = some r → (∃ w, r = .msgBuf w ∨ r = .ctBuf w) →
    ∃ t, exec (.wr a v) s = .next t ∧
      (∀ x, byteAt t x =
        if a.toNat ≤ x ∧ x < a.toNat + 4 then v.extractLsb' (8 * (x - a.toNat)) 8 else byteAt s x) ∧
      t = { s with mem := t.mem, trace := .busResp .okay 0 :: s.trace }

/-- R67 with R66: what an idle write stores in an operand register or a buffer, a read returns. -/
def Obligations.IdleWriteIsReadBack : Prop :=
  ∀ (s : State) (a : Addr) (v w : Word) (r : Region), s.status.busy = false → a.toNat % 4 = 0 →
    region s.cfg a.toNat = some r → r ≠ .ctrl → r ≠ .status → r ≠ .irqEn → readOnly r = false →
    ∃ t, exec (.wr a v) s = .next t ∧ exec (.rd a w) t = .next { t with trace := .busResp .okay v :: t.trace }

/-! ### Starting a command -/

/-- R200: a write to CTRL decodes its word and runs that command, also with the wrong OP or a reserved bit. -/
def Obligations.WriteToCtrlRunsTheDecodedCommand : Prop :=
  ∀ (s : State) (v : Word), s.turn ≠ .controller → exec (.wr 0x000 v) s = exec (decodeCtrl v) s

/-- R200, R223, R203, R206: DERIVE, ENCRYPT, DECRYPT and MODINV written while BUSY = 0 clear DONE, ERR, ERRCODE and TRUNC, set
BUSY and set phase, with blk and mx_pending at 0 (`checked` is the model's own, log entry 7); written while BUSY = 1 they are
ignored and set WIGN, and are not queued. -/
def Obligations.CommandStartSetsBusyAndPhase : Prop :=
  ∀ (s : State) (i : Instr) (ph : Phase), s.turn ≠ .controller →
    (i, ph) ∈ [(Instr.derive, Phase.derive), (.encrypt, .encrypt), (.decrypt, .decrypt), (.modinv, .modinv)] →
    (s.status.busy = false →
      exec i s =
        .next { s with
          status := { s.status with busy := true, done := false, err := false, errcode := .none, trunc := false }
          phase := ph
          blk := 0
          mxPending := false
          checked := false
          trace := .busResp .okay 0 :: s.trace }) ∧
    (s.status.busy = true →
      exec i s =
        .next { s with status := { s.status with wign := true }, trace := .busResp .okay 0 :: s.trace })

/-- R201: NOP does nothing; while BUSY = 1 the write is ignored and sets WIGN. -/
def Obligations.NopChangesNothing : Prop :=
  ∀ s : State,
    (s.status.busy = false → exec .nop s = .next { s with trace := .busResp .okay 0 :: s.trace }) ∧
    (s.status.busy = true →
      exec .nop s = .next { s with status := { s.status with wign := true }, trace := .busResp .okay 0 :: s.trace })

/-- R202: BADCMD completes at once with ERRCODE 1, DONE and ERR set, TRUNC cleared, BUSY never set and KEY_VALID kept; while
BUSY = 1 it is ignored and sets WIGN. -/
def Obligations.BadcmdCompletesAtOnce : Prop :=
  ∀ (s : State) (v : Word), (Instr.badcmd v).wellFormed = true →
    errBits .badcmd = 1 ∧
    (s.status.busy = false →
      exec (.badcmd v) s =
        .next { s with
          status := { s.status with done := true, err := true, errcode := .badcmd, trunc := false }
          phase := .idle
          trace := .busResp .okay 0 :: s.trace }) ∧
    (s.status.busy = true →
      exec (.badcmd v) s =
        .next { s with status := { s.status with wign := true }, trace := .busResp .okay 0 :: s.trace })

/-! ### MIC and MODINV -/

/-- R140, R141: the reference iteration ends within 2*bitlen(m) + 2 passes with r0 = gcd(a mod m, m), and when that is 1 with the
one inverse of a modulo m. -/
def Obligations.MicIterationComputesTheInverse : Prop :=
  ∀ a m : Nat, 2 ≤ m → ∃ k, k ≤ 2 * bitlen m + 2 ∧
    (∀ j, j < k → ((micPass m)^[j] (micLoad a m)).r1 ≠ 0) ∧ ((micPass m)^[k] (micLoad a m)).r1 = 0 ∧
    ((micPass m)^[k] (micLoad a m)).r0 = Nat.gcd (a % m) m ∧
    (Nat.gcd (a % m) m = 1 →
      1 ≤ ((micPass m)^[k] (micLoad a m)).t0 ∧
      ∀ x, x < m ∧ a * x % m = 1 ↔ x = ((micPass m)^[k] (micLoad a m)).t0)

/-- R143, R225, R226: MODINV's errors, ARG for m < 2 and NOINV when MIC ends with a divisor other than 1, change only STATUS and
phase. -/
def Obligations.ModinvErrorsChangeOnlyStatus : Prop :=
  ∀ s : State, running .modinv s = true →
    (s.checked = false → s.mm < 2 →
      exec .modinv s =
        .next { s with
          status := { s.status with err := true, errcode := .arg, done := true, busy := false }, phase := .idle }) ∧
    (s.checked = true → s.mic.r1 = 0 → s.mic.r0 ≠ 1 →
      exec .modinv s =
        .next { s with
          status := { s.status with err := true, errcode := .noinv, done := true, busy := false }, phase := .idle })

/-- R143, R224: MODINV completes by writing MR with the inverse of MA modulo MM, between 1 and MM - 1, and nothing else but the
completion's STATUS bits and phase. -/
def Obligations.ModinvWritesTheInverse : Prop :=
  ∀ s : State, MachineInv s → running .modinv s = true → s.checked = true → s.mic.r1 = 0 → s.mic.r0 = 1 →
    ∃ x, 1 ≤ x ∧ x < s.mm ∧ s.ma * x % s.mm = 1 ∧
      exec .modinv s =
        .next { s with mr := x, status := { s.status with busy := false, done := true }, phase := .idle }

/-- R143 whole: from its start, with the fair schedule (log entry 4), MODINV ends with ARG, with NOINV or with the inverse. -/
def Obligations.ModinvRunsToItsResult : Prop :=
  ∀ s : State, MachineInv s → s.inReset = false → s.turn = .controller → s.sched = [] → s.phase = .modinv → s.checked = false →
    ∃ k t, core.run k s = .next t ∧ t.status.busy = false ∧ t.status.done = true ∧ t.phase = .idle ∧
      (s.mm < 2 → t.status.errcode = .arg ∧ t.mr = s.mr) ∧
      (2 ≤ s.mm → Nat.gcd (s.ma % s.mm) s.mm ≠ 1 → t.status.errcode = .noinv ∧ t.mr = s.mr) ∧
      (2 ≤ s.mm → Nat.gcd (s.ma % s.mm) s.mm = 1 →
        t.status.errcode = s.status.errcode ∧ t.mr < s.mm ∧ s.ma * t.mr % s.mm = 1) ∧
      (t.p, t.q, t.n, t.d, t.ma, t.mm) = (s.p, s.q, s.n, s.d, s.ma, s.mm) ∧
      (t.msgLen, t.blkCount, t.blockLen, t.doneIe, t.mem) = (s.msgLen, s.blkCount, s.blockLen, s.doneIe, s.mem) ∧
      t.status.keyValid = s.status.keyValid ∧ t.trace = s.trace

/-! ### DERIVE -/

/-- R127, R129, R124: a DERIVE that ends with ARG or KEYDER clears N, D, BLOCK_LEN and KEY_VALID in the same step, and changes
nothing else but STATUS, phase and hidden PHI. -/
def Obligations.DeriveErrorClearsTheKey : Prop :=
  ∀ s : State, running .derive s = true →
    (s.checked = false → s.p < 2 ∨ s.q < 2 →
      exec .derive s =
        .next { s with
          n := 0, d := 0, blockLen := 0, phase := .idle
          status := { s.status with keyValid := false, err := true, errcode := .arg, done := true, busy := false } }) ∧
    (s.checked = false → 2 ≤ s.p → 2 ≤ s.q → (s.p - 1) * (s.q - 1) < 2 →
      exec .derive s =
        .next { s with
          n := 0, d := 0, blockLen := 0, phase := .idle, phi := (s.p - 1) * (s.q - 1)
          status := { s.status with keyValid := false, err := true, errcode := .keyder, done := true, busy := false } }) ∧
    (s.checked = true → s.mic.r1 = 0 → s.mic.r0 ≠ 1 →
      exec .derive s =
        .next { s with
          n := 0, d := 0, blockLen := 0, phase := .idle
          status := { s.status with keyValid := false, err := true, errcode := .keyder, done := true, busy := false } })

/-- R120 to R126: DERIVE completes by writing N = P*Q, D the inverse of 65537 modulo phi, BLOCK_LEN = bitlen(N) - 1 and
KEY_VALID = 1 together, and nothing else but the completion's STATUS bits and phase. -/
def Obligations.DeriveCommitsTheKey : Prop :=
  ∀ s : State, MachineInv s → running .derive s = true → s.checked = true → s.mic.r1 = 0 → s.mic.r0 = 1 →
    ∃ x, 1 ≤ x ∧ x < (s.p - 1) * (s.q - 1) ∧ 65537 * x % ((s.p - 1) * (s.q - 1)) = 1 ∧
      exec .derive s =
        .next { s with
          n := s.p * s.q
          d := x
          blockLen := BitVec.ofNat 32 (bitlen (s.p * s.q) - 1)
          phase := .idle
          status := { s.status with keyValid := true, busy := false, done := true } }

/-- R120 whole: from its start, with the fair schedule (log entry 4), DERIVE ends with ARG, with KEYDER or with the key; it issues
no request and changes no operand. -/
def Obligations.DeriveRunsToItsResult : Prop :=
  ∀ s : State, MachineInv s → s.inReset = false → s.turn = .controller → s.sched = [] → s.phase = .derive → s.checked = false →
    ∃ k t, core.run k s = .next t ∧ t.status.busy = false ∧ t.status.done = true ∧ t.phase = .idle ∧
      (s.p < 2 ∨ s.q < 2 → t.status.errcode = .arg) ∧
      (2 ≤ s.p → 2 ≤ s.q → (s.p - 1) * (s.q - 1) < 2 ∨ Nat.gcd 65537 ((s.p - 1) * (s.q - 1)) ≠ 1 →
        t.status.errcode = .keyder) ∧
      (s.p < 2 ∨ s.q < 2 ∨ (s.p - 1) * (s.q - 1) < 2 ∨ Nat.gcd 65537 ((s.p - 1) * (s.q - 1)) ≠ 1 →
        (t.n, t.d, t.blockLen, t.status.keyValid) = (0, 0, 0, false)) ∧
      (2 ≤ s.p → 2 ≤ s.q → 2 ≤ (s.p - 1) * (s.q - 1) → Nat.gcd 65537 ((s.p - 1) * (s.q - 1)) = 1 →
        t.status.keyValid = true ∧ t.status.errcode = s.status.errcode ∧ t.n = s.p * s.q ∧ 1 ≤ t.d ∧
        t.d < (s.p - 1) * (s.q - 1) ∧ 65537 * t.d % ((s.p - 1) * (s.q - 1)) = 1 ∧
        t.blockLen.toNat = bitlen (s.p * s.q) - 1) ∧
      (t.p, t.q, t.ma, t.mm, t.mr) = (s.p, s.q, s.ma, s.mm, s.mr) ∧
      (t.msgLen, t.blkCount, t.doneIe, t.mem, t.trace) = (s.msgLen, s.blkCount, s.doneIe, s.mem, s.trace)

/-! ### ENCRYPT -/

/-- R161: ENCRYPT's checks in their order, each ending in its error with nothing else changed; when all pass the command goes on,
which the model notes in its own fields `checked` and `answers` (log entries 7, 8). -/
def Obligations.EncryptChecksInOrder : Prop :=
  ∀ s : State, running .encrypt s = true → s.checked = false →
    (s.status.keyValid = false →
      exec .encrypt s =
        .next { s with
          status := { s.status with err := true, errcode := .nokey, done := true, busy := false }, phase := .idle }) ∧
    (s.status.keyValid = true →
      s.cfg.maxlen < s.msgLen.toNat ∨ s.cfg.maxblk < ceilDiv (8 * s.msgLen.toNat) s.blockLen.toNat →
      exec .encrypt s =
        .next { s with
          status := { s.status with err := true, errcode := .capacity, done := true, busy := false }, phase := .idle }) ∧
    (s.status.keyValid = true → s.msgLen.toNat ≤ s.cfg.maxlen →
      ceilDiv (8 * s.msgLen.toNat) s.blockLen.toNat ≤ s.cfg.maxblk →
      exec .encrypt s = .next { s with checked := true, answers := [] })

/-- R163, R183: for block blk ENCRYPT issues the one request (v, 65537, N), with v the value of chunk
S[blk*bl .. min((blk+1)*bl, 8L)) of the message bits, and DECRYPT the one request (CT(blk), D, N). That the engine has it from
this step on is the model's (log entry 22). -/
def Obligations.RunningCommandIssuesItsBlockRequest : Prop :=
  ∀ s : State, s.checked = true → s.mxPending = false →
    (running .encrypt s = true → s.blk < ceilDiv (8 * s.msgLen.toNat) s.blockLen.toNat →
      ∃ v, v = bitsVal (bitSlice (msgBits s s.msgLen.toNat) (s.blk * s.blockLen.toNat)
          (min ((s.blk + 1) * s.blockLen.toNat) (8 * s.msgLen.toNat))) ∧
        exec .encrypt s =
          .next { s with
            seg := v
            mxPending := true
            mxReq := some { base := v, exp := 65537, mod := s.n }
            mxRsp := none
            trace := .mxIssue { base := v, exp := 65537, mod := s.n } :: s.trace }) ∧
    (running .decrypt s = true → s.blk < s.blkCount.toNat →
      exec .decrypt s =
        .next { s with
          seg := ctEntry s s.blk
          mxPending := true
          mxReq := some { base := ctEntry s s.blk, exp := s.d, mod := s.n }
          mxRsp := none
          trace := .mxIssue { base := ctEntry s s.blk, exp := s.d, mod := s.n } :: s.trace })

/-- R205, R207: while a request is unanswered ENCRYPT and DECRYPT hold, changing nothing; ENCRYPT absorbs an answer as the next
ciphertext value, the pseudocode's c[blk] (R160), which the model keeps in its own list `answers` (log entry 8). -/
def Obligations.RunningCommandHoldsOrAbsorbs : Prop :=
  ∀ (s : State) (c : Nat), s.checked = true → s.mxPending = true →
    (running .encrypt s = true → s.mxRsp = none → exec .encrypt s = .next s) ∧
    (running .decrypt s = true → s.mxRsp = none → exec .decrypt s = .next s) ∧
    (running .encrypt s = true → s.mxRsp = some c →
      exec .encrypt s =
        .next { s with answers := s.answers ++ [c], mxPending := false, mxRsp := none, blk := s.blk + 1 })

/-- R160, R164: ENCRYPT completes by writing CT(i) = v_i^65537 mod N for every i < k and BLK_COUNT = k together; every byte
outside CT(0..k) and everything else but the completion's STATUS bits and phase stays. -/
def Obligations.EncryptCommitsTheCiphertext : Prop :=
  ∀ s : State, MachineInv s → running .encrypt s = true → s.checked = true → s.mxPending = false → s.blk = blockCount s →
    ∃ t, exec .encrypt s = .next t ∧
      (∀ i, i < blockCount s → ctEntry t i = blockValue s i ^ 65537 % s.n) ∧
      (∀ x, x < ctAddr s.cfg 0 ∨ ctAddr s.cfg (blockCount s) ≤ x → byteAt t x = byteAt s x) ∧
      t.blkCount.toNat = ceilDiv (8 * s.msgLen.toNat) s.blockLen.toNat ∧
      t = { s with
        mem := t.mem
        blkCount := t.blkCount
        status := { s.status with busy := false, done := true }
        phase := .idle }

/-- R162: the chunks cover the message in order: each value rendered at its chunk's width gives back the message bits. The order
is most significant bit first (00_scope.md R12, R13, 20_memory.md R71): element j of the message bits is bit 7 - (j mod 8) of
MSG(j div 8), val gives the first element the highest weight, and element t of render(v, w) is bit w - 1 - t of v. -/
def Obligations.SegmentsCoverTheMessage : Prop :=
  (∀ s : State, 1 ≤ s.blockLen.toNat →
    ((List.range (blockCount s)).flatMap fun i =>
      render (blockValue s i) (min s.blockLen.toNat (8 * msgCount s - i * s.blockLen.toNat))) = msgBits s (msgCount s)) ∧
  (∀ (s : State) (len j : Nat), j < 8 * len → (msgBits s len)[j]? = some ((msgByte s (j / 8)).getLsbD (7 - j % 8))) ∧
  (∀ (b : Bool) (l : List Bool), bitsVal (b :: l) = b.toNat * 2 ^ l.length + bitsVal l) ∧
  ∀ v w t : Nat, t < w → (render v w)[t]? = some (v.testBit (w - 1 - t))

/-- R166: with a valid key every block value is below N, and so is every ciphertext value. -/
def Obligations.BlockValueIsBelowTheModulus : Prop :=
  ∀ (s : State) (i : Nat), MachineInv s → s.status.keyValid = true →
    blockValue s i < s.n ∧ blockValue s i ^ 65537 % s.n < s.n

/-- R160, R163, R210: from its start, with the fair schedule (log entry 4) and an engine that answers, ENCRYPT with a valid key
and capacities met issues exactly the k requests in order and ends with the ciphertext in CT(0..k). -/
def Obligations.EncryptRunsToItsResult : Prop :=
  ∀ s : State, MachineInv s → s.inReset = false → s.turn = .controller → s.sched = [] → s.mxLive = true →
    s.phase = .encrypt → s.checked = false → encryptCheck s = none →
    ∃ k t, core.run k s = .next t ∧ t.status = { s.status with busy := false, done := true } ∧ t.phase = .idle ∧
      t.blkCount.toNat = blockCount s ∧ (∀ i, i < blockCount s → ctEntry t i = blockValue s i ^ 65537 % s.n) ∧
      (∀ x, x < ctAddr s.cfg 0 ∨ ctAddr s.cfg (blockCount s) ≤ x → byteAt t x = byteAt s x) ∧
      t.trace = ((List.range (blockCount s)).map fun i =>
          Event.mxIssue { base := blockValue s i, exp := 65537, mod := s.n }).reverse ++ s.trace ∧
      (t.p, t.q, t.n, t.d, t.blockLen, t.msgLen, t.ma, t.mm, t.mr, t.doneIe) =
        (s.p, s.q, s.n, s.d, s.blockLen, s.msgLen, s.ma, s.mm, s.mr, s.doneIe)

/-- R168: ENCRYPT is deterministic: machines with the same key, MSG_LEN and message bytes, whatever else they hold, end with
the same BLK_COUNT and CT(0..k). -/
def Obligations.EncryptDependsOnlyOnKeyAndMessage : Prop :=
  ∀ s s' : State, MachineInv s → MachineInv s' → s.turn = .controller → s'.turn = .controller →
    s.phase = .encrypt → s'.phase = .encrypt → s.checked = true → s'.checked = true →
    s.mxPending = false → s'.mxPending = false → s.blk = blockCount s → s'.blk = blockCount s' →
    s.n = s'.n → s.blockLen = s'.blockLen → s.msgLen = s'.msgLen →
    (∀ j, j < s.msgLen.toNat → msgByte s j = msgByte s' j) →
    ∃ t t', exec .encrypt s = .next t ∧ exec .encrypt s' = .next t' ∧ t.blkCount = t'.blkCount ∧
      ∀ i, i < t.blkCount.toNat → ctEntry t i = ctEntry t' i

/-! ### DECRYPT -/

/-- R181, R182: DECRYPT's checks in their order, each ending in its error with nothing else changed; when all pass the command
goes on with ACC empty and TP = 0, which the model notes in its own field `checked` (log entry 7). -/
def Obligations.DecryptChecksInOrder : Prop :=
  ∀ (s : State) (code : Option ErrCode), running .decrypt s = true → s.checked = false →
    (code = if s.status.keyValid = false then some .nokey
      else if s.cfg.maxlen < s.msgLen.toNat then some .capacity
      else if s.cfg.maxblk < s.blkCount.toNat then some .capacity
      else if s.blkCount.toNat ≠ ceilDiv (8 * s.msgLen.toNat) s.blockLen.toNat then some .declen
      else if ∃ i, i < s.blkCount.toNat ∧ s.n ≤ ctEntry s i then some .crange
      else none) →
    (∀ c, code = some c →
      exec .decrypt s =
        .next { s with
          status := { s.status with err := true, errcode := c, done := true, busy := false }, phase := .idle }) ∧
    (code = none → exec .decrypt s = .next { s with checked := true, acc := [], tp := false })

/-- R184, R185, R186: DECRYPT renders a plain value in BLOCK_LEN bits, the last one in the bits still needed, keeps its low bits
and remembers in TP that one did not fit. -/
def Obligations.DecryptAppendsTheRendering : Prop :=
  ∀ (s : State) (pv w : Nat), running .decrypt s = true → s.checked = true → s.mxPending = true → s.mxRsp = some pv →
    w = (if s.blk < s.blkCount.toNat - 1 then s.blockLen.toNat else 8 * s.msgLen.toNat - s.acc.length) →
    exec .decrypt s =
      .next { s with
        acc := s.acc ++ render (pv % 2 ^ w) w
        tp := if 2 ^ w ≤ pv then true else s.tp
        mxPending := false
        mxRsp := none
        blk := s.blk + 1 }

/-- R187: DECRYPT completes by writing MSG(j) = val(ACC[8j..8j+8)) for every j < L, and TRUNC; every other byte and everything
else but the completion's STATUS bits and phase stays. -/
def Obligations.DecryptCommitsTheMessage : Prop :=
  ∀ s : State, MachineInv s → running .decrypt s = true → s.checked = true → s.mxPending = false → s.blk = cipherCount s →
    ∃ t, exec .decrypt s = .next t ∧
      (∀ j, j < s.msgLen.toNat → (msgByte t j).toNat = bitsVal (bitSlice s.acc (8 * j) (8 * j + 8))) ∧
      (∀ x, x < msgAddr 0 ∨ msgAddr s.msgLen.toNat ≤ x → byteAt t x = byteAt s x) ∧
      s.acc.length = 8 * s.msgLen.toNat ∧
      t = { s with
        mem := t.mem
        status := { s.status with trunc := s.tp, busy := false, done := true }
        phase := .idle }

/-- R180, R183, R210: from its start, with the fair schedule (log entry 4) and an engine that answers, DECRYPT whose checks pass
issues exactly the k requests in order and ends with the reassembled message in MSG(0..L). -/
def Obligations.DecryptRunsToItsResult : Prop :=
  ∀ s : State, MachineInv s → s.inReset = false → s.turn = .controller → s.sched = [] → s.mxLive = true →
    s.phase = .decrypt → s.checked = false → decryptCheck s = none →
    ∃ k t, core.run k s = .next t ∧ t.phase = .idle ∧
      t.status = { s.status with busy := false, done := true, trunc := (reassembled s (cipherCount s)).2 } ∧
      (∀ j, j < msgCount s →
        (msgByte t j).toNat = bitsVal (bitSlice (reassembled s (cipherCount s)).1 (8 * j) (8 * j + 8))) ∧
      (∀ x, x < msgAddr 0 ∨ msgAddr (msgCount s) ≤ x → byteAt t x = byteAt s x) ∧
      t.trace = ((List.range (cipherCount s)).map fun i =>
          Event.mxIssue { base := ctEntry s i, exp := s.d, mod := s.n }).reverse ++ s.trace ∧
      (t.p, t.q, t.n, t.d, t.blockLen, t.msgLen, t.blkCount, t.ma, t.mm, t.mr, t.doneIe) =
        (s.p, s.q, s.n, s.d, s.blockLen, s.msgLen, s.blkCount, s.ma, s.mm, s.mr, s.doneIe)

/-- R188: with a key from distinct primes, ENCRYPT is run to its end, MSG is overwritten with any bytes, and DECRYPT, written next
by the host, starts and is run to its own end: then MSG(0..L) is the original bytes again, with no error and TRUNC = 0. The
schedule is the fair one (log entry 4), and withFetchWord stands for the host's write of DECRYPT (log entry 12). -/
def Obligations.EncryptThenDecryptRestoresTheMessage : Prop :=
  ∀ (s : State) (p q : Nat), MachineInv s → s.inReset = false → s.turn = .controller → s.sched = [] → s.mxLive = true →
    s.phase = .encrypt → s.checked = false → encryptCheck s = none →
    p.Prime → q.Prime → p ≠ q → s.n = p * q → 65537 * s.d % ((p - 1) * (q - 1)) = 1 →
    ∃ k t, core.run k s = .next t ∧ t.status.done = true ∧ t.status.busy = false ∧ t.phase = .idle ∧
      ∀ other : List Byte, other.length ≤ s.cfg.maxlen →
        ∃ u k' t', step ({ t with mem := memSetBytes t.mem (msgAddr 0) other }.withFetchWord 32 3) = .next u ∧
          u.phase = .decrypt ∧ u.status.busy = true ∧ u.status.done = false ∧
          core.run k' u = .next t' ∧ t'.phase = .idle ∧ t'.status.done = true ∧ t'.status.busy = false ∧
          t'.status.err = false ∧ t'.status.trunc = false ∧ ∀ j, j < s.msgLen.toNat → msgByte t' j = msgByte s j

/-! ### The engine, the hold, reset -/

/-- R209: the engine answers the outstanding request with b^x mod m; an answer that nothing waits for, left over from before a
reset, is ignored (R262). -/
def Obligations.EngineAnswersWithThePower : Prop :=
  ∀ (s : State) (r : MxReq), s.turn = .engine → s.mxReq = some r → s.mxLive = true →
    (s.mxPending = true →
      step s = .next (advanceTurn { s with mxReq := none, mxRsp := some (r.base ^ r.exp % r.mod) })) ∧
    (s.mxPending = false → step s = .next (advanceTurn { s with mxReq := none }))

/-- R207: only the engine's answer lifts the hold; no host access, no controller step and no move of an engine that never answers
does (`mxLive` is the model's, log entry 11; a reset abandons the command). -/
def Obligations.HoldLastsUntilTheAnswer : Prop :=
  ∀ s t : State, MachineInv s → holds s = true → s.turn ≠ .engine ∨ s.mxLive = false → s.turn ≠ .resetLow → step s = .next t →
    holds t = true ∧ t.status.busy = true ∧ t.phase = s.phase ∧ t.blk = s.blk ∧ t.mxReq = s.mxReq

/-- R261, R262: asserting rst_n sets every register to its value of R51 and abandons the running command: no output, no DONE, no
request, and an engine's answer is forgotten. The buffers then hold free values (log entry 2). Until rst_n is released the
controller takes no step, and the release changes nothing else (R260, log entry 23). -/
def Obligations.ResetAbandonsTheCommand : Prop :=
  ∀ s : State,
    (s.turn = .resetLow → ∃ t, step s = .next t ∧ t.inReset = true ∧
      t.status =
        { busy := false, done := false, err := false, keyValid := false, trunc := false, wign := false, errcode := .none } ∧
      t.doneIe = false ∧ t.irq = false ∧ t.msgLen = 0 ∧ t.blkCount = 0 ∧ t.blockLen = 0 ∧
      (t.p, t.q, t.n, t.d, t.ma, t.mm, t.mr) = (0, 0, 0, 0, 0, 0, 0) ∧
      t.phase = .idle ∧ t.blk = 0 ∧ t.mxPending = false ∧ t.mxRsp = none ∧ t.trace = s.trace ∧ t.cfg = s.cfg ∧
      (∀ x, byteAt t x = Config.freeByte (s.epoch + 1) x)) ∧
    (s.turn = .controller → s.inReset = true → step s = .next (advanceTurn s)) ∧
    (s.turn = .resetHigh → step s = .next (advanceTurn { s with inReset := false }))

/-! ### Whole-machine rules -/

/-- R126, R224, R74: an output of a command changes only in the step that clears BUSY, sets DONE and returns phase to IDLE, and
the key registers only in DERIVE's. -/
def Obligations.OutputsAppearOnlyAtCompletion : Prop :=
  ∀ (i : Instr) (s t : State), exec i s = .next t → (∀ a w, i ≠ .wr a w) →
    ((t.n, t.d, t.blockLen, t.status.keyValid) ≠ (s.n, s.d, s.blockLen, s.status.keyValid) →
      i = .derive ∧ running .derive s = true ∧ t.status.busy = false ∧ t.status.done = true ∧ t.phase = .idle) ∧
    (t.mr ≠ s.mr →
      i = .modinv ∧ running .modinv s = true ∧ t.status.busy = false ∧ t.status.done = true ∧ t.phase = .idle) ∧
    (t.blkCount ≠ s.blkCount →
      i = .encrypt ∧ running .encrypt s = true ∧ t.status.busy = false ∧ t.status.done = true ∧ t.phase = .idle) ∧
    (t.mem ≠ s.mem →
      (i = .encrypt ∧ running .encrypt s = true ∨ i = .decrypt ∧ running .decrypt s = true) ∧
      t.status.busy = false ∧ t.status.done = true ∧ t.phase = .idle) ∧
    (t.p, t.q, t.ma, t.mm, t.msgLen, t.doneIe) = (s.p, s.q, s.ma, s.mm, s.msgLen, s.doneIe)

/-- R203, R76: no host transaction changes an operand, a result, a buffer byte or the running command while BUSY = 1. -/
def Obligations.OperandsAreImmutableWhileBusy : Prop :=
  ∀ (s t : State) (i : Instr), s.status.busy = true → (∃ a w, i = .rd a w ∨ i = .wr a w) → exec i s = .next t →
    (t.p, t.q, t.n, t.d, t.ma, t.mm, t.mr) = (s.p, s.q, s.n, s.d, s.ma, s.mm, s.mr) ∧
    (t.msgLen, t.blkCount, t.blockLen, t.mem) = (s.msgLen, s.blkCount, s.blockLen, s.mem) ∧
    (t.phase, t.blk, t.mxPending, t.checked, t.mxReq, t.mxRsp) =
      (s.phase, s.blk, s.mxPending, s.checked, s.mxReq, s.mxRsp) ∧
    (t.phi, t.mic, t.acc, t.tp, t.seg, t.answers) = (s.phi, s.mic, s.acc, s.tp, s.seg, s.answers) ∧
    t.status.busy = true ∧ t.status.keyValid = s.status.keyValid

/-- Which bytes of the buffers an instruction can change: a write its own four, ENCRYPT those of CT(0..k), DECRYPT those of
MSG(0..L), and nothing else any (20_memory.md R67, 42_encrypt.md R164, 43_decrypt.md R187). -/
def Obligations.BufferBytesChangeOnlyInTheFootprint : Prop :=
  ∀ (i : Instr) (s t : State) (x : Nat), MachineInv s → exec i s = .next t → byteAt t x ≠ byteAt s x →
    (∃ a v, i = .wr a v ∧ s.status.busy = false ∧ a.toNat ≤ x ∧ x < a.toNat + 4) ∨
    (i = .encrypt ∧ ctAddr s.cfg 0 ≤ x ∧ x < ctAddr s.cfg (blockCount s)) ∨
    (i = .decrypt ∧ msgAddr 0 ≤ x ∧ x < msgAddr (msgCount s))

/-- R230, R231: irq is DONE and DONE_IE in every state, and it rises only when DONE does, at a completion (a command's or
BADCMD's), or when IRQ_EN is written. -/
def Obligations.IrqRisesOnlyOnCompletionOrEnable : Prop :=
  (∀ s : State, s.irq = true ↔ s.status.done = true ∧ s.doneIe = true) ∧
  ∀ s t : State, MachineInv s → step s = .next t → s.irq = false → t.irq = true →
    (s.status.done = false ∧ s.turn = .controller ∧ s.status.busy = true ∧ t.status.busy = false ∧ t.phase = .idle) ∨
    (s.status.done = false ∧ s.turn = .host ∧ t.status.errcode = .badcmd ∧ t.status.busy = false) ∨
    (s.status.done = true ∧ s.turn = .host ∧ s.doneIe = false ∧ t.doneIe = true)

/-! ### Invariants -/

/-- Every step keeps the machine's invariant, from every state that meets it. -/
def Obligations.StepKeepsInv : Prop :=
  ∀ s t : State, MachineInv s → step s = .next t → MachineInv t

/-- The state after reset meets the invariant, in every legal configuration. -/
def Obligations.ResetMeetsInv : Prop :=
  MachineInv State.reset ∧ ∀ c : Config, c.Legal → MachineInv (State.resetWith c)

/-- The model's own representation: every step keeps the canonical form of the buffer memory (log entry 21), and no step changes
the implementation parameters (log entry 1). -/
def Obligations.StepKeepsMemoryForm : Prop :=
  ∀ s t : State, Memory.wf s.mem → step s = .next t → Memory.wf t.mem ∧ t.cfg = s.cfg

/-- R28, R45: every step keeps ERR = 0 <-> ERRCODE = 0 and phase = IDLE <-> BUSY = 0. -/
def Obligations.StepKeepsStatusConsistent : Prop :=
  ∀ s t : State, StatusInv s → step s = .next t → StatusInv t

/-- R50: whenever KEY_VALID = 1 the key registers satisfy the KeyMaterial invariants. -/
def Obligations.ValidKeySatisfiesKeyMaterial : Prop :=
  ∀ s : State, MachineInv s → s.status.keyValid = true →
    4 ≤ s.n ∧ s.blockLen.toNat = bitlen s.n - 1 ∧ 2 ≤ s.blockLen.toNat ∧ s.blockLen.toNat ≤ s.cfg.nw - 1 ∧
    ∃ p q, 2 ≤ p ∧ 2 ≤ q ∧ s.n = p * q ∧ 1 ≤ s.d ∧ s.d < (p - 1) * (q - 1) ∧ 65537 * s.d % ((p - 1) * (q - 1)) = 1
end

