-- ==== Sys2Proof/Laws/Arith.lean ====
section
/-! SUPPORT. The integer helpers: what the square-and-multiply of the engine computes, bitlen, and the words of wide values. -/

namespace Sys2Proof.Machine

/-- The least k with x < 2^k (spec/00_scope.md R11). -/
theorem lt_two_pow_bitlen (x : Nat) : x < 2 ^ bitlen x := by
  unfold bitlen
  split_ifs with h
  · subst h; decide
  · exact Nat.lt_log2_self

theorem bitlen_le {x k : Nat} (h : x < 2 ^ k) : bitlen x ≤ k := by
  unfold bitlen
  split_ifs with h0
  · exact Nat.zero_le k
  · exact (Nat.log2_lt h0).2 h

/-- A positive number is at least 2 to its bit length less one. -/
theorem two_pow_bitlen_pred_le {x : Nat} (h : x ≠ 0) : 2 ^ (bitlen x - 1) ≤ x := by
  simp only [bitlen, h, if_false, Nat.add_sub_cancel]
  exact Nat.log2_self_le h

theorem bitlen_half_lt {x k : Nat} (h : x < 2 ^ (k + 1)) : x / 2 < 2 ^ k := by
  rw [Nat.div_lt_iff_lt_mul (by decide)]; rwa [pow_succ] at h

/-- The loop of square and multiply keeps `a * b^x mod m`. -/
theorem powModLoop_eq (f a b x m : Nat) (h : x < 2 ^ f) : powModLoop f a b x m = a * b ^ x % m := by
  induction f generalizing a b x with
  | zero =>
    have : x = 0 := by simpa using h
    subst this; simp [powModLoop]
  | succ f ih =>
    unfold powModLoop
    split_ifs with h0 h1
    · subst h0; simp
    · rw [ih _ _ _ (bitlen_half_lt h)]
      conv_rhs => rw [show x = 2 * (x / 2) + 1 by omega, pow_succ, pow_mul, pow_two]
      rw [Nat.mul_mod, Nat.mod_mod, ← Nat.pow_mod, ← Nat.mul_mod]
      congr 1; ring
    · rw [ih _ _ _ (bitlen_half_lt h)]
      conv_rhs => rw [show x = 2 * (x / 2) by omega, pow_mul, pow_two]
      rw [Nat.mul_mod, ← Nat.pow_mod, ← Nat.mul_mod]

/-- The engine's answer is `b ^ x % m` (44_control.md R209). -/
theorem powMod_eq (b x m : Nat) : powMod b x m = b ^ x % m := by
  rw [powMod, powModLoop_eq _ _ _ _ _ (lt_two_pow_bitlen x), one_mul, ← Nat.pow_mod]

/-- Word j of a wide value is its bits [32j+31:32j]. -/
theorem wordOf_toNat (v j : Nat) : (wordOf v j).toNat = v / 2 ^ (32 * j) % 2 ^ 32 := by simp [wordOf]

/-- `ceil_div` is the least number of pieces of size b that cover a (spec/00_scope.md R11). -/
theorem ceilDiv_bounds (a : Nat) {b : Nat} (hb : 1 ≤ b) :
    a ≤ ceilDiv a b * b ∧ (ceilDiv a b ≠ 0 → (ceilDiv a b - 1) * b < a) := by
  unfold ceilDiv
  have h1 := Nat.div_add_mod (a + b - 1) b
  have h2 := Nat.mod_lt (a + b - 1) (by omega : 0 < b)
  rw [Nat.mul_comm] at h1
  refine ⟨by omega, fun h => ?_⟩
  have h3 : b ≤ (a + b - 1) / b * b := Nat.le_mul_of_pos_left _ (Nat.pos_of_ne_zero h)
  rw [Nat.sub_mul, Nat.one_mul]
  omega

/-- Fermat: v^(1 + k*(p-1)) is v modulo a prime p. -/
theorem pow_modEq_self {p : Nat} (hp : p.Prime) (v m : Nat) (h : m % (p - 1) = 1 % (p - 1)) (hm : m ≠ 0) : v ^ m ≡ v [MOD p] := by
  have := Fact.mk hp
  rw [← ZMod.natCast_eq_natCast_iff]
  push_cast
  by_cases hv : (v : ZMod p) = 0
  · rw [hv, zero_pow hm]
  · obtain ⟨k, hk⟩ : ∃ k, m = 1 + k * (p - 1) := by
      have h2 : (p - 1) ∣ m - 1 := (Nat.modEq_iff_dvd' (by omega)).1 (Nat.ModEq.symm h)
      obtain ⟨k, hk⟩ := h2
      exact ⟨k, by rw [Nat.mul_comm]; omega⟩
    rw [hk, pow_add, pow_mul', ZMod.pow_card_sub_one_eq_one hv]; simp

/-- RSA for distinct primes (spec/43_decrypt.md R188): the power and then the inverse power give the value back. -/
theorem rsa_round_trip {p q e d v : Nat} (hp : p.Prime) (hq : q.Prime) (hne : p ≠ q) (h : e * d % ((p - 1) * (q - 1)) = 1)
    (hv : v < p * q) : (v ^ e % (p * q)) ^ d % (p * q) = v := by
  have h1 : e * d ≡ 1 [MOD (p - 1) * (q - 1)] := by
    have : 1 < (p - 1) * (q - 1) := by
      have h2 := hp.two_le; have h3 := hq.two_le
      by_contra hc
      have : (p - 1) * (q - 1) = 1 := by
        have := Nat.mul_pos (show 0 < p - 1 by omega) (show 0 < q - 1 by omega); omega
      rw [this, Nat.mod_one] at h; omega
    rw [Nat.ModEq, h, Nat.mod_eq_of_lt this]
  have hm : e * d ≠ 0 := by intro hc; rw [hc] at h; simp at h
  rw [← Nat.pow_mod, ← pow_mul]
  have : v ^ (e * d) ≡ v [MOD p * q] :=
    (Nat.modEq_and_modEq_iff_modEq_mul ((Nat.coprime_primes hp hq).2 hne)).1
      ⟨pow_modEq_self hp v _ (h1.of_mul_right _) hm, pow_modEq_self hq v _ (h1.of_mul_left _) hm⟩
  rw [this, Nat.mod_eq_of_lt hv]

end Sys2Proof.Machine
end

