-- ==== Sys2Proof/Laws/Blocks.lean ====
section
/-! SUPPORT. Bit sequences as numbers (spec/00_scope.md R12, R13), and the bound on a block value (spec/42_encrypt.md R166). -/

namespace Sys2Proof.Machine

@[simp] theorem bitsVal_nil : bitsVal [] = 0 := rfl

theorem bitsVal_append (s : List Bool) (b : Bool) : bitsVal (s ++ [b]) = 2 * bitsVal s + b.toNat := by
  simp [bitsVal, List.foldl_append]

/-- A sequence's value is below 2 to its length. -/
theorem bitsVal_lt (s : List Bool) : bitsVal s < 2 ^ s.length := by
  induction s using List.reverseRecOn with
  | nil => simp
  | append_singleton s b ih =>
    rw [bitsVal_append, List.length_append, List.length_singleton, pow_succ]
    cases b <;> simp <;> omega

@[simp] theorem render_length (v w : Nat) : (render v w).length = w := by simp [render]

/-- The top w bits of a rendering are the rendering of half the number. -/
theorem render_succ (v w : Nat) : render v (w + 1) = render (v / 2) w ++ [v.testBit 0] := by
  unfold render
  rw [List.range_succ, List.map_append]
  congr 1
  · apply List.map_congr_left
    intro t ht
    rw [List.mem_range] at ht
    rw [Nat.testBit_div_two]
    congr 1; omega
  · simp

/-- A rendering's value is the number's low bits. -/
theorem bitsVal_render (v w : Nat) : bitsVal (render v w) = v % 2 ^ w := by
  induction w generalizing v with
  | zero => simp [render, Nat.mod_one]
  | succ w ih =>
    rw [render_succ, bitsVal_append, ih, pow_succ, Nat.mul_comm (2 ^ w), Nat.mod_mul]
    have : (v.testBit 0).toNat = v % 2 := by rw [Nat.testBit_zero]; rcases Nat.mod_two_eq_zero_or_one v with h | h <;> simp [h]
    omega

/-- Rendering a sequence's value at its length gives the sequence back. -/
theorem render_bitsVal (s : List Bool) : render (bitsVal s) s.length = s := by
  induction s using List.reverseRecOn with
  | nil => rfl
  | append_singleton s b ih =>
    rw [List.length_append, List.length_singleton, render_succ, bitsVal_append]
    cases b
    · simp [ih]
    · rw [show (2 * bitsVal s + true.toNat) / 2 = bitsVal s by simp; omega, ih]
      simp [Nat.testBit_zero]

theorem bitSlice_length_le (s : List Bool) (i j : Nat) : (bitSlice s i j).length ≤ j - i := by
  simp [bitSlice]

/-- A block value has at most BLOCK_LEN bits. -/
theorem blockValue_lt_two_pow (s : State) (i : Nat) : blockValue s i < 2 ^ s.blockLen.toNat := by
  refine lt_of_lt_of_le (bitsVal_lt _) (Nat.pow_le_pow_right (by decide) ((bitSlice_length_le _ _ _).trans ?_))
  omega

/-- The message bits of L bytes are 8L bits. -/
@[simp] theorem msgBits_length (s : State) (len : Nat) : (msgBits s len).length = 8 * len := by
  unfold msgBits
  induction len with
  | zero => rfl
  | succ n ih => rw [List.range_succ, List.flatMap_append, List.length_append, ih]; simp; ring

/-- The eight bits of message byte j are its rendering. -/
theorem msgBits_byte (s : State) (len j : Nat) (hj : j < len) :
    bitSlice (msgBits s len) (8 * j) (8 * j + 8) = render (msgByte s j).toNat 8 := by
  induction len with
  | zero => omega
  | succ n ih =>
    have e : msgBits s (n + 1) = msgBits s n ++ render (msgByte s n).toNat 8 := by
      simp [msgBits, List.range_succ]
    have hl := msgBits_length s n
    rw [e, bitSlice, List.drop_append_of_le_length (by omega)]
    by_cases h : j < n
    · rw [List.take_append_of_le_length (by rw [List.length_drop]; omega)]; exact ih h
    · have : j = n := by omega
      subst this
      rw [List.drop_of_length_le (by omega)]; simp

/-- Byte j of the message bits is MSG(j). -/
theorem msgBits_value (s : State) (len j : Nat) (hj : j < len) :
    bitsVal (bitSlice (msgBits s len) (8 * j) (8 * j + 8)) = (msgByte s j).toNat := by
  rw [msgBits_byte s len j hj, bitsVal_render]
  exact Nat.mod_eq_of_lt (msgByte s j).isLt

@[simp] theorem bitsBytes_length (b : List Bool) (len : Nat) : (bitsBytes b len).length = len := by simp [bitsBytes]

/-- How many bits DECRYPT has rendered after i blocks. -/
theorem reassembled_length {s : State} (h1 : 1 ≤ s.blockLen.toNat) (h2 : cipherCount s = blockCount s) (i : Nat)
    (hi : i ≤ cipherCount s) : (reassembled s i).1.length = min (i * s.blockLen.toNat) (8 * msgCount s) := by
  set bl := s.blockLen.toNat with hb
  have hk : 8 * msgCount s ≤ blockCount s * bl ∧ (blockCount s ≠ 0 → (blockCount s - 1) * bl < 8 * msgCount s) := by
    unfold blockCount; rw [← hb]; exact ceilDiv_bounds _ h1
  induction i with
  | zero => simp [reassembled]
  | succ i ih =>
    have ih := ih (by omega)
    rw [reassembled]
    simp only [appendBlock, List.length_append, render_length, renderWidth]
    have hi2 : i * bl ≤ (blockCount s - 1) * bl := Nat.mul_le_mul_right bl (by omega : i ≤ blockCount s - 1)
    have hi3 := hk.2 (by omega)
    rw [ih, min_eq_left (by omega)]
    split_ifs with q
    · have : (i + 1) * bl ≤ (blockCount s - 1) * bl := Nat.mul_le_mul_right bl (by omega)
      rw [Nat.succ_mul] at this ⊢; omega
    · have : i + 1 = blockCount s := by omega
      rw [this]; omega

end Sys2Proof.Machine
end

