-- ==== Sys2Proof/Laws/Encode.lean ====
section
/-! SUPPORT. Bytes and numbers, and what the decoder makes of the encoder's two kinds of packets. -/

namespace Sys2Proof

@[simp] theorem leBytes_length (k w : Nat) : (leBytes k w).length = k := by simp [leBytes]

/-- A number's bytes hold the number, modulo their width. -/
theorem leNat_leBytes (k w : Nat) : leNat (leBytes k w) = w % 2 ^ (8 * k) := by
  unfold leBytes
  induction k generalizing w with
  | zero => simp [leNat, Nat.mod_one]
  | succ k ih =>
    rw [List.range_succ_eq_map, List.map_cons, List.map_map, leNat]
    have := ih (w >>> 8)
    simp only [Nat.shiftRight_eq_div_pow] at *
    have e : ((fun i => BitVec.ofNat 8 (w / 2 ^ (8 * i))) ∘ Nat.succ) =
        fun i => BitVec.ofNat 8 (w / 2 ^ 8 / 2 ^ (8 * i)) := by
      funext i
      simp only [Function.comp, Nat.succ_eq_add_one]
      rw [Nat.div_div_eq_div_mul, ← pow_add]; congr 3; omega
    rw [e, this, show 2 ^ (8 * (k + 1)) = 256 * 2 ^ (8 * k) by rw [Nat.mul_add, pow_add]; ring, Nat.mod_mul]
    simp

/-- Bytes are those of the number they hold. -/
theorem leBytes_leNat (b : List Byte) : leBytes b.length (leNat b) = b := by
  induction b with
  | nil => rfl
  | cons x b ih =>
    unfold leBytes at *
    rw [List.length_cons, List.range_succ_eq_map, List.map_cons, List.map_map, leNat]
    congr 1
    · rw [← BitVec.toNat_inj]; simp; omega
    · rw [← ih, List.length_map, List.length_range]
      apply List.map_congr_left
      intro i _
      rw [ih]
      simp only [Function.comp, Nat.succ_eq_add_one, Nat.shiftRight_eq_div_pow]
      have := x.isLt
      rw [show 8 * (i + 1) = 8 + 8 * i by omega, pow_add, ← Nat.div_div_eq_div_mul,
        show (x.toNat + 256 * leNat b) / 2 ^ 8 = leNat b by omega]

/-- A CTRL packet decodes to the instruction of its word. -/
theorem decode_ctrlPacket (v : Word) : decode (ctrlPacket v) = .ok (decodeCtrl v) := by
  unfold decode ctrlPacket
  rw [leBytes_length]
  simp only
  rw [leNat_leBytes, Nat.mod_eq_of_lt v.isLt, BitVec.ofNat_toNat, BitVec.setWidth_eq]

/-- The fields of a tuple are read where they are put. -/
theorem decodeBus_busTuple (p : Bool) (a : Addr) (w : Word) :
    decodeBus (busTuple p a w) = if p then .wr a w else .rd a w := by
  have e1 : (busTuple p a w).getLsbD 49 = p := by cases p <;> simp [busTuple]
  have e2 : (busTuple p a w).extractLsb' 32 17 = a := by
    ext i hi
    have h1 : 32 + i < 49 := by omega
    have h2 : 32 + i < 50 := by omega
    simp [busTuple, hi, h1, h2, show 32 + i - 49 = 0 by omega]
  have e3 : (busTuple p a w).extractLsb' 0 32 = w := by
    ext i hi
    have h1 : i < 49 := by omega
    have h2 : i < 50 := by omega
    simp [busTuple, hi, h1, h2]
  unfold decodeBus
  rw [e1, e2, e3]

/-- A BUS packet decodes to its transaction. -/
theorem decode_busPacket (p : Bool) (a : Addr) (w : Word) :
    decode (busPacket p a w) = .ok (if p then .wr a w else .rd a w) := by
  have hlt := (busTuple p a w).isLt
  unfold decode busPacket
  rw [leBytes_length]
  simp only
  rw [leNat_leBytes, Nat.mod_eq_of_lt (lt_trans hlt (by decide)), if_pos hlt, BitVec.ofNat_toNat, BitVec.setWidth_eq,
    decodeBus_busTuple]

end Sys2Proof
end

