-- ==== Sys2Proof/Laws/Memory.lean ====
section
/-! SUPPORT. The laws of the buffer memory: read after write, writes elsewhere, and that every memory operation keeps the
canonical form. -/

namespace Sys2Proof.Machine

@[simp] theorem memLookup_nil (a : Nat) : memLookup [] a = none := rfl

theorem memLookup_cons (k : Nat) (b : Byte) (m : Memory) (a : Nat) :
    memLookup ((k, b) :: m) a = if k = a then some b else memLookup m a := rfl

/-- A write is read back, and leaves every other address alone. -/
theorem memLookup_memSet (m : Memory) (a x : Nat) (b : Byte) :
    memLookup (memSet m a b) x = if x = a then some b else memLookup m x := by
  induction m with
  | nil => simp [memSet, memLookup_cons, eq_comm]
  | cons c m ih =>
    obtain ⟨k, v⟩ := c
    simp only [memSet]
    split_ifs <;> simp only [memLookup_cons, ih] <;> split_ifs <;> first | rfl | omega

@[simp] theorem memLookup_memSet_same (m : Memory) (a : Nat) (b : Byte) : memLookup (memSet m a b) a = some b := by
  simp [memLookup_memSet]

/-- What writing bytes at consecutive addresses does to every address. -/
theorem memLookup_memSetBytes (bs : List Byte) (m : Memory) (a x : Nat) :
    memLookup (memSetBytes m a bs) x =
      if a ≤ x ∧ x < a + bs.length then bs[x - a]? else memLookup m x := by
  induction bs generalizing m a with
  | nil =>
    simp [memSetBytes]
  | cons b bs ih =>
    simp only [memSetBytes, ih, memLookup_memSet, List.length_cons]
    by_cases hx : x = a
    · subst hx
      have h2 : x ≤ x ∧ x < x + (bs.length + 1) := by omega
      simp [h2]
    · by_cases h : a + 1 ≤ x ∧ x < a + 1 + bs.length
      · have h2 : a ≤ x ∧ x < a + (bs.length + 1) := by omega
        have h3 : x - a = (x - (a + 1)) + 1 := by omega
        rw [if_pos h, if_pos h2, h3, List.getElem?_cons_succ]
      · have h2 : ¬(a ≤ x ∧ x < a + (bs.length + 1)) := by omega
        rw [if_neg h, if_neg h2, if_neg hx]

/-- Writing bytes leaves every address outside them alone. -/
theorem memLookup_memSetBytes_outside (bs : List Byte) (m : Memory) (a x : Nat) (h : x < a ∨ a + bs.length ≤ x) :
    memLookup (memSetBytes m a bs) x = memLookup m x := by
  rw [memLookup_memSetBytes, if_neg (by omega)]

@[simp] theorem valBytes_length (k v : Nat) : (valBytes k v).length = k := by
  induction k generalizing v with
  | zero => rfl
  | succ k ih => simp [valBytes, ih]

/-- Writing entries first, first+1, ... of CT_BUF leaves every address outside them alone. -/
theorem memLookup_memSetEntries_outside (c : Config) (vs : List Nat) (m : Memory) (i x : Nat)
    (h : x < ctAddr c i ∨ ctAddr c (i + vs.length) ≤ x) :
    memLookup (memSetEntries c m i vs) x = memLookup m x := by
  induction vs generalizing m i with
  | nil => rfl
  | cons v vs ih =>
    simp only [List.length_cons, ctAddr, Nat.mul_add] at h
    rw [memSetEntries, ih, memLookup_memSetBytes_outside]
    · rw [valBytes_length]; simp only [ctAddr]; generalize 4 * c.wpn * vs.length = l at h; omega
    · simp only [ctAddr, Nat.mul_add]; omega

/-- Every key of a written list is the written one or an old one. -/
theorem mem_memSet (m : Memory) (a : Nat) (b : Byte) (c : Host.Cell) (h : c ∈ memSet m a b) : c = (a, b) ∨ c ∈ m := by
  induction m with
  | nil => simpa [memSet] using h
  | cons c' m ih =>
    simp only [memSet] at h
    split_ifs at h <;> simp only [List.mem_cons] at h ⊢ <;> tauto

/-! ### Bytes of numbers, and the buffers through `byteAt` -/

/-- Byte i of the bytes of a number. -/
theorem valBytes_getElem? {k i : Nat} (v : Nat) (h : i < k) :
    (valBytes k v)[i]? = some (BitVec.ofNat 8 (v / 256 ^ i)) := by
  induction k generalizing v i with
  | zero => omega
  | succ k ih =>
    cases i with
    | zero => simp [valBytes]
    | succ i =>
      simp only [valBytes, List.getElem?_cons_succ]
      rw [ih _ (by omega), Nat.div_div_eq_div_mul, pow_succ, Nat.mul_comm]

/-- Byte i of a word's bytes is its bits [8i+7:8i]. -/
theorem byte_of_word (v : Word) (i : Nat) : BitVec.ofNat 8 (v.toNat / 256 ^ i) = v.extractLsb' (8 * i) 8 := by
  rw [← BitVec.toNat_inj]
  simp only [BitVec.toNat_ofNat, BitVec.extractLsb'_toNat, Nat.shiftRight_eq_div_pow]
  rw [show (256 : Nat) = 2 ^ 8 by rfl, ← pow_mul]

/-- What writing bytes does to every buffer byte. -/
theorem byteAt_memSetBytes (s : State) (a : Nat) (bs : List Byte) (x : Nat) :
    byteAt { s with mem := memSetBytes s.mem a bs } x =
      if h : a ≤ x ∧ x < a + bs.length then bs[x - a]'(by omega) else byteAt s x := by
  unfold byteAt
  simp only [memLookup_memSetBytes]
  by_cases h : a ≤ x ∧ x < a + bs.length
  · rw [if_pos h, dif_pos h, List.getElem?_eq_getElem (by omega)]
  · rw [if_neg h, dif_neg h]

/-- Reading back the bytes of a number gives the number, modulo their width. -/
theorem bytesVal_valBytes (k v : Nat) : bytesVal (valBytes k v) = v % 256 ^ k := by
  induction k generalizing v with
  | zero => simp [valBytes, bytesVal, Nat.mod_one]
  | succ k ih =>
    rw [valBytes, bytesVal, ih, pow_succ, Nat.mul_comm (256 ^ k), Nat.mod_mul]
    simp

/-- Every key that writing bytes lists is one of the written addresses or an old one. -/
theorem mem_memSetBytes (bs : List Byte) (m : Memory) (a : Nat) (c : Host.Cell) (h : c ∈ memSetBytes m a bs) :
    (a ≤ c.1 ∧ c.1 < a + bs.length) ∨ c ∈ m := by
  induction bs generalizing m a with
  | nil => exact .inr h
  | cons b bs ih =>
    rw [List.length_cons]
    rcases ih _ _ h with h | h
    · exact .inl (by omega)
    · rcases mem_memSet m a b c h with rfl | h
      · exact .inl (by simp)
      · exact .inr h

/-- Every key that writing entries lists is an address of one of them or an old one. -/
theorem mem_memSetEntries (c : Config) (vs : List Nat) (m : Memory) (i : Nat) (x : Host.Cell)
    (h : x ∈ memSetEntries c m i vs) : (ctAddr c i ≤ x.1 ∧ x.1 < ctAddr c (i + vs.length)) ∨ x ∈ m := by
  induction vs generalizing m i with
  | nil => exact .inr h
  | cons v vs ih =>
    have e : ctAddr c (i + (v :: vs).length) = ctAddr c (i + 1 + vs.length) := by
      rw [List.length_cons]; congr 1; omega
    have m1 : ctAddr c (i + 1) = ctAddr c i + 4 * c.wpn := by simp only [ctAddr, Nat.mul_add, Nat.mul_one]; omega
    have m2 : ctAddr c (i + 1) ≤ ctAddr c (i + 1 + vs.length) := by
      simp only [ctAddr]; have := Nat.mul_le_mul_left (4 * c.wpn) (Nat.le_add_right (i + 1) vs.length); omega
    rw [e]
    rcases ih _ _ h with h | h
    · exact .inl (by omega)
    · rcases mem_memSetBytes _ _ _ _ h with h | h
      · rw [valBytes_length] at h; exact .inl (by omega)
      · exact .inr h

/-! ### The canonical form -/

/-- One write keeps the canonical form. -/
theorem memSet_wf (m : Memory) (a : Nat) (b : Byte) (h : Memory.wf m) : Memory.wf (memSet m a b) := by
  refine ⟨?_, fun c _ => by simp [unlistedByte]⟩
  have hp := h.1
  clear h
  induction m with
  | nil => simp [memSet]
  | cons c m ih =>
    obtain ⟨k, v⟩ := c
    rw [List.pairwise_cons] at hp
    simp only [memSet]
    split_ifs with h1 h2
    · refine List.pairwise_cons.2 ⟨fun c hc => ?_, List.pairwise_cons.2 hp⟩
      rcases List.mem_cons.1 hc with rfl | hc
      · exact h1
      · exact lt_trans h1 (hp.1 c hc)
    · subst h2; exact List.pairwise_cons.2 ⟨fun c hc => hp.1 c hc, hp.2⟩
    · refine List.pairwise_cons.2 ⟨fun c hc => ?_, ih hp.2⟩
      rcases mem_memSet m a b c hc with rfl | hc
      · change k < a; omega
      · exact hp.1 c hc

/-- Writing bytes keeps the canonical form. -/
theorem memSetBytes_wf (bs : List Byte) (m : Memory) (a : Nat) (h : Memory.wf m) : Memory.wf (memSetBytes m a bs) := by
  induction bs generalizing m a with
  | nil => exact h
  | cons b bs ih => exact ih _ _ (memSet_wf m a b h)

/-- Writing CT_BUF entries keeps the canonical form. -/
theorem memSetEntries_wf (c : Config) (vs : List Nat) (m : Memory) (i : Nat) (h : Memory.wf m) :
    Memory.wf (memSetEntries c m i vs) := by
  induction vs generalizing m i with
  | nil => exact h
  | cons v vs ih => exact ih _ _ (memSetBytes_wf _ _ _ h)

/-- Reset memory, with nothing listed, has the canonical form. -/
theorem reset_mem_wf : Memory.wf State.reset.mem := by decide

/-! ### Reading values back -/

theorem bytesVal_lt (l : List Byte) : bytesVal l < 256 ^ l.length := by
  induction l with
  | nil => simp [bytesVal]
  | cons b l ih =>
    rw [bytesVal, List.length_cons, pow_succ]
    have := b.isLt
    omega

@[simp] theorem bytesAt_length (s : State) (a k : Nat) : (bytesAt s a k).length = k := by
  induction k generalizing a with
  | zero => rfl
  | succ k ih => simp [bytesAt, ih]

/-- Bytes that are those of a number hold it. -/
theorem bytesVal_bytesAt (s : State) (a k v : Nat) (h : ∀ i, i < k → byteAt s (a + i) = BitVec.ofNat 8 (v / 256 ^ i)) :
    bytesVal (bytesAt s a k) = v % 256 ^ k := by
  rw [← bytesVal_valBytes]
  congr 1
  induction k generalizing a v with
  | zero => rfl
  | succ k ih =>
    rw [bytesAt, valBytes]
    congr 1
    · simpa using h 0 (by omega)
    · apply ih
      intro i hi
      have := h (i + 1) (by omega)
      rw [show a + 1 + i = a + (i + 1) by ring, this, Nat.div_div_eq_div_mul, pow_succ, Nat.mul_comm 256]

/-- Byte b of entry e + i after the entries from e on are written. -/
theorem memLookup_memSetEntries (c : Config) (vs : List Nat) (m : Memory) (e i b : Nat) (hi : i < vs.length)
    (hb : b < 4 * c.wpn) :
    memLookup (memSetEntries c m e vs) (ctAddr c (e + i) + b) = some (BitVec.ofNat 8 (vs[i] / 256 ^ b)) := by
  induction vs generalizing m e i with
  | nil => simp at hi
  | cons v vs ih =>
    rw [memSetEntries]
    cases i with
    | zero =>
      have m1 : ctAddr c (e + 1) = ctAddr c e + 4 * c.wpn := by simp only [ctAddr, Nat.mul_add, Nat.mul_one]; omega
      rw [memLookup_memSetEntries_outside _ _ _ _ _ (.inl (by simp only [Nat.add_zero]; omega)), memLookup_memSetBytes]
      simp only [valBytes_length, Nat.add_zero, List.getElem_cons_zero]
      rw [if_pos (by omega), Nat.add_sub_cancel_left, valBytes_getElem? _ hb]
    | succ i =>
      have := ih (memSetBytes m (ctAddr c e) (valBytes (4 * c.wpn) v)) (e + 1) i (by simpa using hi)
      rw [show e + (i + 1) = e + 1 + i by ring, this]; simp

/-- An entry that has been written reads as its value. -/
theorem ctEntry_memSetEntries {s t : State} (vs : List Nat) (hm : t.mem = memSetEntries s.cfg s.mem 0 vs)
    (hc : t.cfg = s.cfg) (i : Nat) (hi : i < vs.length) (hv : vs[i] < 256 ^ (4 * s.cfg.wpn)) : ctEntry t i = vs[i] := by
  unfold ctEntry
  rw [hc, bytesVal_bytesAt _ _ _ vs[i], Nat.mod_eq_of_lt hv]
  intro b hb
  have := memLookup_memSetEntries s.cfg vs s.mem 0 i b hi hb
  rw [Nat.zero_add] at this
  unfold byteAt
  rw [hm, this]

end Sys2Proof.Machine
end

