-- ==== Sys2Proof/Laws/Mic.lean ====
section
/-! SUPPORT. What MIC's loop keeps, pass by pass, and what it has found when it ends (spec/41_modular_inverse.md R140, R141). -/

namespace Sys2Proof.Machine

/-- The registers loaded before the first pass meet the loop's relation. -/
theorem micRel_load (a : Nat) {m : Nat} (hm : 2 ≤ m) : MicRel a m (micLoad a m) := by
  have h := Nat.mod_lt a (by omega : 0 < m)
  refine ⟨hm, by simp [micLoad]; omega, by simp [micLoad]; omega, by simp [micLoad], by simp [micLoad], ?_, h, le_rfl⟩
  simp only [micLoad]; exact Nat.gcd_comm _ _

/-- A pass keeps the relation. -/
theorem micRel_pass {a m : Nat} {g : MicRegs} (h : MicRel a m g) (h1 : g.r1 ≠ 0) : MicRel a m (micPass m g) := by
  obtain ⟨hm, b0, b1, e0, e1, hg, hlt, hle⟩ := h
  have hr : g.r0 - g.r0 / g.r1 * g.r1 = g.r0 % g.r1 := by rw [Nat.mul_comm, Nat.mod_eq_sub_mul_div]
  refine ⟨hm, b1, Nat.mod_lt _ (by omega), e1, ?_, ?_, ?_, by simp only [micPass]; omega⟩
  · simp only [micPass, hr]
    change Nat.ModEq m _ _
    have hq : g.r0 / g.r1 * g.t1 % m < m := Nat.mod_lt _ (by omega)
    set T := g.t0 + m - g.r0 / g.r1 * g.t1 % m with hT
    have s1 : T + g.r0 / g.r1 * g.t1 % m = g.t0 + m := by omega
    have s2 : Nat.ModEq m (T * a + g.r0 / g.r1 * g.t1 * a) (g.t0 * a) := by
      rw [← Nat.add_mul]
      apply Nat.ModEq.mul_right
      calc Nat.ModEq m (T + g.r0 / g.r1 * g.t1) (T + g.r0 / g.r1 * g.t1 % m) :=
            Nat.ModEq.add_left _ (Nat.mod_modEq _ _).symm
        _ = g.t0 + m := s1
        _ ≡ g.t0 [MOD m] := by simp [Nat.ModEq]
    have s3 : Nat.ModEq m (g.r0 / g.r1 * g.t1 * a) (g.r0 / g.r1 * g.r1) := by
      rw [Nat.mul_assoc]; exact Nat.ModEq.mul_left _ e1
    have s4 : Nat.ModEq m (T * a + g.r0 / g.r1 * g.t1 * a) (g.r0 % g.r1 + g.r0 / g.r1 * g.r1) := by
      refine s2.trans (Nat.ModEq.trans e0 ?_)
      rw [Nat.mul_comm, Nat.mod_add_div]
    exact ((Nat.mod_modEq T m).mul_right a).trans (Nat.ModEq.add_right_cancel s3 s4)
  · simp only [micPass, hr]
    rw [← hg, Nat.gcd_comm g.r1, ← Nat.gcd_rec, Nat.gcd_comm]
  · simp only [micPass, hr]; exact Nat.mod_lt _ (by omega)

/-- When the loop ends with the divisor 1, t0 is the inverse. -/
theorem micRel_inverse {a m : Nat} {g : MicRegs} (h : MicRel a m g) (h0 : g.r0 = 1) :
    1 ≤ g.t0 ∧ g.t0 < m ∧ a * g.t0 % m = 1 := by
  obtain ⟨hm, b0, -, e0, -⟩ := h
  rw [h0, Nat.mod_eq_of_lt (by omega : 1 < m)] at e0
  refine ⟨?_, b0, by rwa [Nat.mul_comm]⟩
  by_contra hc
  have : g.t0 = 0 := by omega
  simp [this] at e0

/-- When the loop ends, r0 is the greatest common divisor. -/
theorem micRel_gcd {a m : Nat} {g : MicRegs} (h : MicRel a m g) (h1 : g.r1 = 0) : g.r0 = Nat.gcd (a % m) m := by
  obtain ⟨-, -, -, -, -, hg, -⟩ := h
  rw [← hg, h1, Nat.gcd_zero_right]

/-- Two passes halve r0, so the loop ends. -/
theorem micRel_terminates {a m : Nat} {g : MicRegs} (h : MicRel a m g) :
    ∃ k, k ≤ 2 * bitlen g.r0 ∧ (∀ j, j < k → ((micPass m)^[j] g).r1 ≠ 0) ∧ ((micPass m)^[k] g).r1 = 0 ∧
      MicRel a m ((micPass m)^[k] g) := by
  obtain ⟨n, hn⟩ : ∃ n, n = bitlen g.r0 := ⟨_, rfl⟩
  induction n using Nat.strong_induction_on generalizing g with
  | _ n ih =>
    by_cases h1 : g.r1 = 0
    · exact ⟨0, by omega, by intro j hj; omega, h1, h⟩
    · have p1 := micRel_pass h h1
      by_cases h2 : (micPass m g).r1 = 0
      · refine ⟨1, ?_, ?_, h2, p1⟩
        · have : g.r0 ≠ 0 := by have := h.2.2.2.2.2.2.1; omega
          unfold bitlen; rw [if_neg this]; omega
        · intro j hj; obtain rfl : j = 0 := by omega
          exact h1
      · have p2 := micRel_pass p1 h2
        have hr : (micPass m (micPass m g)).r0 = g.r0 % g.r1 := by
          show g.r0 - g.r0 / g.r1 * g.r1 = _
          rw [Nat.mul_comm, Nat.mod_eq_sub_mul_div]
        have hlt : 2 * (g.r0 % g.r1) < g.r0 := by
          have h3 := Nat.div_add_mod g.r0 g.r1
          have h4 := Nat.mod_lt g.r0 (by omega : 0 < g.r1)
          have h5 : 1 ≤ g.r0 / g.r1 := Nat.div_pos (le_of_lt h.2.2.2.2.2.2.1) (by omega)
          have : g.r1 ≤ g.r1 * (g.r0 / g.r1) := Nat.le_mul_of_pos_right _ h5
          omega
        have hbl : bitlen (g.r0 % g.r1) + 1 ≤ bitlen g.r0 := by
          have := lt_two_pow_bitlen g.r0
          have hpos : 0 < bitlen g.r0 := by
            unfold bitlen; split_ifs <;> omega
          have : bitlen (g.r0 % g.r1) ≤ bitlen g.r0 - 1 := by
            apply bitlen_le
            have : 2^bitlen g.r0 = 2 * 2^(bitlen g.r0 - 1) := by rw [← pow_succ']; congr 1; omega
            omega
          omega
        obtain ⟨k,k1,k2,k3,k4⟩ := ih (bitlen (g.r0 % g.r1)) (by omega) p2 (by rw [hr])
        refine ⟨k+2, by rw [hr] at k1; omega, ?_, k3, k4⟩
        intro j hj
        match j with
        | 0 => exact h1
        | 1 => exact h2
        | j+2 => exact k2 j (by omega)

end Sys2Proof.Machine
end

