-- ==== Sys2Proof/Laws/State.lean ====
section
/-! SUPPORT. One lemma per field per shared update, true by rfl and tagged simp, so that no later proof unfolds a record
update. -/

namespace Sys2Proof.Machine


/-! ### respond -/

@[simp] theorem respond_cfg (r : Resp) (w : Word) (s : State) : (respond r w s).cfg = s.cfg := rfl
@[simp] theorem respond_status (r : Resp) (w : Word) (s : State) : (respond r w s).status = s.status := rfl
@[simp] theorem respond_doneIe (r : Resp) (w : Word) (s : State) : (respond r w s).doneIe = s.doneIe := rfl
@[simp] theorem respond_msgLen (r : Resp) (w : Word) (s : State) : (respond r w s).msgLen = s.msgLen := rfl
@[simp] theorem respond_blkCount (r : Resp) (w : Word) (s : State) : (respond r w s).blkCount = s.blkCount := rfl
@[simp] theorem respond_blockLen (r : Resp) (w : Word) (s : State) : (respond r w s).blockLen = s.blockLen := rfl
@[simp] theorem respond_p (r : Resp) (w : Word) (s : State) : (respond r w s).p = s.p := rfl
@[simp] theorem respond_q (r : Resp) (w : Word) (s : State) : (respond r w s).q = s.q := rfl
@[simp] theorem respond_n (r : Resp) (w : Word) (s : State) : (respond r w s).n = s.n := rfl
@[simp] theorem respond_d (r : Resp) (w : Word) (s : State) : (respond r w s).d = s.d := rfl
@[simp] theorem respond_ma (r : Resp) (w : Word) (s : State) : (respond r w s).ma = s.ma := rfl
@[simp] theorem respond_mm (r : Resp) (w : Word) (s : State) : (respond r w s).mm = s.mm := rfl
@[simp] theorem respond_mr (r : Resp) (w : Word) (s : State) : (respond r w s).mr = s.mr := rfl
@[simp] theorem respond_mem (r : Resp) (w : Word) (s : State) : (respond r w s).mem = s.mem := rfl
@[simp] theorem respond_phase (r : Resp) (w : Word) (s : State) : (respond r w s).phase = s.phase := rfl
@[simp] theorem respond_blk (r : Resp) (w : Word) (s : State) : (respond r w s).blk = s.blk := rfl
@[simp] theorem respond_mxPending (r : Resp) (w : Word) (s : State) : (respond r w s).mxPending = s.mxPending := rfl
@[simp] theorem respond_checked (r : Resp) (w : Word) (s : State) : (respond r w s).checked = s.checked := rfl
@[simp] theorem respond_phi (r : Resp) (w : Word) (s : State) : (respond r w s).phi = s.phi := rfl
@[simp] theorem respond_mic (r : Resp) (w : Word) (s : State) : (respond r w s).mic = s.mic := rfl
@[simp] theorem respond_acc (r : Resp) (w : Word) (s : State) : (respond r w s).acc = s.acc := rfl
@[simp] theorem respond_tp (r : Resp) (w : Word) (s : State) : (respond r w s).tp = s.tp := rfl
@[simp] theorem respond_seg (r : Resp) (w : Word) (s : State) : (respond r w s).seg = s.seg := rfl
@[simp] theorem respond_answers (r : Resp) (w : Word) (s : State) : (respond r w s).answers = s.answers := rfl
@[simp] theorem respond_mxReq (r : Resp) (w : Word) (s : State) : (respond r w s).mxReq = s.mxReq := rfl
@[simp] theorem respond_mxRsp (r : Resp) (w : Word) (s : State) : (respond r w s).mxRsp = s.mxRsp := rfl
@[simp] theorem respond_mxLive (r : Resp) (w : Word) (s : State) : (respond r w s).mxLive = s.mxLive := rfl
@[simp] theorem respond_inReset (r : Resp) (w : Word) (s : State) : (respond r w s).inReset = s.inReset := rfl
@[simp] theorem respond_program (r : Resp) (w : Word) (s : State) : (respond r w s).program = s.program := rfl
@[simp] theorem respond_turn (r : Resp) (w : Word) (s : State) : (respond r w s).turn = s.turn := rfl
@[simp] theorem respond_sched (r : Resp) (w : Word) (s : State) : (respond r w s).sched = s.sched := rfl
@[simp] theorem respond_draws (r : Resp) (w : Word) (s : State) : (respond r w s).draws = s.draws := rfl
@[simp] theorem respond_epoch (r : Resp) (w : Word) (s : State) : (respond r w s).epoch = s.epoch := rfl
@[simp] theorem respond_trace (r : Resp) (w : Word) (s : State) : (respond r w s).trace = .busResp r w :: s.trace := rfl

/-! ### ignoredWrite -/

@[simp] theorem ignoredWrite_cfg (s : State) : (ignoredWrite s).cfg = s.cfg := rfl
@[simp] theorem ignoredWrite_status (s : State) : (ignoredWrite s).status = statusIgnored s.status := rfl
@[simp] theorem ignoredWrite_doneIe (s : State) : (ignoredWrite s).doneIe = s.doneIe := rfl
@[simp] theorem ignoredWrite_msgLen (s : State) : (ignoredWrite s).msgLen = s.msgLen := rfl
@[simp] theorem ignoredWrite_blkCount (s : State) : (ignoredWrite s).blkCount = s.blkCount := rfl
@[simp] theorem ignoredWrite_blockLen (s : State) : (ignoredWrite s).blockLen = s.blockLen := rfl
@[simp] theorem ignoredWrite_p (s : State) : (ignoredWrite s).p = s.p := rfl
@[simp] theorem ignoredWrite_q (s : State) : (ignoredWrite s).q = s.q := rfl
@[simp] theorem ignoredWrite_n (s : State) : (ignoredWrite s).n = s.n := rfl
@[simp] theorem ignoredWrite_d (s : State) : (ignoredWrite s).d = s.d := rfl
@[simp] theorem ignoredWrite_ma (s : State) : (ignoredWrite s).ma = s.ma := rfl
@[simp] theorem ignoredWrite_mm (s : State) : (ignoredWrite s).mm = s.mm := rfl
@[simp] theorem ignoredWrite_mr (s : State) : (ignoredWrite s).mr = s.mr := rfl
@[simp] theorem ignoredWrite_mem (s : State) : (ignoredWrite s).mem = s.mem := rfl
@[simp] theorem ignoredWrite_phase (s : State) : (ignoredWrite s).phase = s.phase := rfl
@[simp] theorem ignoredWrite_blk (s : State) : (ignoredWrite s).blk = s.blk := rfl
@[simp] theorem ignoredWrite_mxPending (s : State) : (ignoredWrite s).mxPending = s.mxPending := rfl
@[simp] theorem ignoredWrite_checked (s : State) : (ignoredWrite s).checked = s.checked := rfl
@[simp] theorem ignoredWrite_phi (s : State) : (ignoredWrite s).phi = s.phi := rfl
@[simp] theorem ignoredWrite_mic (s : State) : (ignoredWrite s).mic = s.mic := rfl
@[simp] theorem ignoredWrite_acc (s : State) : (ignoredWrite s).acc = s.acc := rfl
@[simp] theorem ignoredWrite_tp (s : State) : (ignoredWrite s).tp = s.tp := rfl
@[simp] theorem ignoredWrite_seg (s : State) : (ignoredWrite s).seg = s.seg := rfl
@[simp] theorem ignoredWrite_answers (s : State) : (ignoredWrite s).answers = s.answers := rfl
@[simp] theorem ignoredWrite_mxReq (s : State) : (ignoredWrite s).mxReq = s.mxReq := rfl
@[simp] theorem ignoredWrite_mxRsp (s : State) : (ignoredWrite s).mxRsp = s.mxRsp := rfl
@[simp] theorem ignoredWrite_mxLive (s : State) : (ignoredWrite s).mxLive = s.mxLive := rfl
@[simp] theorem ignoredWrite_inReset (s : State) : (ignoredWrite s).inReset = s.inReset := rfl
@[simp] theorem ignoredWrite_program (s : State) : (ignoredWrite s).program = s.program := rfl
@[simp] theorem ignoredWrite_turn (s : State) : (ignoredWrite s).turn = s.turn := rfl
@[simp] theorem ignoredWrite_sched (s : State) : (ignoredWrite s).sched = s.sched := rfl
@[simp] theorem ignoredWrite_draws (s : State) : (ignoredWrite s).draws = s.draws := rfl
@[simp] theorem ignoredWrite_epoch (s : State) : (ignoredWrite s).epoch = s.epoch := rfl
@[simp] theorem ignoredWrite_trace (s : State) : (ignoredWrite s).trace = s.trace := rfl

/-! ### startEffects -/

@[simp] theorem startEffects_cfg (s : State) : (startEffects s).cfg = s.cfg := rfl
@[simp] theorem startEffects_status (s : State) : (startEffects s).status = statusStart s.status := rfl
@[simp] theorem startEffects_doneIe (s : State) : (startEffects s).doneIe = s.doneIe := rfl
@[simp] theorem startEffects_msgLen (s : State) : (startEffects s).msgLen = s.msgLen := rfl
@[simp] theorem startEffects_blkCount (s : State) : (startEffects s).blkCount = s.blkCount := rfl
@[simp] theorem startEffects_blockLen (s : State) : (startEffects s).blockLen = s.blockLen := rfl
@[simp] theorem startEffects_p (s : State) : (startEffects s).p = s.p := rfl
@[simp] theorem startEffects_q (s : State) : (startEffects s).q = s.q := rfl
@[simp] theorem startEffects_n (s : State) : (startEffects s).n = s.n := rfl
@[simp] theorem startEffects_d (s : State) : (startEffects s).d = s.d := rfl
@[simp] theorem startEffects_ma (s : State) : (startEffects s).ma = s.ma := rfl
@[simp] theorem startEffects_mm (s : State) : (startEffects s).mm = s.mm := rfl
@[simp] theorem startEffects_mr (s : State) : (startEffects s).mr = s.mr := rfl
@[simp] theorem startEffects_mem (s : State) : (startEffects s).mem = s.mem := rfl
@[simp] theorem startEffects_phase (s : State) : (startEffects s).phase = s.phase := rfl
@[simp] theorem startEffects_blk (s : State) : (startEffects s).blk = s.blk := rfl
@[simp] theorem startEffects_mxPending (s : State) : (startEffects s).mxPending = s.mxPending := rfl
@[simp] theorem startEffects_checked (s : State) : (startEffects s).checked = s.checked := rfl
@[simp] theorem startEffects_phi (s : State) : (startEffects s).phi = s.phi := rfl
@[simp] theorem startEffects_mic (s : State) : (startEffects s).mic = s.mic := rfl
@[simp] theorem startEffects_acc (s : State) : (startEffects s).acc = s.acc := rfl
@[simp] theorem startEffects_tp (s : State) : (startEffects s).tp = s.tp := rfl
@[simp] theorem startEffects_seg (s : State) : (startEffects s).seg = s.seg := rfl
@[simp] theorem startEffects_answers (s : State) : (startEffects s).answers = s.answers := rfl
@[simp] theorem startEffects_mxReq (s : State) : (startEffects s).mxReq = s.mxReq := rfl
@[simp] theorem startEffects_mxRsp (s : State) : (startEffects s).mxRsp = s.mxRsp := rfl
@[simp] theorem startEffects_mxLive (s : State) : (startEffects s).mxLive = s.mxLive := rfl
@[simp] theorem startEffects_inReset (s : State) : (startEffects s).inReset = s.inReset := rfl
@[simp] theorem startEffects_program (s : State) : (startEffects s).program = s.program := rfl
@[simp] theorem startEffects_turn (s : State) : (startEffects s).turn = s.turn := rfl
@[simp] theorem startEffects_sched (s : State) : (startEffects s).sched = s.sched := rfl
@[simp] theorem startEffects_draws (s : State) : (startEffects s).draws = s.draws := rfl
@[simp] theorem startEffects_epoch (s : State) : (startEffects s).epoch = s.epoch := rfl
@[simp] theorem startEffects_trace (s : State) : (startEffects s).trace = s.trace := rfl

/-! ### startCommand -/

@[simp] theorem startCommand_cfg (ph : Phase) (s : State) : (startCommand ph s).cfg = s.cfg := rfl
@[simp] theorem startCommand_status (ph : Phase) (s : State) : (startCommand ph s).status = { statusStart s.status with busy := true } := rfl
@[simp] theorem startCommand_doneIe (ph : Phase) (s : State) : (startCommand ph s).doneIe = s.doneIe := rfl
@[simp] theorem startCommand_msgLen (ph : Phase) (s : State) : (startCommand ph s).msgLen = s.msgLen := rfl
@[simp] theorem startCommand_blkCount (ph : Phase) (s : State) : (startCommand ph s).blkCount = s.blkCount := rfl
@[simp] theorem startCommand_blockLen (ph : Phase) (s : State) : (startCommand ph s).blockLen = s.blockLen := rfl
@[simp] theorem startCommand_p (ph : Phase) (s : State) : (startCommand ph s).p = s.p := rfl
@[simp] theorem startCommand_q (ph : Phase) (s : State) : (startCommand ph s).q = s.q := rfl
@[simp] theorem startCommand_n (ph : Phase) (s : State) : (startCommand ph s).n = s.n := rfl
@[simp] theorem startCommand_d (ph : Phase) (s : State) : (startCommand ph s).d = s.d := rfl
@[simp] theorem startCommand_ma (ph : Phase) (s : State) : (startCommand ph s).ma = s.ma := rfl
@[simp] theorem startCommand_mm (ph : Phase) (s : State) : (startCommand ph s).mm = s.mm := rfl
@[simp] theorem startCommand_mr (ph : Phase) (s : State) : (startCommand ph s).mr = s.mr := rfl
@[simp] theorem startCommand_mem (ph : Phase) (s : State) : (startCommand ph s).mem = s.mem := rfl
@[simp] theorem startCommand_phase (ph : Phase) (s : State) : (startCommand ph s).phase = ph := rfl
@[simp] theorem startCommand_blk (ph : Phase) (s : State) : (startCommand ph s).blk = 0 := rfl
@[simp] theorem startCommand_mxPending (ph : Phase) (s : State) : (startCommand ph s).mxPending = false := rfl
@[simp] theorem startCommand_checked (ph : Phase) (s : State) : (startCommand ph s).checked = false := rfl
@[simp] theorem startCommand_phi (ph : Phase) (s : State) : (startCommand ph s).phi = s.phi := rfl
@[simp] theorem startCommand_mic (ph : Phase) (s : State) : (startCommand ph s).mic = s.mic := rfl
@[simp] theorem startCommand_acc (ph : Phase) (s : State) : (startCommand ph s).acc = s.acc := rfl
@[simp] theorem startCommand_tp (ph : Phase) (s : State) : (startCommand ph s).tp = s.tp := rfl
@[simp] theorem startCommand_seg (ph : Phase) (s : State) : (startCommand ph s).seg = s.seg := rfl
@[simp] theorem startCommand_answers (ph : Phase) (s : State) : (startCommand ph s).answers = s.answers := rfl
@[simp] theorem startCommand_mxReq (ph : Phase) (s : State) : (startCommand ph s).mxReq = s.mxReq := rfl
@[simp] theorem startCommand_mxRsp (ph : Phase) (s : State) : (startCommand ph s).mxRsp = s.mxRsp := rfl
@[simp] theorem startCommand_mxLive (ph : Phase) (s : State) : (startCommand ph s).mxLive = s.mxLive := rfl
@[simp] theorem startCommand_inReset (ph : Phase) (s : State) : (startCommand ph s).inReset = s.inReset := rfl
@[simp] theorem startCommand_program (ph : Phase) (s : State) : (startCommand ph s).program = s.program := rfl
@[simp] theorem startCommand_turn (ph : Phase) (s : State) : (startCommand ph s).turn = s.turn := rfl
@[simp] theorem startCommand_sched (ph : Phase) (s : State) : (startCommand ph s).sched = s.sched := rfl
@[simp] theorem startCommand_draws (ph : Phase) (s : State) : (startCommand ph s).draws = s.draws := rfl
@[simp] theorem startCommand_epoch (ph : Phase) (s : State) : (startCommand ph s).epoch = s.epoch := rfl
@[simp] theorem startCommand_trace (ph : Phase) (s : State) : (startCommand ph s).trace = s.trace := rfl

/-! ### completeCommand -/

@[simp] theorem completeCommand_cfg (s : State) : (completeCommand s).cfg = s.cfg := rfl
@[simp] theorem completeCommand_status (s : State) : (completeCommand s).status = statusComplete s.status := rfl
@[simp] theorem completeCommand_doneIe (s : State) : (completeCommand s).doneIe = s.doneIe := rfl
@[simp] theorem completeCommand_msgLen (s : State) : (completeCommand s).msgLen = s.msgLen := rfl
@[simp] theorem completeCommand_blkCount (s : State) : (completeCommand s).blkCount = s.blkCount := rfl
@[simp] theorem completeCommand_blockLen (s : State) : (completeCommand s).blockLen = s.blockLen := rfl
@[simp] theorem completeCommand_p (s : State) : (completeCommand s).p = s.p := rfl
@[simp] theorem completeCommand_q (s : State) : (completeCommand s).q = s.q := rfl
@[simp] theorem completeCommand_n (s : State) : (completeCommand s).n = s.n := rfl
@[simp] theorem completeCommand_d (s : State) : (completeCommand s).d = s.d := rfl
@[simp] theorem completeCommand_ma (s : State) : (completeCommand s).ma = s.ma := rfl
@[simp] theorem completeCommand_mm (s : State) : (completeCommand s).mm = s.mm := rfl
@[simp] theorem completeCommand_mr (s : State) : (completeCommand s).mr = s.mr := rfl
@[simp] theorem completeCommand_mem (s : State) : (completeCommand s).mem = s.mem := rfl
@[simp] theorem completeCommand_phase (s : State) : (completeCommand s).phase = .idle := rfl
@[simp] theorem completeCommand_blk (s : State) : (completeCommand s).blk = s.blk := rfl
@[simp] theorem completeCommand_mxPending (s : State) : (completeCommand s).mxPending = s.mxPending := rfl
@[simp] theorem completeCommand_checked (s : State) : (completeCommand s).checked = s.checked := rfl
@[simp] theorem completeCommand_phi (s : State) : (completeCommand s).phi = s.phi := rfl
@[simp] theorem completeCommand_mic (s : State) : (completeCommand s).mic = s.mic := rfl
@[simp] theorem completeCommand_acc (s : State) : (completeCommand s).acc = s.acc := rfl
@[simp] theorem completeCommand_tp (s : State) : (completeCommand s).tp = s.tp := rfl
@[simp] theorem completeCommand_seg (s : State) : (completeCommand s).seg = s.seg := rfl
@[simp] theorem completeCommand_answers (s : State) : (completeCommand s).answers = s.answers := rfl
@[simp] theorem completeCommand_mxReq (s : State) : (completeCommand s).mxReq = s.mxReq := rfl
@[simp] theorem completeCommand_mxRsp (s : State) : (completeCommand s).mxRsp = s.mxRsp := rfl
@[simp] theorem completeCommand_mxLive (s : State) : (completeCommand s).mxLive = s.mxLive := rfl
@[simp] theorem completeCommand_inReset (s : State) : (completeCommand s).inReset = s.inReset := rfl
@[simp] theorem completeCommand_program (s : State) : (completeCommand s).program = s.program := rfl
@[simp] theorem completeCommand_turn (s : State) : (completeCommand s).turn = s.turn := rfl
@[simp] theorem completeCommand_sched (s : State) : (completeCommand s).sched = s.sched := rfl
@[simp] theorem completeCommand_draws (s : State) : (completeCommand s).draws = s.draws := rfl
@[simp] theorem completeCommand_epoch (s : State) : (completeCommand s).epoch = s.epoch := rfl
@[simp] theorem completeCommand_trace (s : State) : (completeCommand s).trace = s.trace := rfl

/-! ### errorCompletion -/

@[simp] theorem errorCompletion_cfg (c : ErrCode) (s : State) : (errorCompletion c s).cfg = s.cfg := rfl
@[simp] theorem errorCompletion_status (c : ErrCode) (s : State) : (errorCompletion c s).status = statusError c s.status := rfl
@[simp] theorem errorCompletion_doneIe (c : ErrCode) (s : State) : (errorCompletion c s).doneIe = s.doneIe := rfl
@[simp] theorem errorCompletion_msgLen (c : ErrCode) (s : State) : (errorCompletion c s).msgLen = s.msgLen := rfl
@[simp] theorem errorCompletion_blkCount (c : ErrCode) (s : State) : (errorCompletion c s).blkCount = s.blkCount := rfl
@[simp] theorem errorCompletion_blockLen (c : ErrCode) (s : State) : (errorCompletion c s).blockLen = s.blockLen := rfl
@[simp] theorem errorCompletion_p (c : ErrCode) (s : State) : (errorCompletion c s).p = s.p := rfl
@[simp] theorem errorCompletion_q (c : ErrCode) (s : State) : (errorCompletion c s).q = s.q := rfl
@[simp] theorem errorCompletion_n (c : ErrCode) (s : State) : (errorCompletion c s).n = s.n := rfl
@[simp] theorem errorCompletion_d (c : ErrCode) (s : State) : (errorCompletion c s).d = s.d := rfl
@[simp] theorem errorCompletion_ma (c : ErrCode) (s : State) : (errorCompletion c s).ma = s.ma := rfl
@[simp] theorem errorCompletion_mm (c : ErrCode) (s : State) : (errorCompletion c s).mm = s.mm := rfl
@[simp] theorem errorCompletion_mr (c : ErrCode) (s : State) : (errorCompletion c s).mr = s.mr := rfl
@[simp] theorem errorCompletion_mem (c : ErrCode) (s : State) : (errorCompletion c s).mem = s.mem := rfl
@[simp] theorem errorCompletion_phase (c : ErrCode) (s : State) : (errorCompletion c s).phase = .idle := rfl
@[simp] theorem errorCompletion_blk (c : ErrCode) (s : State) : (errorCompletion c s).blk = s.blk := rfl
@[simp] theorem errorCompletion_mxPending (c : ErrCode) (s : State) : (errorCompletion c s).mxPending = s.mxPending := rfl
@[simp] theorem errorCompletion_checked (c : ErrCode) (s : State) : (errorCompletion c s).checked = s.checked := rfl
@[simp] theorem errorCompletion_phi (c : ErrCode) (s : State) : (errorCompletion c s).phi = s.phi := rfl
@[simp] theorem errorCompletion_mic (c : ErrCode) (s : State) : (errorCompletion c s).mic = s.mic := rfl
@[simp] theorem errorCompletion_acc (c : ErrCode) (s : State) : (errorCompletion c s).acc = s.acc := rfl
@[simp] theorem errorCompletion_tp (c : ErrCode) (s : State) : (errorCompletion c s).tp = s.tp := rfl
@[simp] theorem errorCompletion_seg (c : ErrCode) (s : State) : (errorCompletion c s).seg = s.seg := rfl
@[simp] theorem errorCompletion_answers (c : ErrCode) (s : State) : (errorCompletion c s).answers = s.answers := rfl
@[simp] theorem errorCompletion_mxReq (c : ErrCode) (s : State) : (errorCompletion c s).mxReq = s.mxReq := rfl
@[simp] theorem errorCompletion_mxRsp (c : ErrCode) (s : State) : (errorCompletion c s).mxRsp = s.mxRsp := rfl
@[simp] theorem errorCompletion_mxLive (c : ErrCode) (s : State) : (errorCompletion c s).mxLive = s.mxLive := rfl
@[simp] theorem errorCompletion_inReset (c : ErrCode) (s : State) : (errorCompletion c s).inReset = s.inReset := rfl
@[simp] theorem errorCompletion_program (c : ErrCode) (s : State) : (errorCompletion c s).program = s.program := rfl
@[simp] theorem errorCompletion_turn (c : ErrCode) (s : State) : (errorCompletion c s).turn = s.turn := rfl
@[simp] theorem errorCompletion_sched (c : ErrCode) (s : State) : (errorCompletion c s).sched = s.sched := rfl
@[simp] theorem errorCompletion_draws (c : ErrCode) (s : State) : (errorCompletion c s).draws = s.draws := rfl
@[simp] theorem errorCompletion_epoch (c : ErrCode) (s : State) : (errorCompletion c s).epoch = s.epoch := rfl
@[simp] theorem errorCompletion_trace (c : ErrCode) (s : State) : (errorCompletion c s).trace = s.trace := rfl

/-! ### acknowledge -/

@[simp] theorem acknowledge_cfg (v : Word) (s : State) : (acknowledge v s).cfg = s.cfg := rfl
@[simp] theorem acknowledge_status (v : Word) (s : State) : (acknowledge v s).status = statusW1c v s.status := rfl
@[simp] theorem acknowledge_doneIe (v : Word) (s : State) : (acknowledge v s).doneIe = s.doneIe := rfl
@[simp] theorem acknowledge_msgLen (v : Word) (s : State) : (acknowledge v s).msgLen = s.msgLen := rfl
@[simp] theorem acknowledge_blkCount (v : Word) (s : State) : (acknowledge v s).blkCount = s.blkCount := rfl
@[simp] theorem acknowledge_blockLen (v : Word) (s : State) : (acknowledge v s).blockLen = s.blockLen := rfl
@[simp] theorem acknowledge_p (v : Word) (s : State) : (acknowledge v s).p = s.p := rfl
@[simp] theorem acknowledge_q (v : Word) (s : State) : (acknowledge v s).q = s.q := rfl
@[simp] theorem acknowledge_n (v : Word) (s : State) : (acknowledge v s).n = s.n := rfl
@[simp] theorem acknowledge_d (v : Word) (s : State) : (acknowledge v s).d = s.d := rfl
@[simp] theorem acknowledge_ma (v : Word) (s : State) : (acknowledge v s).ma = s.ma := rfl
@[simp] theorem acknowledge_mm (v : Word) (s : State) : (acknowledge v s).mm = s.mm := rfl
@[simp] theorem acknowledge_mr (v : Word) (s : State) : (acknowledge v s).mr = s.mr := rfl
@[simp] theorem acknowledge_mem (v : Word) (s : State) : (acknowledge v s).mem = s.mem := rfl
@[simp] theorem acknowledge_phase (v : Word) (s : State) : (acknowledge v s).phase = s.phase := rfl
@[simp] theorem acknowledge_blk (v : Word) (s : State) : (acknowledge v s).blk = s.blk := rfl
@[simp] theorem acknowledge_mxPending (v : Word) (s : State) : (acknowledge v s).mxPending = s.mxPending := rfl
@[simp] theorem acknowledge_checked (v : Word) (s : State) : (acknowledge v s).checked = s.checked := rfl
@[simp] theorem acknowledge_phi (v : Word) (s : State) : (acknowledge v s).phi = s.phi := rfl
@[simp] theorem acknowledge_mic (v : Word) (s : State) : (acknowledge v s).mic = s.mic := rfl
@[simp] theorem acknowledge_acc (v : Word) (s : State) : (acknowledge v s).acc = s.acc := rfl
@[simp] theorem acknowledge_tp (v : Word) (s : State) : (acknowledge v s).tp = s.tp := rfl
@[simp] theorem acknowledge_seg (v : Word) (s : State) : (acknowledge v s).seg = s.seg := rfl
@[simp] theorem acknowledge_answers (v : Word) (s : State) : (acknowledge v s).answers = s.answers := rfl
@[simp] theorem acknowledge_mxReq (v : Word) (s : State) : (acknowledge v s).mxReq = s.mxReq := rfl
@[simp] theorem acknowledge_mxRsp (v : Word) (s : State) : (acknowledge v s).mxRsp = s.mxRsp := rfl
@[simp] theorem acknowledge_mxLive (v : Word) (s : State) : (acknowledge v s).mxLive = s.mxLive := rfl
@[simp] theorem acknowledge_inReset (v : Word) (s : State) : (acknowledge v s).inReset = s.inReset := rfl
@[simp] theorem acknowledge_program (v : Word) (s : State) : (acknowledge v s).program = s.program := rfl
@[simp] theorem acknowledge_turn (v : Word) (s : State) : (acknowledge v s).turn = s.turn := rfl
@[simp] theorem acknowledge_sched (v : Word) (s : State) : (acknowledge v s).sched = s.sched := rfl
@[simp] theorem acknowledge_draws (v : Word) (s : State) : (acknowledge v s).draws = s.draws := rfl
@[simp] theorem acknowledge_epoch (v : Word) (s : State) : (acknowledge v s).epoch = s.epoch := rfl
@[simp] theorem acknowledge_trace (v : Word) (s : State) : (acknowledge v s).trace = s.trace := rfl

/-! ### clearKey -/

@[simp] theorem clearKey_cfg (s : State) : (clearKey s).cfg = s.cfg := rfl
@[simp] theorem clearKey_status (s : State) : (clearKey s).status = { s.status with keyValid := false } := rfl
@[simp] theorem clearKey_doneIe (s : State) : (clearKey s).doneIe = s.doneIe := rfl
@[simp] theorem clearKey_msgLen (s : State) : (clearKey s).msgLen = s.msgLen := rfl
@[simp] theorem clearKey_blkCount (s : State) : (clearKey s).blkCount = s.blkCount := rfl
@[simp] theorem clearKey_blockLen (s : State) : (clearKey s).blockLen = 0 := rfl
@[simp] theorem clearKey_p (s : State) : (clearKey s).p = s.p := rfl
@[simp] theorem clearKey_q (s : State) : (clearKey s).q = s.q := rfl
@[simp] theorem clearKey_n (s : State) : (clearKey s).n = 0 := rfl
@[simp] theorem clearKey_d (s : State) : (clearKey s).d = 0 := rfl
@[simp] theorem clearKey_ma (s : State) : (clearKey s).ma = s.ma := rfl
@[simp] theorem clearKey_mm (s : State) : (clearKey s).mm = s.mm := rfl
@[simp] theorem clearKey_mr (s : State) : (clearKey s).mr = s.mr := rfl
@[simp] theorem clearKey_mem (s : State) : (clearKey s).mem = s.mem := rfl
@[simp] theorem clearKey_phase (s : State) : (clearKey s).phase = s.phase := rfl
@[simp] theorem clearKey_blk (s : State) : (clearKey s).blk = s.blk := rfl
@[simp] theorem clearKey_mxPending (s : State) : (clearKey s).mxPending = s.mxPending := rfl
@[simp] theorem clearKey_checked (s : State) : (clearKey s).checked = s.checked := rfl
@[simp] theorem clearKey_phi (s : State) : (clearKey s).phi = s.phi := rfl
@[simp] theorem clearKey_mic (s : State) : (clearKey s).mic = s.mic := rfl
@[simp] theorem clearKey_acc (s : State) : (clearKey s).acc = s.acc := rfl
@[simp] theorem clearKey_tp (s : State) : (clearKey s).tp = s.tp := rfl
@[simp] theorem clearKey_seg (s : State) : (clearKey s).seg = s.seg := rfl
@[simp] theorem clearKey_answers (s : State) : (clearKey s).answers = s.answers := rfl
@[simp] theorem clearKey_mxReq (s : State) : (clearKey s).mxReq = s.mxReq := rfl
@[simp] theorem clearKey_mxRsp (s : State) : (clearKey s).mxRsp = s.mxRsp := rfl
@[simp] theorem clearKey_mxLive (s : State) : (clearKey s).mxLive = s.mxLive := rfl
@[simp] theorem clearKey_inReset (s : State) : (clearKey s).inReset = s.inReset := rfl
@[simp] theorem clearKey_program (s : State) : (clearKey s).program = s.program := rfl
@[simp] theorem clearKey_turn (s : State) : (clearKey s).turn = s.turn := rfl
@[simp] theorem clearKey_sched (s : State) : (clearKey s).sched = s.sched := rfl
@[simp] theorem clearKey_draws (s : State) : (clearKey s).draws = s.draws := rfl
@[simp] theorem clearKey_epoch (s : State) : (clearKey s).epoch = s.epoch := rfl
@[simp] theorem clearKey_trace (s : State) : (clearKey s).trace = s.trace := rfl

/-! ### issueModExp -/

@[simp] theorem issueModExp_cfg (b x m : Nat) (s : State) : (issueModExp b x m s).cfg = s.cfg := rfl
@[simp] theorem issueModExp_status (b x m : Nat) (s : State) : (issueModExp b x m s).status = s.status := rfl
@[simp] theorem issueModExp_doneIe (b x m : Nat) (s : State) : (issueModExp b x m s).doneIe = s.doneIe := rfl
@[simp] theorem issueModExp_msgLen (b x m : Nat) (s : State) : (issueModExp b x m s).msgLen = s.msgLen := rfl
@[simp] theorem issueModExp_blkCount (b x m : Nat) (s : State) : (issueModExp b x m s).blkCount = s.blkCount := rfl
@[simp] theorem issueModExp_blockLen (b x m : Nat) (s : State) : (issueModExp b x m s).blockLen = s.blockLen := rfl
@[simp] theorem issueModExp_p (b x m : Nat) (s : State) : (issueModExp b x m s).p = s.p := rfl
@[simp] theorem issueModExp_q (b x m : Nat) (s : State) : (issueModExp b x m s).q = s.q := rfl
@[simp] theorem issueModExp_n (b x m : Nat) (s : State) : (issueModExp b x m s).n = s.n := rfl
@[simp] theorem issueModExp_d (b x m : Nat) (s : State) : (issueModExp b x m s).d = s.d := rfl
@[simp] theorem issueModExp_ma (b x m : Nat) (s : State) : (issueModExp b x m s).ma = s.ma := rfl
@[simp] theorem issueModExp_mm (b x m : Nat) (s : State) : (issueModExp b x m s).mm = s.mm := rfl
@[simp] theorem issueModExp_mr (b x m : Nat) (s : State) : (issueModExp b x m s).mr = s.mr := rfl
@[simp] theorem issueModExp_mem (b x m : Nat) (s : State) : (issueModExp b x m s).mem = s.mem := rfl
@[simp] theorem issueModExp_phase (b x m : Nat) (s : State) : (issueModExp b x m s).phase = s.phase := rfl
@[simp] theorem issueModExp_blk (b x m : Nat) (s : State) : (issueModExp b x m s).blk = s.blk := rfl
@[simp] theorem issueModExp_mxPending (b x m : Nat) (s : State) : (issueModExp b x m s).mxPending = true := rfl
@[simp] theorem issueModExp_checked (b x m : Nat) (s : State) : (issueModExp b x m s).checked = s.checked := rfl
@[simp] theorem issueModExp_phi (b x m : Nat) (s : State) : (issueModExp b x m s).phi = s.phi := rfl
@[simp] theorem issueModExp_mic (b x m : Nat) (s : State) : (issueModExp b x m s).mic = s.mic := rfl
@[simp] theorem issueModExp_acc (b x m : Nat) (s : State) : (issueModExp b x m s).acc = s.acc := rfl
@[simp] theorem issueModExp_tp (b x m : Nat) (s : State) : (issueModExp b x m s).tp = s.tp := rfl
@[simp] theorem issueModExp_seg (b x m : Nat) (s : State) : (issueModExp b x m s).seg = b := rfl
@[simp] theorem issueModExp_answers (b x m : Nat) (s : State) : (issueModExp b x m s).answers = s.answers := rfl
@[simp] theorem issueModExp_mxReq (b x m : Nat) (s : State) : (issueModExp b x m s).mxReq = some { base := b, exp := x, mod := m } := rfl
@[simp] theorem issueModExp_mxRsp (b x m : Nat) (s : State) : (issueModExp b x m s).mxRsp = none := rfl
@[simp] theorem issueModExp_mxLive (b x m : Nat) (s : State) : (issueModExp b x m s).mxLive = s.mxLive := rfl
@[simp] theorem issueModExp_inReset (b x m : Nat) (s : State) : (issueModExp b x m s).inReset = s.inReset := rfl
@[simp] theorem issueModExp_program (b x m : Nat) (s : State) : (issueModExp b x m s).program = s.program := rfl
@[simp] theorem issueModExp_turn (b x m : Nat) (s : State) : (issueModExp b x m s).turn = s.turn := rfl
@[simp] theorem issueModExp_sched (b x m : Nat) (s : State) : (issueModExp b x m s).sched = s.sched := rfl
@[simp] theorem issueModExp_draws (b x m : Nat) (s : State) : (issueModExp b x m s).draws = s.draws := rfl
@[simp] theorem issueModExp_epoch (b x m : Nat) (s : State) : (issueModExp b x m s).epoch = s.epoch := rfl
@[simp] theorem issueModExp_trace (b x m : Nat) (s : State) : (issueModExp b x m s).trace = .mxIssue { base := b, exp := x, mod := m } :: s.trace := rfl

/-! ### absorbModExp -/

@[simp] theorem absorbModExp_cfg (s : State) : (absorbModExp s).cfg = s.cfg := rfl
@[simp] theorem absorbModExp_status (s : State) : (absorbModExp s).status = s.status := rfl
@[simp] theorem absorbModExp_doneIe (s : State) : (absorbModExp s).doneIe = s.doneIe := rfl
@[simp] theorem absorbModExp_msgLen (s : State) : (absorbModExp s).msgLen = s.msgLen := rfl
@[simp] theorem absorbModExp_blkCount (s : State) : (absorbModExp s).blkCount = s.blkCount := rfl
@[simp] theorem absorbModExp_blockLen (s : State) : (absorbModExp s).blockLen = s.blockLen := rfl
@[simp] theorem absorbModExp_p (s : State) : (absorbModExp s).p = s.p := rfl
@[simp] theorem absorbModExp_q (s : State) : (absorbModExp s).q = s.q := rfl
@[simp] theorem absorbModExp_n (s : State) : (absorbModExp s).n = s.n := rfl
@[simp] theorem absorbModExp_d (s : State) : (absorbModExp s).d = s.d := rfl
@[simp] theorem absorbModExp_ma (s : State) : (absorbModExp s).ma = s.ma := rfl
@[simp] theorem absorbModExp_mm (s : State) : (absorbModExp s).mm = s.mm := rfl
@[simp] theorem absorbModExp_mr (s : State) : (absorbModExp s).mr = s.mr := rfl
@[simp] theorem absorbModExp_mem (s : State) : (absorbModExp s).mem = s.mem := rfl
@[simp] theorem absorbModExp_phase (s : State) : (absorbModExp s).phase = s.phase := rfl
@[simp] theorem absorbModExp_blk (s : State) : (absorbModExp s).blk = s.blk + 1 := rfl
@[simp] theorem absorbModExp_mxPending (s : State) : (absorbModExp s).mxPending = false := rfl
@[simp] theorem absorbModExp_checked (s : State) : (absorbModExp s).checked = s.checked := rfl
@[simp] theorem absorbModExp_phi (s : State) : (absorbModExp s).phi = s.phi := rfl
@[simp] theorem absorbModExp_mic (s : State) : (absorbModExp s).mic = s.mic := rfl
@[simp] theorem absorbModExp_acc (s : State) : (absorbModExp s).acc = s.acc := rfl
@[simp] theorem absorbModExp_tp (s : State) : (absorbModExp s).tp = s.tp := rfl
@[simp] theorem absorbModExp_seg (s : State) : (absorbModExp s).seg = s.seg := rfl
@[simp] theorem absorbModExp_answers (s : State) : (absorbModExp s).answers = s.answers := rfl
@[simp] theorem absorbModExp_mxReq (s : State) : (absorbModExp s).mxReq = s.mxReq := rfl
@[simp] theorem absorbModExp_mxRsp (s : State) : (absorbModExp s).mxRsp = none := rfl
@[simp] theorem absorbModExp_mxLive (s : State) : (absorbModExp s).mxLive = s.mxLive := rfl
@[simp] theorem absorbModExp_inReset (s : State) : (absorbModExp s).inReset = s.inReset := rfl
@[simp] theorem absorbModExp_program (s : State) : (absorbModExp s).program = s.program := rfl
@[simp] theorem absorbModExp_turn (s : State) : (absorbModExp s).turn = s.turn := rfl
@[simp] theorem absorbModExp_sched (s : State) : (absorbModExp s).sched = s.sched := rfl
@[simp] theorem absorbModExp_draws (s : State) : (absorbModExp s).draws = s.draws := rfl
@[simp] theorem absorbModExp_epoch (s : State) : (absorbModExp s).epoch = s.epoch := rfl
@[simp] theorem absorbModExp_trace (s : State) : (absorbModExp s).trace = s.trace := rfl

/-! ### advanceTurn: it moves turn and sched only -/

/-- The move passes on without touching anything else. -/
theorem advanceTurn_eq (s : State) : ∃ t l, advanceTurn s = { s with turn := t, sched := l } := by
  unfold advanceTurn; split <;> exact ⟨_, _, rfl⟩

/-- With no schedule the move goes to the fair choice, and nothing else changes. -/
theorem advanceTurn_fair {s : State} (h : s.sched = []) : advanceTurn s = { s with turn := fairTurn s } := by
  simp only [advanceTurn, h]

@[simp] theorem advanceTurn_cfg (s : State) : (advanceTurn s).cfg = s.cfg := by
  obtain ⟨t, l, h⟩ := advanceTurn_eq s; rw [h]
@[simp] theorem advanceTurn_status (s : State) : (advanceTurn s).status = s.status := by
  obtain ⟨t, l, h⟩ := advanceTurn_eq s; rw [h]
@[simp] theorem advanceTurn_doneIe (s : State) : (advanceTurn s).doneIe = s.doneIe := by
  obtain ⟨t, l, h⟩ := advanceTurn_eq s; rw [h]
@[simp] theorem advanceTurn_msgLen (s : State) : (advanceTurn s).msgLen = s.msgLen := by
  obtain ⟨t, l, h⟩ := advanceTurn_eq s; rw [h]
@[simp] theorem advanceTurn_blkCount (s : State) : (advanceTurn s).blkCount = s.blkCount := by
  obtain ⟨t, l, h⟩ := advanceTurn_eq s; rw [h]
@[simp] theorem advanceTurn_blockLen (s : State) : (advanceTurn s).blockLen = s.blockLen := by
  obtain ⟨t, l, h⟩ := advanceTurn_eq s; rw [h]
@[simp] theorem advanceTurn_p (s : State) : (advanceTurn s).p = s.p := by
  obtain ⟨t, l, h⟩ := advanceTurn_eq s; rw [h]
@[simp] theorem advanceTurn_q (s : State) : (advanceTurn s).q = s.q := by
  obtain ⟨t, l, h⟩ := advanceTurn_eq s; rw [h]
@[simp] theorem advanceTurn_n (s : State) : (advanceTurn s).n = s.n := by
  obtain ⟨t, l, h⟩ := advanceTurn_eq s; rw [h]
@[simp] theorem advanceTurn_d (s : State) : (advanceTurn s).d = s.d := by
  obtain ⟨t, l, h⟩ := advanceTurn_eq s; rw [h]
@[simp] theorem advanceTurn_ma (s : State) : (advanceTurn s).ma = s.ma := by
  obtain ⟨t, l, h⟩ := advanceTurn_eq s; rw [h]
@[simp] theorem advanceTurn_mm (s : State) : (advanceTurn s).mm = s.mm := by
  obtain ⟨t, l, h⟩ := advanceTurn_eq s; rw [h]
@[simp] theorem advanceTurn_mr (s : State) : (advanceTurn s).mr = s.mr := by
  obtain ⟨t, l, h⟩ := advanceTurn_eq s; rw [h]
@[simp] theorem advanceTurn_mem (s : State) : (advanceTurn s).mem = s.mem := by
  obtain ⟨t, l, h⟩ := advanceTurn_eq s; rw [h]
@[simp] theorem advanceTurn_phase (s : State) : (advanceTurn s).phase = s.phase := by
  obtain ⟨t, l, h⟩ := advanceTurn_eq s; rw [h]
@[simp] theorem advanceTurn_blk (s : State) : (advanceTurn s).blk = s.blk := by
  obtain ⟨t, l, h⟩ := advanceTurn_eq s; rw [h]
@[simp] theorem advanceTurn_mxPending (s : State) : (advanceTurn s).mxPending = s.mxPending := by
  obtain ⟨t, l, h⟩ := advanceTurn_eq s; rw [h]
@[simp] theorem advanceTurn_checked (s : State) : (advanceTurn s).checked = s.checked := by
  obtain ⟨t, l, h⟩ := advanceTurn_eq s; rw [h]
@[simp] theorem advanceTurn_phi (s : State) : (advanceTurn s).phi = s.phi := by
  obtain ⟨t, l, h⟩ := advanceTurn_eq s; rw [h]
@[simp] theorem advanceTurn_mic (s : State) : (advanceTurn s).mic = s.mic := by
  obtain ⟨t, l, h⟩ := advanceTurn_eq s; rw [h]
@[simp] theorem advanceTurn_acc (s : State) : (advanceTurn s).acc = s.acc := by
  obtain ⟨t, l, h⟩ := advanceTurn_eq s; rw [h]
@[simp] theorem advanceTurn_tp (s : State) : (advanceTurn s).tp = s.tp := by
  obtain ⟨t, l, h⟩ := advanceTurn_eq s; rw [h]
@[simp] theorem advanceTurn_seg (s : State) : (advanceTurn s).seg = s.seg := by
  obtain ⟨t, l, h⟩ := advanceTurn_eq s; rw [h]
@[simp] theorem advanceTurn_answers (s : State) : (advanceTurn s).answers = s.answers := by
  obtain ⟨t, l, h⟩ := advanceTurn_eq s; rw [h]
@[simp] theorem advanceTurn_mxReq (s : State) : (advanceTurn s).mxReq = s.mxReq := by
  obtain ⟨t, l, h⟩ := advanceTurn_eq s; rw [h]
@[simp] theorem advanceTurn_mxRsp (s : State) : (advanceTurn s).mxRsp = s.mxRsp := by
  obtain ⟨t, l, h⟩ := advanceTurn_eq s; rw [h]
@[simp] theorem advanceTurn_mxLive (s : State) : (advanceTurn s).mxLive = s.mxLive := by
  obtain ⟨t, l, h⟩ := advanceTurn_eq s; rw [h]
@[simp] theorem advanceTurn_inReset (s : State) : (advanceTurn s).inReset = s.inReset := by
  obtain ⟨t, l, h⟩ := advanceTurn_eq s; rw [h]
@[simp] theorem advanceTurn_program (s : State) : (advanceTurn s).program = s.program := by
  obtain ⟨t, l, h⟩ := advanceTurn_eq s; rw [h]
@[simp] theorem advanceTurn_draws (s : State) : (advanceTurn s).draws = s.draws := by
  obtain ⟨t, l, h⟩ := advanceTurn_eq s; rw [h]
@[simp] theorem advanceTurn_epoch (s : State) : (advanceTurn s).epoch = s.epoch := by
  obtain ⟨t, l, h⟩ := advanceTurn_eq s; rw [h]
@[simp] theorem advanceTurn_trace (s : State) : (advanceTurn s).trace = s.trace := by
  obtain ⟨t, l, h⟩ := advanceTurn_eq s; rw [h]

/-! ### storeRegion: it moves MSG_LEN, BLK_COUNT, P, Q, MA, MM and the buffers only -/

@[simp] theorem storeRegion_cfg (v : Word) (s : State) (r : Region) : (storeRegion v s r).cfg = s.cfg := by
  cases r with
  | wide w j => cases w <;> simp only [storeRegion]
  | _ => rfl
@[simp] theorem storeRegion_status (v : Word) (s : State) (r : Region) : (storeRegion v s r).status = s.status := by
  cases r with
  | wide w j => cases w <;> simp only [storeRegion]
  | _ => rfl
@[simp] theorem storeRegion_doneIe (v : Word) (s : State) (r : Region) : (storeRegion v s r).doneIe = s.doneIe := by
  cases r with
  | wide w j => cases w <;> simp only [storeRegion]
  | _ => rfl
@[simp] theorem storeRegion_blockLen (v : Word) (s : State) (r : Region) : (storeRegion v s r).blockLen = s.blockLen := by
  cases r with
  | wide w j => cases w <;> simp only [storeRegion]
  | _ => rfl
@[simp] theorem storeRegion_n (v : Word) (s : State) (r : Region) : (storeRegion v s r).n = s.n := by
  cases r with
  | wide w j => cases w <;> simp only [storeRegion]
  | _ => rfl
@[simp] theorem storeRegion_d (v : Word) (s : State) (r : Region) : (storeRegion v s r).d = s.d := by
  cases r with
  | wide w j => cases w <;> simp only [storeRegion]
  | _ => rfl
@[simp] theorem storeRegion_mr (v : Word) (s : State) (r : Region) : (storeRegion v s r).mr = s.mr := by
  cases r with
  | wide w j => cases w <;> simp only [storeRegion]
  | _ => rfl
@[simp] theorem storeRegion_phase (v : Word) (s : State) (r : Region) : (storeRegion v s r).phase = s.phase := by
  cases r with
  | wide w j => cases w <;> simp only [storeRegion]
  | _ => rfl
@[simp] theorem storeRegion_blk (v : Word) (s : State) (r : Region) : (storeRegion v s r).blk = s.blk := by
  cases r with
  | wide w j => cases w <;> simp only [storeRegion]
  | _ => rfl
@[simp] theorem storeRegion_mxPending (v : Word) (s : State) (r : Region) : (storeRegion v s r).mxPending = s.mxPending := by
  cases r with
  | wide w j => cases w <;> simp only [storeRegion]
  | _ => rfl
@[simp] theorem storeRegion_checked (v : Word) (s : State) (r : Region) : (storeRegion v s r).checked = s.checked := by
  cases r with
  | wide w j => cases w <;> simp only [storeRegion]
  | _ => rfl
@[simp] theorem storeRegion_phi (v : Word) (s : State) (r : Region) : (storeRegion v s r).phi = s.phi := by
  cases r with
  | wide w j => cases w <;> simp only [storeRegion]
  | _ => rfl
@[simp] theorem storeRegion_mic (v : Word) (s : State) (r : Region) : (storeRegion v s r).mic = s.mic := by
  cases r with
  | wide w j => cases w <;> simp only [storeRegion]
  | _ => rfl
@[simp] theorem storeRegion_acc (v : Word) (s : State) (r : Region) : (storeRegion v s r).acc = s.acc := by
  cases r with
  | wide w j => cases w <;> simp only [storeRegion]
  | _ => rfl
@[simp] theorem storeRegion_tp (v : Word) (s : State) (r : Region) : (storeRegion v s r).tp = s.tp := by
  cases r with
  | wide w j => cases w <;> simp only [storeRegion]
  | _ => rfl
@[simp] theorem storeRegion_seg (v : Word) (s : State) (r : Region) : (storeRegion v s r).seg = s.seg := by
  cases r with
  | wide w j => cases w <;> simp only [storeRegion]
  | _ => rfl
@[simp] theorem storeRegion_answers (v : Word) (s : State) (r : Region) : (storeRegion v s r).answers = s.answers := by
  cases r with
  | wide w j => cases w <;> simp only [storeRegion]
  | _ => rfl
@[simp] theorem storeRegion_mxReq (v : Word) (s : State) (r : Region) : (storeRegion v s r).mxReq = s.mxReq := by
  cases r with
  | wide w j => cases w <;> simp only [storeRegion]
  | _ => rfl
@[simp] theorem storeRegion_mxRsp (v : Word) (s : State) (r : Region) : (storeRegion v s r).mxRsp = s.mxRsp := by
  cases r with
  | wide w j => cases w <;> simp only [storeRegion]
  | _ => rfl
@[simp] theorem storeRegion_mxLive (v : Word) (s : State) (r : Region) : (storeRegion v s r).mxLive = s.mxLive := by
  cases r with
  | wide w j => cases w <;> simp only [storeRegion]
  | _ => rfl
@[simp] theorem storeRegion_inReset (v : Word) (s : State) (r : Region) : (storeRegion v s r).inReset = s.inReset := by
  cases r with
  | wide w j => cases w <;> simp only [storeRegion]
  | _ => rfl
@[simp] theorem storeRegion_program (v : Word) (s : State) (r : Region) : (storeRegion v s r).program = s.program := by
  cases r with
  | wide w j => cases w <;> simp only [storeRegion]
  | _ => rfl
@[simp] theorem storeRegion_turn (v : Word) (s : State) (r : Region) : (storeRegion v s r).turn = s.turn := by
  cases r with
  | wide w j => cases w <;> simp only [storeRegion]
  | _ => rfl
@[simp] theorem storeRegion_sched (v : Word) (s : State) (r : Region) : (storeRegion v s r).sched = s.sched := by
  cases r with
  | wide w j => cases w <;> simp only [storeRegion]
  | _ => rfl
@[simp] theorem storeRegion_draws (v : Word) (s : State) (r : Region) : (storeRegion v s r).draws = s.draws := by
  cases r with
  | wide w j => cases w <;> simp only [storeRegion]
  | _ => rfl
@[simp] theorem storeRegion_epoch (v : Word) (s : State) (r : Region) : (storeRegion v s r).epoch = s.epoch := by
  cases r with
  | wide w j => cases w <;> simp only [storeRegion]
  | _ => rfl
@[simp] theorem storeRegion_trace (v : Word) (s : State) (r : Region) : (storeRegion v s r).trace = s.trace := by
  cases r with
  | wide w j => cases w <;> simp only [storeRegion]
  | _ => rfl
/-- A word of a register leaves the buffers alone. -/
theorem storeRegion_wide_mem (v : Word) (s : State) (w : Wide) (j : Nat) : (storeRegion v s (.wide w j)).mem = s.mem := by
  cases w <;> simp only [storeRegion]

end Sys2Proof.Machine
end

