-- ==== Sys2Proof/Laws/Ops.lean ====
section
/-! SUPPORT. One specification lemma per shared operation and per meaning: what it can do, which later proofs cite instead of
unfolding it. -/

namespace Sys2Proof.Machine

/-! ### Configurations -/

/-- The bounds that R6's constraints give the derived parameters (spec/00_scope.md R7, spec/20_memory.md R61). -/
theorem legal_bounds {c : Config} (h : c.Legal) :
    1 ≤ c.wpp ∧ c.wpp ≤ 32 ∧ c.wpn = 2 * c.wpp ∧ c.pw = 32 * c.wpp ∧ c.nw = 32 * c.wpn ∧
    c.maxblk * c.wpn ≤ 16384 ∧ c.maxblk ≤ 16384 := by
  obtain ⟨h1, h2, h3, -, -, -, -, h8⟩ := h
  have a1 : c.wpn = 2 * c.wpp := by unfold Config.wpn Config.wpp Config.nw; omega
  have a2 : c.pw = 32 * c.wpp := by unfold Config.wpp; omega
  have a3 : 1 ≤ c.wpp := by omega
  refine ⟨a3, by omega, a1, a2, by unfold Config.nw; omega, ?_, h8.trans (Nat.div_le_self _ _)⟩
  exact le_trans (Nat.mul_le_mul_right _ h8) (Nat.div_mul_le_self _ _)

/-! ### The bus -/

theorem busTarget_aligned {c : Config} {a : Addr} {r : Region} (h : a.toNat % 4 = 0) (hr : region c a.toNat = some r) :
    busTarget c a = some r := by simp [busTarget, h, hr]

@[simp] theorem busTarget_ctrl (c : Config) : busTarget c 0#17 = some .ctrl := rfl
@[simp] theorem busTarget_status (c : Config) : busTarget c 4#17 = some .status := rfl
@[simp] theorem busTarget_irqEn (c : Config) : busTarget c 8#17 = some .irqEn := rfl
@[simp] theorem busTarget_msgLen (c : Config) : busTarget c 12#17 = some .msgLen := rfl
@[simp] theorem busTarget_blkCount (c : Config) : busTarget c 16#17 = some .blkCount := rfl
@[simp] theorem busTarget_blockLen (c : Config) : busTarget c 20#17 = some .blockLen := rfl
@[simp] theorem busTarget_e (c : Config) : busTarget c 24#17 = some .e := rfl

/-- A read of nothing. -/
theorem execRd_unmapped {a : Addr} {s : State} (w : Word) (h : busTarget s.cfg a = none) :
    execRd a w s = .next (respond .slverr 0 s) := by simp [execRd, h]

/-- A read of a live region. -/
theorem execRd_live {a : Addr} {s : State} {r : Region} (w : Word) (h : busTarget s.cfg a = some r)
    (hl : s.status.busy = false ∨ held r = false) : execRd a w s = .next (respond .okay (readRegion s r) s) := by
  have : (s.status.busy && held r) = false := by rcases hl with h | h <;> simp [h]
  simp [execRd, h, this]

/-- A read of a held region while a command runs. -/
theorem execRd_held {a : Addr} {s : State} {r : Region} (w : Word) (h : busTarget s.cfg a = some r)
    (hb : s.status.busy = true) (hh : held r = true) :
    execRd a w s = .next (respond .okay (Config.freeWord s.draws) { s with draws := s.draws + 1 }) := by
  simp [execRd, h, hb, hh]

/-- A write to nothing. -/
theorem execWr_unmapped {a : Addr} {s : State} (w : Word) (h : busTarget s.cfg a = none) :
    execWr a w s = .next (respond .slverr 0 s) := by simp [execWr, h]

/-- A write to a region. -/
theorem execWr_mapped {a : Addr} {s : State} {r : Region} (w : Word) (h : busTarget s.cfg a = some r) :
    execWr a w s = .next (respond .okay 0 (writeRegion w s r)) := by simp [execWr, h]

/-- Everything a read can do: it emits one response, and may draw a free word. -/
theorem execRd_cases (a : Addr) (w : Word) (s : State) :
    ∃ r v k, execRd a w s = .next (respond r v { s with draws := k }) ∧ (k = s.draws ∨ k = s.draws + 1) := by
  unfold execRd
  split
  · exact ⟨_, _, _, rfl, .inl rfl⟩
  · split
    · exact ⟨_, _, _, rfl, .inr rfl⟩
    · exact ⟨_, _, _, rfl, .inl rfl⟩

/-- Everything a bus write can do. -/
theorem execWr_cases (a : Addr) (w : Word) (s : State) :
    execWr a w s = .next (respond .slverr 0 s) ∨
    ∃ r, busTarget s.cfg a = some r ∧ execWr a w s = .next (respond .okay 0 (writeRegion w s r)) := by
  unfold execWr
  split
  · exact .inl rfl
  · exact .inr ⟨_, ‹_›, rfl⟩

/-- Everything the effect of a write on a region can be. -/
theorem writeRegion_cases (v : Word) (s : State) (r : Region) :
    (r = .ctrl ∧ writeRegion v s r = commandWrite v s) ∨
    (r = .status ∧ writeRegion v s r = acknowledge v s) ∨
    (r = .irqEn ∧ writeRegion v s r = { s with doneIe := v.getLsbD 0 }) ∨
    (readOnly r = true ∧ writeRegion v s r = s) ∨
    (s.status.busy = true ∧ writeRegion v s r = ignoredWrite s) ∨
    (s.status.busy = false ∧ r ≠ .ctrl ∧ r ≠ .status ∧ r ≠ .irqEn ∧ readOnly r = false ∧
      writeRegion v s r = storeRegion v s r) := by
  unfold writeRegion
  split_ifs with h1 h2 h3 h4 h5
  · exact .inl ⟨h1, rfl⟩
  · exact .inr (.inl ⟨h2, rfl⟩)
  · exact .inr (.inr (.inl ⟨h3, rfl⟩))
  · exact .inr (.inr (.inr (.inl ⟨h4, rfl⟩)))
  · exact .inr (.inr (.inr (.inr (.inl ⟨h5, rfl⟩))))
  · exact .inr (.inr (.inr (.inr (.inr ⟨by simpa using h5, h1, h2, h3, by simpa using h4, rfl⟩))))

/-! ### Commands -/

/-- Everything a write to CTRL can do. -/
theorem commandWrite_cases (v : Word) (s : State) :
    (s.status.busy = true ∧ commandWrite v s = ignoredWrite s) ∨
    (s.status.busy = false ∧ decodeCommand v = .nop ∧ commandWrite v s = s) ∨
    (s.status.busy = false ∧ decodeCommand v = .badcmd ∧
      commandWrite v s = errorCompletion .badcmd (startEffects s)) ∨
    (s.status.busy = false ∧ ∃ ph, ph ≠ .idle ∧ commandWrite v s = startCommand ph s) := by
  unfold commandWrite
  cases hb : s.status.busy with
  | true => simp
  | false =>
    simp only [Bool.false_eq_true, if_false, false_and, true_and, false_or]
    split <;> rename_i h
    · exact .inl ⟨h, rfl⟩
    · exact .inr (.inl ⟨h, rfl⟩)
    all_goals exact .inr (.inr ⟨_, by simp, rfl⟩)

/-- A command is either the next internal step of the running one, or a write of its word to CTRL. -/
theorem running_iff (ph : Phase) (s : State) : running ph s = true ↔ s.turn = .controller ∧ s.phase = ph := by
  simp [running]

theorem running_false_of_turn {ph : Phase} {s : State} (h : s.turn ≠ .controller) : running ph s = false := by
  simp [running, h]

theorem execDerive_running {s : State} (h : running .derive s = true) : execDerive s = .next (deriveStep s) := by
  simp [execDerive, h]
theorem execEncrypt_running {s : State} (h : running .encrypt s = true) : execEncrypt s = .next (encryptStep s) := by
  simp [execEncrypt, h]
theorem execDecrypt_running {s : State} (h : running .decrypt s = true) : execDecrypt s = .next (decryptStep s) := by
  simp [execDecrypt, h]
theorem execModinv_running {s : State} (h : running .modinv s = true) : execModinv s = .next (modinvStep s) := by
  simp [execModinv, h]

theorem execDerive_written {s : State} (h : running .derive s = false) : execDerive s = .next (ctrlWrite 1 s) := by
  simp [execDerive, h]
theorem execEncrypt_written {s : State} (h : running .encrypt s = false) : execEncrypt s = .next (ctrlWrite 2 s) := by
  simp [execEncrypt, h]
theorem execDecrypt_written {s : State} (h : running .decrypt s = false) : execDecrypt s = .next (ctrlWrite 3 s) := by
  simp [execDecrypt, h]
theorem execModinv_written {s : State} (h : running .modinv s = false) : execModinv s = .next (ctrlWrite 4 s) := by
  simp [execModinv, h]

/-! ### Buffers: what reading depends on -/

theorem byteAt_congr {s t : State} (hm : t.mem = s.mem) (he : t.epoch = s.epoch) (x : Nat) : byteAt t x = byteAt s x := by
  simp [byteAt, hm, he]

theorem bytesAt_congr {s t : State} (a k : Nat) (h : ∀ x, a ≤ x → x < a + k → byteAt t x = byteAt s x) :
    bytesAt t a k = bytesAt s a k := by
  induction k generalizing a with
  | zero => rfl
  | succ k ih =>
    rw [bytesAt, bytesAt, h a le_rfl (by omega), ih]
    intro x h1 h2; exact h x (by omega) (by omega)

theorem ctEntry_congr {s t : State} (hm : t.mem = s.mem) (he : t.epoch = s.epoch) (hc : t.cfg = s.cfg) (i : Nat) :
    ctEntry t i = ctEntry s i := by
  rw [ctEntry, ctEntry, hc, bytesAt_congr _ _ fun x _ _ => byteAt_congr hm he x]

theorem msgBits_congr {s t : State} (len : Nat) (h : ∀ i, i < len → msgByte t i = msgByte s i) :
    msgBits t len = msgBits s len := by
  simp only [msgBits, List.flatMap]
  congr 1
  exact List.map_congr_left fun i hi => by rw [h i (List.mem_range.1 hi)]

/-- A block value depends on MSG_LEN, BLOCK_LEN and the message bytes only. -/
theorem blockValue_congr {s t : State} (hl : t.msgLen = s.msgLen) (hb : t.blockLen = s.blockLen)
    (h : ∀ i, i < s.msgLen.toNat → msgByte t i = msgByte s i) (i : Nat) : blockValue t i = blockValue s i := by
  simp only [blockValue, msgCount, hl, hb]
  rw [msgBits_congr _ h]

/-! ### What a mapped address tells -/

theorem busTarget_inv {c : Config} {a : Addr} {r : Region} (h : busTarget c a = some r) :
    a.toNat % 4 = 0 ∧ region c a.toNat = some r := by
  unfold busTarget at h
  split_ifs at h with q
  exact ⟨q, h⟩

/-- A window's word index is below the number of its words, and a buffer word lies in its buffer (20_memory.md R61). -/
theorem region_inv {c : Config} {a : Nat} {r : Region} (h : region c a = some r) :
    (∀ w j, r = .wide w j → j < wideWords c w) ∧
    (∀ w, r = .msgBuf w → w = (a - 0x1000) / 4 ∧ 0x1000 ≤ a ∧ a < 0x1000 + c.maxlen) ∧
    (∀ u, r = .ctBuf u → u = (a - 0x10000) / 4 ∧ 0x10000 ≤ a ∧ a < 0x10000 + 4 * (c.maxblk * c.wpn)) := by
  unfold region at h
  split_ifs at h with i1 i2 i3 i4
  · generalize a / 4 = k at h
    unfold fixedReg at h
    split at h <;> simp at h <;> subst h <;> simp
  · split at h
    · split_ifs at h
      simp at h; subst h; simpa
    · simp at h
  · simp at h; subst h; simp; omega
  · simp at h; subst h; simp; omega

/-! ### What happens to the buffer memory -/

/-- A stored word changes the memory by writing bytes, or not at all. -/
theorem storeRegion_mem (v : Word) (s : State) (r : Region) :
    (storeRegion v s r).mem = s.mem ∨ ∃ a bs, (storeRegion v s r).mem = memSetBytes s.mem a bs := by
  cases r with
  | msgBuf w => exact .inr ⟨_, _, rfl⟩
  | ctBuf u => exact .inr ⟨_, _, rfl⟩
  | wide w j => left; cases w <;> simp only [storeRegion]
  | _ => left; simp only [storeRegion]

/-- A step of ENCRYPT changes the memory by writing the entries of its answers, or not at all. -/
theorem encryptStep_mem (s : State) :
    (encryptStep s).mem = s.mem ∨ (encryptStep s).mem = memSetEntries s.cfg s.mem 0 s.answers := by
  unfold encryptStep
  split_ifs <;> (try split) <;> simp [encryptCommit, completeCommand, absorbModExp, issueModExp, errorCompletion]

/-- A step of DECRYPT changes the memory by writing the bytes of ACC to MSG, or not at all. -/
theorem decryptStep_mem (s : State) :
    (decryptStep s).mem = s.mem ∨
      (decryptStep s).mem = memSetBytes s.mem (msgAddr 0) (bitsBytes s.acc (msgCount s)) := by
  unfold decryptStep
  split_ifs <;> (try split) <;>
    simp [decryptCommit, completeCommand, absorbModExp, issueModExp, errorCompletion, decryptAppend]

end Sys2Proof.Machine
end

