-- ==== Sys2Proof/Laws/PerInstr.lean ====
section
/-! SUPPORT. Statements about every instruction as syntax, one lemma per constructor: a CTRL word has four bytes and a BUS tuple
seven (spec/30_encoding.md R90, R99). -/

namespace Sys2Proof.Laws

/-- How many bytes the format of an instruction has. -/
def packetLength : Instr → Nat
  | .nop => 4
  | .derive => 4
  | .encrypt => 4
  | .decrypt => 4
  | .modinv => 4
  | .badcmd _ => 4
  | .rd _ _ => 7
  | .wr _ _ => 7

namespace EncodedLength

/-- The encoding of an instruction has its format's length. -/
def Statement (i : Instr) : Prop := (encode i).length = packetLength i

theorem nop : Statement .nop := leBytes_length 4 _
theorem derive : Statement .derive := leBytes_length 4 _
theorem encrypt : Statement .encrypt := leBytes_length 4 _
theorem decrypt : Statement .decrypt := leBytes_length 4 _
theorem modinv : Statement .modinv := leBytes_length 4 _
theorem badcmd (word : Word) : Statement (.badcmd word) := leBytes_length 4 _
theorem rd (paddr : Addr) (pwdata : Word) : Statement (.rd paddr pwdata) := leBytes_length 7 _
theorem wr (paddr : Addr) (pwdata : Word) : Statement (.wr paddr pwdata) := leBytes_length 7 _

end EncodedLength

end Sys2Proof.Laws
end

