-- ==== Sys2Proof/Laws/Progress.lean ====
section
/-! SUPPORT. What the block commands' checks and values depend on, and what passing the checks gives. -/

namespace Sys2Proof.Machine

theorem blockCount_congr {s t : State} (hl : t.msgLen = s.msgLen) (hb : t.blockLen = s.blockLen) :
    blockCount t = blockCount s := by simp only [blockCount, msgCount, hl, hb]

theorem encryptCheck_congr {s t : State} (hc : t.cfg = s.cfg) (hk : t.status.keyValid = s.status.keyValid)
    (hl : t.msgLen = s.msgLen) (hb : t.blockLen = s.blockLen) : encryptCheck t = encryptCheck s := by
  unfold encryptCheck msgCount
  rw [blockCount_congr hl hb, hc, hk, hl]

theorem cipherValue_congr {s t : State} (hl : t.msgLen = s.msgLen) (hb : t.blockLen = s.blockLen) (hn : t.n = s.n)
    (hm : t.mem = s.mem) (he : t.epoch = s.epoch) : cipherValue t = cipherValue s := by
  funext i
  rw [cipherValue, cipherValue, hn, blockValue_congr hl hb fun i _ => byteAt_congr hm he _]

theorem decryptCheck_congr {s t : State} (hc : t.cfg = s.cfg) (hk : t.status.keyValid = s.status.keyValid)
    (hl : t.msgLen = s.msgLen) (hb : t.blockLen = s.blockLen) (hn : t.n = s.n) (hbc : t.blkCount = s.blkCount)
    (hm : t.mem = s.mem) (he : t.epoch = s.epoch) : decryptCheck t = decryptCheck s := by
  have hv : ctEntry t = ctEntry s := funext (ctEntry_congr hm he hc)
  have hcc : cipherCount t = cipherCount s := by simp only [cipherCount, hbc]
  have ho : cipherOutOfRange t = cipherOutOfRange s := by simp only [cipherOutOfRange, hv, hcc, hn]
  unfold decryptCheck msgCount
  rw [blockCount_congr hl hb, ho, hcc, hc, hk, hl]

theorem reassembled_congr {s t : State} (hc : t.cfg = s.cfg) (hl : t.msgLen = s.msgLen) (hb : t.blockLen = s.blockLen)
    (hn : t.n = s.n) (hd : t.d = s.d) (hbc : t.blkCount = s.blkCount) (hm : t.mem = s.mem) (he : t.epoch = s.epoch) :
    reassembled t = reassembled s := by
  have hv : ctEntry t = ctEntry s := funext (ctEntry_congr hm he hc)
  funext i
  induction i with
  | zero => rfl
  | succ i ih => simp only [reassembled, ih, plainValue, cipherCount, msgCount, hv, hl, hb, hn, hd, hbc]

/-- What it takes for ENCRYPT's checks to pass (spec/42_encrypt.md R161). -/
theorem encryptCheck_none {s : State} (h : encryptCheck s = none) :
    s.status.keyValid = true ∧ msgCount s ≤ s.cfg.maxlen ∧ blockCount s ≤ s.cfg.maxblk := by
  unfold encryptCheck at h
  split_ifs at h
  simp_all

/-- What it takes for DECRYPT's checks to pass (spec/43_decrypt.md R181, R182). -/
theorem decryptCheck_none {s : State} (h : decryptCheck s = none) :
    s.status.keyValid = true ∧ msgCount s ≤ s.cfg.maxlen ∧ cipherCount s ≤ s.cfg.maxblk ∧
    cipherCount s = blockCount s ∧ ∀ i, i < cipherCount s → ctEntry s i < s.n := by
  unfold decryptCheck at h
  split_ifs at h
  simp_all [cipherOutOfRange]

/-- No check names the code of success. -/
theorem encryptCheck_ne (s : State) : encryptCheck s ≠ some .none := by
  unfold encryptCheck; split_ifs <;> simp

theorem decryptCheck_ne (s : State) : decryptCheck s ≠ some .none := by
  unfold decryptCheck; split_ifs <;> simp

/-- A valid key gives a modulus of at least 4 and a block length below its bit length (spec/10_state.md R50). -/
theorem key_facts {s : State} (h : KeyInv s) (hk : s.status.keyValid = true) :
    4 ≤ s.n ∧ s.blockLen.toNat = bitlen s.n - 1 ∧ 2 ≤ s.blockLen.toNat := by
  unfold KeyInv at h
  rw [if_pos hk] at h
  obtain ⟨p, q, hp, hq, hn, -, -, -, hb⟩ := h
  have h4 : 4 ≤ s.n := by rw [hn]; nlinarith
  refine ⟨h4, hb, ?_⟩
  have h1 := lt_two_pow_bitlen s.n
  by_contra hc
  have h2 : 2 ^ bitlen s.n ≤ 2 ^ 2 := Nat.pow_le_pow_right (by decide) (by omega)
  omega

/-- When every plain value is the block value of a message, DECRYPT rebuilds that message's chunks, and each fits
(spec/43_decrypt.md R184 to R188). -/
theorem reassembled_eq {x s : State} (hb : x.blockLen = s.blockLen) (hl : x.msgLen = s.msgLen)
    (hc : cipherCount x = blockCount s) (h1 : 1 ≤ s.blockLen.toNat)
    (hv : ∀ i, i < blockCount s → plainValue x i = blockValue s i) (i : Nat) (hi : i ≤ blockCount s) :
    reassembled x i = ((List.range i).flatMap fun i =>
      render (blockValue s i) (min s.blockLen.toNat (8 * msgCount s - i * s.blockLen.toNat)), false) := by
  have hbc : blockCount x = blockCount s := blockCount_congr hl hb
  have hm : msgCount x = msgCount s := by simp only [msgCount, hl]
  have hk : 8 * msgCount s ≤ blockCount s * s.blockLen.toNat ∧
      (blockCount s ≠ 0 → (blockCount s - 1) * s.blockLen.toNat < 8 * msgCount s) := ceilDiv_bounds _ h1
  induction i with
  | zero => rfl
  | succ i ih =>
    have len := reassembled_length (s := x) (by rw [hb]; exact h1) (by rw [hc, hbc]) i (by rw [hc]; omega)
    have hi3 := hk.2 (by omega)
    have hi2 := Nat.mul_le_mul_right s.blockLen.toNat (show i ≤ blockCount s - 1 by omega)
    have w : renderWidth x.blockLen.toNat (msgCount x) (cipherCount x) i (reassembled x i).1.length =
        min s.blockLen.toNat (8 * msgCount s - i * s.blockLen.toNat) := by
      rw [len, hb, hm, hc, renderWidth]
      split_ifs with q
      · have h2 := Nat.mul_le_mul_right s.blockLen.toNat (show i + 1 ≤ blockCount s - 1 by omega)
        rw [Nat.succ_mul i] at h2; omega
      · have h2 : i + 1 = blockCount s := by omega
        rw [← h2, Nat.succ_mul i] at hk; omega
    have fits : blockValue s i < 2 ^ min s.blockLen.toNat (8 * msgCount s - i * s.blockLen.toNat) := by
      refine lt_of_lt_of_le (bitsVal_lt _) (Nat.pow_le_pow_right (by decide) ((bitSlice_length_le _ _ _).trans ?_))
      omega
    rw [reassembled, w, hv i (by omega), ih (by omega), appendBlock, List.range_succ, List.flatMap_append]
    simp [fits]

end Sys2Proof.Machine
end

