-- ==== Sys2Proof/Laws/Step.lean ====
section
/-! SUPPORT. Everything a step can do, said once: `Effect s u` lists the elementary effects, `exec_effect` and `step_effect` say
that an instruction and a step have one of them. Later proofs take cases on it instead of unfolding `step`. -/

namespace Sys2Proof.Machine

/-- One elementary effect of a step, before the move passes on. -/
inductive Effect (s : State) : State → Prop
  /-- Nothing. -/
  | idle : Effect s s
  /-- A bus response alone. -/
  | read (r : Resp) (w : Word) (k : Nat) : s.inReset = false → Effect s (respond r w { s with draws := k })
  /-- A write honoured without a change: a read-only register, or NOP. -/
  | quiet : s.inReset = false → Effect s (respond .okay 0 s)
  /-- A write ignored because a command runs. -/
  | ignored : s.inReset = false → s.status.busy = true → Effect s (respond .okay 0 (ignoredWrite s))
  /-- BADCMD. -/
  | badcmd : s.inReset = false → s.status.busy = false →
      Effect s (respond .okay 0 (errorCompletion .badcmd (startEffects s)))
  /-- The start of a command. -/
  | start (ph : Phase) : s.inReset = false → s.status.busy = false → ph ≠ .idle →
      Effect s (respond .okay 0 (startCommand ph s))
  /-- The W1C write of STATUS. -/
  | ack (v : Word) : s.inReset = false → Effect s (respond .okay 0 (acknowledge v s))
  /-- The write of IRQ_EN. -/
  | enable (b : Bool) : s.inReset = false → Effect s (respond .okay 0 { s with doneIe := b })
  /-- A stored word. -/
  | store (a : Addr) (v : Word) (r : Region) : s.inReset = false → s.status.busy = false →
      busTarget s.cfg a = some r → readOnly r = false → Effect s (respond .okay 0 (storeRegion v s r))
  | derive : s.inReset = false → s.phase = .derive → s.turn = .controller → Effect s (deriveStep s)
  | encrypt : s.inReset = false → s.phase = .encrypt → s.turn = .controller → Effect s (encryptStep s)
  | decrypt : s.inReset = false → s.phase = .decrypt → s.turn = .controller → Effect s (decryptStep s)
  | modinv : s.inReset = false → s.phase = .modinv → s.turn = .controller → Effect s (modinvStep s)
  /-- The engine's answer. -/
  | engine : s.turn = .engine → Effect s (engineAnswer s)
  | reset : s.turn = .resetLow → Effect s (assertReset s)
  | release : s.turn = .resetHigh → Effect s (releaseReset s)

/-- A write of a word to CTRL has one of these effects. -/
theorem ctrlWrite_effect (v : Word) {s : State} (hr : s.inReset = false) : Effect s (ctrlWrite v s) := by
  unfold ctrlWrite
  rcases commandWrite_cases v s with ⟨h, e⟩ | ⟨-, -, e⟩ | ⟨h, -, e⟩ | ⟨h, ph, hp, e⟩ <;> rw [e]
  · exact .ignored hr h
  · exact .quiet hr
  · exact .badcmd hr h
  · exact .start ph hr h hp

/-- Every instruction answers a next state, and that by one elementary effect. -/
theorem exec_effect (i : Instr) {s : State} (hr : s.inReset = false) : ∃ t, exec i s = .next t ∧ Effect s t := by
  cases i with
  | nop => exact ⟨_, rfl, ctrlWrite_effect _ hr⟩
  | badcmd v => exact ⟨_, rfl, ctrlWrite_effect _ hr⟩
  | derive =>
    cases h : running .derive s with
    | true => exact ⟨_, execDerive_running h, .derive hr ((running_iff _ _).1 h).2 ((running_iff _ _).1 h).1⟩
    | false => exact ⟨_, execDerive_written h, ctrlWrite_effect _ hr⟩
  | encrypt =>
    cases h : running .encrypt s with
    | true => exact ⟨_, execEncrypt_running h, .encrypt hr ((running_iff _ _).1 h).2 ((running_iff _ _).1 h).1⟩
    | false => exact ⟨_, execEncrypt_written h, ctrlWrite_effect _ hr⟩
  | decrypt =>
    cases h : running .decrypt s with
    | true => exact ⟨_, execDecrypt_running h, .decrypt hr ((running_iff _ _).1 h).2 ((running_iff _ _).1 h).1⟩
    | false => exact ⟨_, execDecrypt_written h, ctrlWrite_effect _ hr⟩
  | modinv =>
    cases h : running .modinv s with
    | true => exact ⟨_, execModinv_running h, .modinv hr ((running_iff _ _).1 h).2 ((running_iff _ _).1 h).1⟩
    | false => exact ⟨_, execModinv_written h, ctrlWrite_effect _ hr⟩
  | rd a w =>
    obtain ⟨r, v, k, e, -⟩ := execRd_cases a w s
    exact ⟨_, e, .read r v k hr⟩
  | wr a w =>
    rcases execWr_cases a w s with e | ⟨r, ht, e⟩
    · exact ⟨_, e, .read .slverr 0 s.draws hr⟩
    · refine ⟨_, e, ?_⟩
      rcases writeRegion_cases w s r with ⟨-, e⟩ | ⟨-, e⟩ | ⟨-, e⟩ | ⟨-, e⟩ | ⟨h, e⟩ | ⟨h, -, -, -, ho, e⟩ <;> rw [e]
      · exact ctrlWrite_effect w hr
      · exact .ack w hr
      · exact .enable _ hr
      · exact .quiet hr
      · exact .ignored hr h
      · exact .store a w r hr h ht ho

theorem turn_cases (t : Turn) :
    t = .host ∨ t = .controller ∨ t = .engine ∨ t = .resetLow ∨ t = .resetHigh := by cases t <;> simp

/-- Taking the next instruction leaves everything but the host's program alone, and nothing is taken in reset. -/
theorem fetch_state {s s' : State} {b : List Byte} (h : fetch s = some (b, s')) :
    s.inReset = false ∧ (∃ l, s' = { s with program := l }) ∧
      (s.turn = .host ∨ s.turn = .controller ∧ ∃ v, phaseWord s.phase = some v ∧ b = ctrlPacket v) := by
  unfold fetch at h
  split at h
  · cases h
  · rename_i hr
    refine ⟨by simpa using hr, ?_⟩
    rcases turn_cases s.turn with ht | ht | ht | ht | ht <;> simp only [ht] at h
    · split at h <;> simp only [Option.some.injEq, Prod.mk.injEq, reduceCtorEq] at h
      · rename_i rest _
        exact ⟨⟨rest, by rw [ht]; exact h.2.symm⟩, .inl ht⟩
      · rename_i rest _
        refine ⟨?_, .inl ht⟩
        obtain ⟨-, rfl⟩ := h
        split_ifs
        · exact ⟨s.program, rfl⟩
        · exact ⟨rest, by rw [ht]⟩
    · cases hp : phaseWord s.phase with
      | none => rw [hp] at h; cases h
      | some v =>
        rw [hp] at h
        simp only [Option.map_some, Option.some.injEq, Prod.mk.injEq] at h
        exact ⟨⟨s.program, h.2.symm⟩, .inr ⟨ht, v, rfl, h.1.symm⟩⟩
    all_goals cases h

/-- Everything a step can do: at most the head of the host's program is taken, one elementary effect happens, and the move passes
on. -/
theorem step_effect {s t : State} (h : step s = .next t) :
    ∃ l u, Effect { s with program := l } u ∧ t = advanceTurn u := by
  unfold step at h
  cases hf : fetch s with
  | none =>
    rw [hf] at h
    simp only [otherMove] at h
    suffices hs : ∃ u, Effect s u ∧ t = advanceTurn u from ⟨s.program, hs⟩
    rcases turn_cases s.turn with ht | ht | ht | ht | ht <;> simp only [ht] at h
    · split_ifs at h
      exact ⟨s, .idle, by simpa using h.symm⟩
    all_goals simp only [Host.Outcome.next.injEq] at h
    · exact ⟨s, .idle, h.symm⟩
    · exact ⟨_, .engine ht, h.symm⟩
    · exact ⟨_, .reset ht, h.symm⟩
    · exact ⟨_, .release ht, h.symm⟩
  | some p =>
    obtain ⟨b, s'⟩ := p
    obtain ⟨hr, ⟨l, rfl⟩, -⟩ := fetch_state hf
    rw [hf] at h
    simp only at h
    cases hd : decode b with
    | error e => rw [hd] at h; cases h
    | ok i =>
      rw [hd] at h
      obtain ⟨u, hu, he⟩ := exec_effect (s := { s with program := l }) i hr
      simp only [hu, afterExec, Host.Outcome.next.injEq] at h
      exact ⟨l, u, he, h.symm⟩

/-! ### The controller's moves -/

/-- The next internal step of the command that phase names. -/
def internalStep (s : State) : State :=
  match s.phase with
  | .idle => s
  | .derive => deriveStep s
  | .encrypt => encryptStep s
  | .decrypt => decryptStep s
  | .modinv => modinvStep s

/-- On its move the controller takes the internal step of the running command, and nothing else. -/
theorem step_controller {s : State} (ht : s.turn = .controller) (hr : s.inReset = false) :
    step s = .next (advanceTurn (internalStep s)) := by
  have hd : ∀ v : Word, decode (ctrlPacket v) = .ok (decodeCtrl v) := decode_ctrlPacket
  cases hp : s.phase <;>
    simp only [step, fetch, hr, ht, hp, phaseWord, Option.map_some, Option.map_none, otherMove, internalStep, hd,
      Bool.false_eq_true, if_false]
  · rw [show decodeCtrl 1 = .derive by decide]
    simp only [exec, execDerive_running ((running_iff _ _).2 ⟨ht, hp⟩), afterExec]
  · rw [show decodeCtrl 2 = .encrypt by decide]
    simp only [exec, execEncrypt_running ((running_iff _ _).2 ⟨ht, hp⟩), afterExec]
  · rw [show decodeCtrl 3 = .decrypt by decide]
    simp only [exec, execDecrypt_running ((running_iff _ _).2 ⟨ht, hp⟩), afterExec]
  · rw [show decodeCtrl 4 = .modinv by decide]
    simp only [exec, execModinv_running ((running_iff _ _).2 ⟨ht, hp⟩), afterExec]

/-- The engine's move. -/
theorem step_engine {s : State} (ht : s.turn = .engine) : step s = .next (advanceTurn (engineAnswer s)) := by
  have hf : fetch s = none := by unfold fetch; split <;> simp [ht]
  simp [step, hf, otherMove, ht]

end Sys2Proof.Machine
end

