-- ==== Sys2Proof/Laws/Run.lean ====
section
/-! SUPPORT. Runs of several steps: the one-step and the joining lemma, what a run keeps, and how the fair schedule hands the
move back to a controller that does not hold. -/

namespace Sys2Proof.Machine

/-- Some number of steps leads from s to t. -/
def Reach (s t : State) : Prop := ∃ k, core.run k s = .next t

theorem run_next (M : Host.Core) {s u : M.State} (k : Nat) (h : M.step s = .next u) : M.run (k + 1) s = M.run k u := by
  rw [Host.Core.run, h]

theorem run_add (M : Host.Core) (j k : Nat) {s u : M.State} (h : M.run j s = .next u) : M.run (j + k) s = M.run k u := by
  induction j generalizing s with
  | zero =>
    rw [Host.Core.run] at h
    injection h with h
    rw [Nat.zero_add, h]
  | succ j ih =>
    rw [show j + 1 + k = (j + k) + 1 by ring, Host.Core.run]
    rw [Host.Core.run] at h
    cases hs : M.step s with
    | next x => rw [hs] at h; exact ih h
    | fault r => rw [hs] at h; cases h
    | refused r => rw [hs] at h; cases h

/-- What every step keeps, a run keeps. -/
theorem run_keeps (M : Host.Core) (P : M.State → Prop) (hp : ∀ s t, P s → M.step s = .next t → P t) (k : Nat) {s t : M.State}
    (h : M.run k s = .next t) (hs : P s) : P t := by
  induction k generalizing s with
  | zero =>
    rw [Host.Core.run] at h
    injection h with h
    rwa [← h]
  | succ k ih =>
    rw [Host.Core.run] at h
    cases hx : M.step s with
    | next x => rw [hx] at h; exact ih h (hp s x hs hx)
    | fault r => rw [hx] at h; cases h
    | refused r => rw [hx] at h; cases h

theorem Reach.keeps {P : State → Prop} (hp : ∀ s t, P s → step s = .next t → P t) {s t : State} (r : Reach s t) (hs : P s) :
    P t := by
  obtain ⟨k, hk⟩ := r
  exact run_keeps core P hp k hk hs

theorem Reach.refl (s : State) : Reach s s := ⟨0, rfl⟩

theorem Reach.head {s u t : State} (h : step s = .next u) : Reach u t → Reach s t := by
  rintro ⟨k, hk⟩
  exact ⟨k + 1, (run_next core k h).trans hk⟩

theorem Reach.trans {s u t : State} : Reach s u → Reach u t → Reach s t := by
  rintro ⟨j, hj⟩ ⟨k, hk⟩
  exact ⟨j + k, (run_add core j k hj).trans hk⟩

/-- With an empty schedule the move comes back to a controller that waits for nothing; at most a stale request is answered in
between. -/
theorem settle (u : State) (hs : u.sched = []) (hr : u.inReset = false) (hp : u.phase ≠ .idle) (hm : u.mxPending = false) :
    ∃ r, Reach (advanceTurn u) { u with turn := .controller, mxReq := r } ∧ (u.mxReq = none → r = none) := by
  have hold : holds u = false := by simp [holds, hm]
  by_cases h : u.mxReq.isSome ∧ u.mxLive = true
  · refine ⟨none, ?_, fun _ => rfl⟩
    have e : advanceTurn u = { u with turn := .engine } := by unfold advanceTurn; rw [hs]; simp [fairTurn, hr, h]
    rw [e]
    refine Reach.head (step_engine rfl) ?_
    obtain ⟨r, hr'⟩ := Option.isSome_iff_exists.1 h.1
    have e2 : engineAnswer { u with turn := .engine } = { u with turn := .engine, mxReq := none } := by
      simp [engineAnswer, hr', h.2, hm]
    have e3 : advanceTurn { u with turn := .engine, mxReq := none } = { u with turn := .controller, mxReq := none } := by
      unfold advanceTurn; simp only [hs]; simp [fairTurn, hr, hp, holds, hm]
    rw [e2, e3]
    exact Reach.refl _
  · refine ⟨u.mxReq, ?_, fun h => h⟩
    have e : advanceTurn u = { u with turn := .controller } := by
      unfold advanceTurn
      rw [hs]
      have : (u.mxReq.isSome && u.mxLive) = false := by
        by_cases q : u.mxReq.isSome <;> simp_all
      simp [fairTurn, hr, this, hp, hold]
    rw [e]
    exact Reach.refl _

end Sys2Proof.Machine
end

