-- ==== Sys2Proof/Tests/Slice0.lean ====
section
/-! SUPPORT. The model's own tests: the ill-formed term, words written out from spec/30_encoding.md, single steps whose results
come from spec/95_test_vectors.md (V numbers), and for every obligation with hypotheses a state that meets them
(witness_ and the obligation's name). -/

namespace Sys2Proof.Tests

-- One test at a time: each kernel evaluation waits for the ones before it, and a thread that waits keeps its stack.
set_option Elab.async false

open Sys2Proof.Machine

/-! ### Well-formedness: the one check refuses an ill-formed term -/

theorem test_badcmd_of_valid_word_refused : ([0, 1, 2, 3, 4].any fun v => (Instr.badcmd v).wellFormed) = false := by decide +kernel

theorem test_reserved_words_well_formed :
    ([5, 6, 7, 8, 0xF, 0x10, 0x80000001].all fun v => (Instr.badcmd v).wellFormed) = true := by decide +kernel

/-! ### Decoding words written out from R90 to R94 and R99 -/

theorem test_decode_commands :
    [0b0000#32, 0b0001#32, 0b0010#32, 0b0011#32, 0b0100#32].map decodeCtrl =
      [.nop, .derive, .encrypt, .decrypt, .modinv] := by decide +kernel

/-- The table's four BADCMD rows: OP 5, OP 6 and 7, OP 8 to 15, and a valid OP under a set RSVD bit. -/
theorem test_decode_badcmd :
    ([0b0101#32, 0b0110#32, 0b0111#32, 0b1000#32, 0b1111#32, 0b10000#32, 0x80000001#32, 0xFFFFFFF4#32].all fun v =>
      decodeCtrl v == .badcmd v) = true := by decide +kernel

/-- RD of STATUS, with bits in pwdata, and WR of P word 1: `p aaaaaaaaaaaaaaaaa dddd...`. -/
theorem test_decode_bus :
    decodeBus 0b0_00000000000000100_10000000000000000000000000000001 = .rd 0x004 0x80000001 ∧
    decodeBus 0b1_00000000100000100_00000000000000000000000000101011 = .wr 0x104 43 := by decide +kernel

theorem test_decode_rejects_by_name :
    decode [0, 0] = .error (.badLength 2) ∧ decode [0, 0, 0, 0, 0, 0, 4] = .error .paddingSet := by decide +kernel

/-- Program P1's bytes on the bus for `cmd DERIVE` (1,0x00000,0x00000001). -/
theorem test_encode_wr : encode (.wr 0 1) = [1, 0, 0, 0, 0, 0, 2] := by decide +kernel

/-! ### States -/

/-- Key A (V1) with "ab" in MSG(0..2) (V20). -/
def keyA : State :=
  { State.reset with
    p := 43, q := 31, n := 1333, d := 593, blockLen := 10, msgLen := 2
    mem := [(0x1000, 0x61), (0x1001, 0x62)]
    status := { State.reset.status with keyValid := true } }

/-- Key A with the ciphertext of V20 in CT(0..2) and BLK_COUNT = 2. -/
def sealedA : State := { keyA with mem := memSetEntries Config.reference keyA.mem 0 [610, 270], blkCount := 2 }

/-- The state on the controller's move with a command running. -/
def atWork (ph : Phase) (s : State) : State :=
  { s with turn := .controller, phase := ph, status := { s.status with busy := true } }

/-- Block 1 of V20 before ENCRYPT's completion. -/
def encDone : State := { atWork .encrypt keyA with checked := true, blk := 2, answers := [610, 270] }

/-- ENCRYPT of V20 past its checks. -/
def encFirst : State := { atWork .encrypt keyA with checked := true }

/-- ENCRYPT of V20 with its first request out. -/
def encHeld : State :=
  { encFirst with mxPending := true, mxReq := some { base := 389, exp := 65537, mod := 1333 } }

/-- DECRYPT of V30 past its checks. -/
def decFirst : State := { atWork .decrypt sealedA with checked := true }

/-- DECRYPT of V30 with every block rendered. -/
def decDone : State := { decFirst with blk := 2, acc := render 0x6162 16 }

/-- MODINV of V10 after its last pass. -/
def micDone : State :=
  { atWork .modinv keyA with
    ma := 65537, mm := 1260, checked := true, mic := { r0 := 1, r1 := 0, t0 := 593, t1 := 0 } }

/-- DERIVE of V1 after its last pass. -/
def kdsDone : State :=
  { atWork .derive keyA with checked := true, phi := 1260, mic := { r0 := 1, r1 := 0, t0 := 593, t1 := 0 } }

/-- DERIVE at its start, without a key, for two inputs. -/
def kdsStart (p q : Nat) : State := { atWork .derive State.reset with p := p, q := q }

/-- MODINV at its start for two operands. -/
def micStart (a m : Nat) : State := { atWork .modinv keyA with ma := a, mm := m }

/-! ### Single steps -/

/-- V10: the three passes of MIC. -/
theorem test_mic_passes :
    micPass 1260 (micLoad 65537 1260) = { r0 := 17, r1 := 2, t0 := 1, t1 := 1186 } ∧
    micPass 1260 { r0 := 17, r1 := 2, t0 := 1, t1 := 1186 } = { r0 := 2, r1 := 1, t0 := 1186, t1 := 593 } ∧
    micPass 1260 { r0 := 2, r1 := 1, t0 := 1186, t1 := 593 } = { r0 := 1, r1 := 0, t0 := 593, t1 := 0 } := by decide +kernel

/-- V10: MR, and STATUS with KEY_VALID = 1. -/
theorem test_modinv_result :
    (modinvStep micDone).mr = 593 ∧ statusWord (modinvStep micDone).status = 0x0000000A := by decide +kernel

/-- V19d: ARG, and MR unchanged. -/
theorem test_modinv_arg :
    (modinvStep (micStart 5 1)).mr = 0 ∧ statusWord (modinvStep (micStart 5 1)).status = 0x0000020E := by decide +kernel

/-- V1. -/
theorem test_derive_key :
    (deriveStep kdsDone).n = 1333 ∧ (deriveStep kdsDone).d = 593 ∧ (deriveStep kdsDone).blockLen = 10 ∧
    statusWord (deriveStep kdsDone).status = 0x0000000A := by decide +kernel

/-- V8, V9a: KEYDER for phi = 1 and ARG for p < 2, with the key cleared. -/
theorem test_derive_errors :
    statusWord (deriveStep (kdsStart 2 2)).status = 0x00000306 ∧
    statusWord (deriveStep (kdsStart 1 7)).status = 0x00000206 ∧
    (deriveStep (atWork .derive { keyA with p := 1 })).n = 0 := by decide +kernel

/-- V20: the requests for blocks 0 and 1. -/
theorem test_encrypt_requests :
    (encryptStep encFirst).mxReq = some { base := 389, exp := 65537, mod := 1333 } ∧
    (encryptStep { encFirst with blk := 1, answers := [610] }).mxReq = some { base := 34, exp := 65537, mod := 1333 } := by
  decide +kernel

/-- V20: CT(0), CT(1), BLK_COUNT and STATUS. -/
theorem test_encrypt_commit :
    ctEntry (encryptStep encDone) 0 = 610 ∧ ctEntry (encryptStep encDone) 1 = 270 ∧
    (encryptStep encDone).blkCount = 2 ∧ statusWord (encryptStep encDone).status = 0x0000000A := by decide +kernel

/-- V30: the request for block 0, and MSG(0..2) at the end. -/
theorem test_decrypt_message :
    (decryptStep decFirst).mxReq = some { base := 610, exp := 593, mod := 1333 } ∧
    msgByte (decryptStep decDone) 0 = 0x61 ∧ msgByte (decryptStep decDone) 1 = 0x62 := by decide +kernel

/-- V40: a plain value that does not fit keeps its low bits and sets TRUNC. -/
theorem test_decrypt_trunc :
    (decryptAppend 389 { decFirst with msgLen := 1, blkCount := 1 }).tp = true ∧
    bitsVal (decryptAppend 389 { decFirst with msgLen := 1, blkCount := 1 }).acc = 0x85 := by decide +kernel

/-- The engine's answers of V20. -/
theorem test_engine : powMod 389 65537 1333 = 610 ∧ powMod 34 65537 1333 = 270 ∧ powMod 610 593 1333 = 389 := by
  decide +kernel

/-- V50: NOP leaves STATUS. -/
theorem test_nop : (commandWrite 0 { keyA with status := { keyA.status with done := true } }).status =
    { keyA.status with done := true } := by decide +kernel

/-- V53, V55, V56: BADCMD with a key present. -/
theorem test_badcmd :
    [5, 0x10, 0x80000001].map (fun v => statusWord (commandWrite v keyA).status) = [0x0000010E, 0x0000010E, 0x0000010E] := by decide +kernel

/-- V59: BADCMD while BUSY = 1 sets WIGN only. -/
theorem test_busy_write_sets_wign :
    (commandWrite 5 (atWork .derive keyA)).status = { (atWork .derive keyA).status with wign := true } := by decide +kernel

/-- V62 to V67: misaligned or unmapped addresses of the reference configuration. -/
theorem test_rd_slverr :
    ([0x002, 0x01C, 0x108, 0x310, 0x1100, 0x14000].all fun a => (busTarget Config.reference a).isNone) = true := by decide +kernel

/-- V69: N reads least significant word first. -/
theorem test_rd_words : (List.range 4).map (fun j => readRegion keyA (.wide .n j)) = [0x535, 0, 0, 0] := by decide +kernel

/-- V70: a word of MSG_BUF, byte by byte and back. -/
theorem test_wr_message :
    msgByte (writeRegion 0x00006261 State.reset (.msgBuf 0)) 0 = 0x61 ∧
    msgByte (writeRegion 0x00006261 State.reset (.msgBuf 0)) 1 = 0x62 ∧
    readRegion (writeRegion 0x00006261 State.reset (.msgBuf 0)) (.msgBuf 0) = 0x00006261 := by decide +kernel

/-- V72 to V74: the W1C writes of STATUS. -/
theorem test_wr_status :
    statusWord (statusW1c 0xFFFFFFFF ⟨false, true, true, true, false, true, .declen⟩) = 0x00000008 ∧
    statusWord (statusW1c 2 ⟨false, true, true, true, false, false, .declen⟩) = 0x0000070C ∧
    statusWord (statusW1c 4 ⟨false, true, true, true, false, false, .declen⟩) = 0x0000000A := by decide +kernel

/-- `wait` (R101): the poll stays at the head of the program while BUSY = 1 and leaves it when BUSY = 0. -/
theorem test_wait_polls :
    (∃ t, step { atWork .derive keyA with turn := .host, program := [.wait] } = .next t ∧ t.program = [.wait]) ∧
    ∃ t, step { keyA with program := [.wait] } = .next t ∧ t.program = [] := ⟨⟨_, rfl, rfl⟩, ⟨_, rfl, rfl⟩⟩

/-- `wrw P, 43` (P1): the assembly is one WR per word. -/
theorem test_asm_wrw :
    asmWrw Config.reference .p 43 = [.txn (encode (.wr 0x100 0x2B)), .txn (encode (.wr 0x104 0))] := by decide +kernel

/-- Words of the opcode table, handed to the machine after reset: DERIVE starts, and RD answers (V60). -/
theorem test_fetch_word_runs :
    (∃ t, step (State.reset.withFetchWord 32 1) = .next t ∧ t.phase = .derive) ∧
    ∃ t, step (State.reset.withFetchWord 56 (0x018 <<< 32)) = .next t ∧ t.trace = [.busResp .okay 0x00010001] :=
  ⟨⟨_, rfl, by decide +kernel⟩, _, rfl, by decide +kernel⟩

/-! ### The invariant on concrete states -/

/-- Key A's invariants hold whatever the rest of the state is. -/
theorem keyA_keyInv (s : State) (hn : s.n = 1333) (hd : s.d = 593) (hb : s.blockLen = 10)
    (hk : s.status.keyValid = true) : KeyInv s := by
  unfold KeyInv
  rw [if_pos hk]
  refine ⟨43, 31, by decide, by decide, hn.trans (by decide), ?_, ?_, ?_, ?_⟩
  · rw [hd]; decide
  · rw [hd]; decide
  · rw [hd]; decide
  · rw [hb, hn]; decide

theorem resetInv_of {s : State} (h : s.inReset = false) : ResetInv s := fun hc => by simp [h] at hc

theorem traceInv_of {s : State} (h : s.trace = []) : TraceInv s := fun r hr => by simp [h] at hr

/-- MIC and the block loop of a state in which no command is past its checks. -/
theorem early_inv {s : State} (hc : s.checked = false) (hp : s.mxPending = false) (hr : s.mxRsp = none) (hb : s.blk = 0) :
    MicInv s ∧ BlockInv s := by
  refine ⟨⟨fun h => ?_, fun h => ?_⟩, fun h => ?_, fun _ => hr, fun _ => hb, fun h => ?_, fun h => ?_⟩ <;> simp_all

/-- The block loop of a state in which MIC runs. -/
theorem mic_block {s : State} (h1 : s.phase ≠ .encrypt) (h2 : s.phase ≠ .decrypt) (hc : s.checked = true)
    (hp : s.mxPending = false) (hr : s.mxRsp = none) : BlockInv s := by
  refine ⟨fun h => ?_, fun _ => hr, fun h => ?_, fun h => ?_, fun h => ?_⟩ <;> simp_all

theorem keyA_inv : MachineInv keyA where
  legal := by decide +kernel
  status := by unfold StatusInv; decide +kernel
  width := by unfold WidthInv; decide +kernel
  mem := by unfold MemInv bufferAddr; decide +kernel
  key := keyA_keyInv keyA rfl rfl rfl rfl
  mic := (early_inv rfl rfl rfl rfl).1
  block := (early_inv rfl rfl rfl rfl).2
  trace := traceInv_of rfl
  reset := resetInv_of rfl

theorem sealedA_inv : MachineInv sealedA where
  legal := by decide +kernel
  status := by unfold StatusInv; decide +kernel
  width := by unfold WidthInv; decide +kernel
  mem := by unfold MemInv bufferAddr; decide +kernel
  key := keyA_keyInv sealedA rfl rfl rfl rfl
  mic := (early_inv rfl rfl rfl rfl).1
  block := (early_inv rfl rfl rfl rfl).2
  trace := traceInv_of rfl
  reset := resetInv_of rfl

/-- A command at its start keeps the invariant of the idle state it started from. -/
theorem atWork_inv {s : State} (h : MachineInv s) (ph : Phase) (hp : ph ≠ .idle) (hc : s.checked = false)
    (hm : s.mxPending = false) (hr : s.inReset = false) (hb : s.blk = 0) : MachineInv (atWork ph s) where
  legal := h.legal
  status := ⟨by simp [atWork, hp], h.status.2⟩
  width := h.width
  mem := h.mem
  key := h.key
  mic := (early_inv (s := atWork ph s) hc hm (h.block.2.1 hm) hb).1
  block := (early_inv (s := atWork ph s) hc hm (h.block.2.1 hm) hb).2
  trace := h.trace
  reset := resetInv_of (s := atWork ph s) hr

theorem kdsStart_inv (p q : Nat) (hp : p < 2 ^ 64) (hq : q < 2 ^ 64) : MachineInv (kdsStart p q) where
  legal := by show Config.Legal Config.reference; decide +kernel
  status := by constructor <;> simp [kdsStart, atWork, State.reset, State.resetWith]
  width := ⟨hp, hq, Nat.two_pow_pos _, Nat.two_pow_pos _, Nat.two_pow_pos _, Nat.two_pow_pos _, Nat.two_pow_pos _⟩
  mem := ⟨by constructor <;> simp [kdsStart, atWork, State.reset, State.resetWith],
    by simp [kdsStart, atWork, State.reset, State.resetWith]⟩
  key := by simp [KeyInv, kdsStart, atWork, State.reset, State.resetWith]
  mic := (early_inv rfl rfl rfl rfl).1
  block := (early_inv rfl rfl rfl rfl).2
  trace := traceInv_of rfl
  reset := resetInv_of rfl

theorem micStart_inv (a m : Nat) (ha : a < 2 ^ 128) (hm : m < 2 ^ 128) : MachineInv (micStart a m) where
  legal := keyA_inv.legal
  status := by constructor <;> simp [micStart, atWork, keyA, State.reset, State.resetWith]
  width := ⟨keyA_inv.width.1, keyA_inv.width.2.1, keyA_inv.width.2.2.1, keyA_inv.width.2.2.2.1, ha, hm,
    keyA_inv.width.2.2.2.2.2.2⟩
  mem := keyA_inv.mem
  key := keyA_keyInv _ rfl rfl rfl rfl
  mic := (early_inv rfl rfl rfl rfl).1
  block := (early_inv rfl rfl rfl rfl).2
  trace := traceInv_of rfl
  reset := resetInv_of rfl

theorem micDone_inv : MachineInv micDone where
  legal := by decide +kernel
  status := by unfold StatusInv; decide +kernel
  width := by unfold WidthInv; decide +kernel
  mem := by unfold MemInv bufferAddr; decide +kernel
  key := keyA_keyInv micDone rfl rfl rfl rfl
  mic := by unfold MicInv MicRel; decide +kernel
  block := mic_block (by decide) (by decide) rfl rfl rfl
  trace := traceInv_of rfl
  reset := resetInv_of rfl

theorem kdsDone_inv : MachineInv kdsDone where
  legal := by decide +kernel
  status := by unfold StatusInv; decide +kernel
  width := by unfold WidthInv; decide +kernel
  mem := by unfold MemInv bufferAddr; decide +kernel
  key := keyA_keyInv kdsDone rfl rfl rfl rfl
  mic := by unfold MicInv MicRel; decide +kernel
  block := mic_block (by decide) (by decide) rfl rfl rfl
  trace := traceInv_of rfl
  reset := resetInv_of rfl

/-- An ENCRYPT past its checks whose progress is as it should be. -/
theorem encWork_inv (b : Nat) (l : List Nat) (r : Option MxReq) (o : Option Nat) (q m : Bool)
    (hp : EncryptProgress
      { encFirst with blk := b, answers := l, mxReq := r, mxRsp := o, mxPending := q, doneIe := m })
    (hm : q = false → o = none) :
    MachineInv { encFirst with blk := b, answers := l, mxReq := r, mxRsp := o, mxPending := q, doneIe := m } where
  legal := keyA_inv.legal
  status := by constructor <;> simp [encFirst, atWork, keyA, State.reset, State.resetWith]
  width := keyA_inv.width
  mem := keyA_inv.mem
  key := keyA_keyInv _ rfl rfl rfl rfl
  mic := ⟨fun h => by simp [encFirst, atWork] at h, fun h => by simp [encFirst, atWork] at h⟩
  block := ⟨fun _ => ⟨rfl, .inl rfl⟩, hm, fun h => by simp [encFirst] at h, fun _ => hp,
    fun h => by simp [encFirst, atWork] at h⟩
  trace := traceInv_of rfl
  reset := resetInv_of rfl

theorem encHeld_inv : MachineInv encHeld :=
  encWork_inv _ _ _ _ _ _ (by unfold EncryptProgress PortHolds; decide +kernel) (by decide)

/-- The same hold, on the move of an engine that never answers. -/
def encDead : State := { encHeld with turn := .engine, mxLive := false }

theorem encDead_inv : MachineInv encDead where
  legal := encHeld_inv.legal
  status := encHeld_inv.status
  width := encHeld_inv.width
  mem := encHeld_inv.mem
  key := encHeld_inv.key
  mic := encHeld_inv.mic
  block := ⟨fun _ => ⟨rfl, .inl rfl⟩, encHeld_inv.block.2.1, fun h => absurd h.2 (by decide),
    fun _ => by unfold EncryptProgress PortHolds; decide +kernel, fun h => absurd h.1 (by decide)⟩
  trace := traceInv_of rfl
  reset := resetInv_of rfl

theorem encDone_inv : MachineInv encDone :=
  encWork_inv _ _ _ _ _ _ (by unfold EncryptProgress PortHolds; decide +kernel) (by decide)

theorem decDone_inv : MachineInv decDone where
  legal := by decide +kernel
  status := by unfold StatusInv; decide +kernel
  width := by unfold WidthInv; decide +kernel
  mem := sealedA_inv.mem
  key := keyA_keyInv decDone rfl rfl rfl rfl
  mic := ⟨fun h => absurd h.1 (by decide), fun h => absurd h.1 (by decide)⟩
  block := ⟨fun h => absurd h (by decide), fun _ => rfl, fun h => absurd h.2 (by decide), fun h => absurd h.1 (by decide),
    fun _ => by unfold DecryptProgress PortHolds; decide +kernel⟩
  trace := traceInv_of rfl
  reset := resetInv_of rfl

/-! ### Witnesses: a state and operands that meet an obligation's hypotheses, clause by clause -/

theorem witness_DecodeEncodeRoundTrip :
    (Instr.badcmd 0xFFFFFFFF).wellFormed = true ∧ (Instr.wr 0x1FFFF 0xFFFFFFFF).wellFormed = true := by decide

theorem witness_DecodedPacketIsTheEncoding :
    decode [0x0F, 0, 0, 0] = .ok (.badcmd 0xF) ∧
    decode [0xFF, 0xFF, 0xFF, 0xFF, 0xFF, 0xFF, 3] = .ok (.wr 0x1FFFF 0xFFFFFFFF) := by decide +kernel

/-- The host's transaction, its poll while busy and idle, its empty program, the four commands of the controller, and its idle
clause. -/
theorem witness_StepRunsTheDecodedInstruction :
    (∃ s : State, s.inReset = false ∧ s.turn = .host ∧ s.program = [.txn (encode .nop)] ∧ Instr.nop.wellFormed = true) ∧
    (∀ b, ∃ s : State, s.inReset = false ∧ s.turn = .host ∧ s.program = [.wait] ∧ s.status.busy = b) ∧
    (∃ s : State, s.inReset = false ∧ s.turn = .host ∧ s.program = []) ∧
    ∀ ph, ∃ s : State, s.inReset = false ∧ s.turn = .controller ∧ s.phase = ph :=
  ⟨⟨{ keyA with program := [.txn (encode .nop)] }, rfl, rfl, rfl, rfl⟩,
    fun b => ⟨{ keyA with program := [.wait], status := { keyA.status with busy := b } }, rfl, rfl, rfl, rfl⟩,
    ⟨State.reset, rfl, rfl, rfl⟩, fun ph => ⟨atWork ph keyA, rfl, rfl, rfl⟩⟩

theorem witness_TableWordRunsInTheNextStep :
    decodeTableWord 32 1 = some .derive ∧ decodeTableWord 56 (2 ^ 49) = some (.wr 0 0) := by decide +kernel

/-- Each of the three outcomes happens. -/
theorem witness_StepStopsOnlyOnAForbiddenHostMove :
    (∃ t, step State.reset = .next t) ∧
    step { State.reset with inReset := true, program := [.wait] } = .refused .busAccessInReset ∧
    step { State.reset with program := [.txn [0]] } = .fault .notATransaction :=
  ⟨⟨_, rfl⟩, rfl, rfl⟩

/-- Every clause at the ends of its range. -/
theorem witness_AddressMapIsTheTable :
    Config.reference.Legal ∧ region Config.reference 0x018 = some .e ∧ region Config.reference 0x01C = none ∧
    region Config.reference 0x104 = some (.wide .p 1) ∧ region Config.reference 0x108 = none ∧
    region Config.reference 0x204 = some (.wide .q 1) ∧ region Config.reference 0x30C = some (.wide .n 3) ∧
    region Config.reference 0x40C = some (.wide .d 3) ∧ region Config.reference 0x50C = some (.wide .ma 3) ∧
    region Config.reference 0x60C = some (.wide .mm 3) ∧ region Config.reference 0x70C = some (.wide .mr 3) ∧
    region Config.reference 0x710 = none ∧ region Config.reference 0x1000 = some (.msgBuf 0) ∧
    region Config.reference 0x10FC = some (.msgBuf 63) ∧ region Config.reference 0x1100 = none ∧
    region Config.reference 0x10000 = some (.ctBuf 0) ∧ region Config.reference 0x13FFC = some (.ctBuf 4095) ∧
    region Config.reference 0x14000 = none := by decide +kernel

theorem witness_MisalignedOrUnmappedAccessHasNoEffect :
    (0x1FFFF#17).toNat % 4 ≠ 0 ∧ region keyA.cfg (0x1FFFC#17).toNat = none := by decide +kernel

theorem witness_ReadReturnsTheRegion :
    (0x13FFC#17).toNat % 4 = 0 ∧ region keyA.cfg (0x13FFC#17).toNat = some (.ctBuf 4095) ∧ keyA.status.busy = false ∧
    region (atWork .derive keyA).cfg (0x004#17).toNat = some .status := by decide +kernel

theorem witness_WideRegisterIsTheSumOfItsWords : MachineInv keyA ∧ readWide keyA .n = 1333 := ⟨keyA_inv, rfl⟩

theorem witness_BufferWordsAreLaidOut : keyA.cfg.Legal := keyA_inv.legal

/-- The first and the last held address. -/
theorem witness_BusyReadOfAHeldRegisterIsFree :
    region (atWork .derive keyA).cfg (0x00C#17).toNat = some .msgLen ∧
    region (atWork .derive keyA).cfg (0x13FFC#17).toNat = some (.ctBuf 4095) ∧
    (atWork .derive keyA).status.busy = true := by decide +kernel

theorem witness_HiddenScratchIsInvisibleOnTheBus :
    ∃ t t', exec (.rd 0x300 0) keyA = .next t ∧ exec (.rd 0x300 0) { keyA with phi := 1260 } = .next t' ∧
      t'.trace = t.trace := ⟨_, _, rfl, rfl, rfl⟩

/-- A region for every clause. -/
theorem witness_WritesWhileBusyAreIgnoredOrHonoured :
    (atWork .derive keyA).status.busy = true ∧
    [0x000, 0x00C, 0x010, 0x100, 0x200, 0x500, 0x600, 0x1000, 0x10000, 0x004, 0x008, 0x018, 0x014, 0x300, 0x400, 0x700].map
        (fun a => region (atWork .derive keyA).cfg a) =
      [some .ctrl, some .msgLen, some .blkCount, some (.wide .p 0), some (.wide .q 0), some (.wide .ma 0),
        some (.wide .mm 0), some (.msgBuf 0), some (.ctBuf 0), some .status, some .irqEn, some .e, some .blockLen,
        some (.wide .n 0), some (.wide .d 0), some (.wide .mr 0)] := by decide +kernel

/-- The last word of each window. -/
theorem witness_IdleRegisterWriteStoresTheWord :
    keyA.status.busy = false ∧ keyA.cfg.Legal ∧ 1 < keyA.cfg.wpp ∧ (0x104#17).toNat = 0x100 + 4 * 1 ∧
    (0x204#17).toNat = 0x200 + 4 * 1 ∧ 3 < keyA.cfg.wpn ∧ (0x50C#17).toNat = 0x500 + 4 * 3 ∧
    (0x60C#17).toNat = 0x600 + 4 * 3 := by decide +kernel

theorem witness_WordWriteReplacesOneWord :
    (1 : Nat) < 2 ∧ (0xFFFFFFFFFFFFFFFF : Nat) < 2 ^ (32 * 2) ∧ (0 : Nat) < 2 ^ (32 * 2) := by decide

theorem witness_IdleBufferWriteStoresFourBytes :
    keyA.status.busy = false ∧ region keyA.cfg (0x10FC#17).toNat = some (.msgBuf 63) ∧
    region keyA.cfg (0x13FFC#17).toNat = some (.ctBuf 4095) := by decide +kernel

theorem witness_IdleWriteIsReadBack :
    keyA.status.busy = false ∧ region keyA.cfg (0x104#17).toNat = some (.wide .p 1) ∧
    readOnly (.wide .p 1) = false := by decide +kernel

theorem witness_WriteToCtrlRunsTheDecodedCommand : keyA.turn ≠ .controller := by decide

theorem witness_CommandStartSetsBusyAndPhase :
    keyA.turn ≠ .controller ∧ keyA.status.busy = false ∧
    { atWork .derive keyA with turn := .host }.turn ≠ .controller ∧
    { atWork .derive keyA with turn := .host }.status.busy = true := by decide

theorem witness_NopChangesNothing : keyA.status.busy = false ∧ (atWork .derive keyA).status.busy = true := by decide

theorem witness_BadcmdCompletesAtOnce :
    (Instr.badcmd 0x10).wellFormed = true ∧ keyA.status.busy = false ∧ (atWork .derive keyA).status.busy = true := by decide

/-- With the divisor 1, and with another one. -/
theorem witness_MicIterationComputesTheInverse :
    2 ≤ 1260 ∧ Nat.gcd (65537 % 1260) 1260 = 1 ∧ 2 ≤ 9 ∧ Nat.gcd (6 % 9) 9 ≠ 1 := by decide

theorem witness_ModinvErrorsChangeOnlyStatus :
    (running .modinv (micStart 5 1) = true ∧ (micStart 5 1).checked = false ∧ (micStart 5 1).mm < 2) ∧
    (running .modinv { micDone with mic := { micDone.mic with r0 := 3 } } = true ∧ micDone.checked = true ∧
      micDone.mic.r1 = 0 ∧ (3 : Nat) ≠ 1) := by decide

theorem witness_ModinvWritesTheInverse :
    MachineInv micDone ∧ running .modinv micDone = true ∧ micDone.checked = true ∧ micDone.mic.r1 = 0 ∧
    micDone.mic.r0 = 1 := ⟨micDone_inv, by decide, by decide, by decide, by decide⟩

/-- V10, V19c and V19d: one start for each ending. -/
theorem witness_ModinvRunsToItsResult :
    (MachineInv (micStart 65537 1260) ∧ Nat.gcd (65537 % 1260) 1260 = 1) ∧
    (MachineInv (micStart 6 9) ∧ Nat.gcd (6 % 9) 9 ≠ 1) ∧ (MachineInv (micStart 5 1) ∧ (micStart 5 1).mm < 2) ∧
    ∀ a m, (micStart a m).inReset = false ∧ (micStart a m).turn = .controller ∧ (micStart a m).sched = [] ∧
      (micStart a m).phase = .modinv ∧ (micStart a m).checked = false :=
  ⟨⟨micStart_inv _ _ (by decide) (by decide), by decide⟩, ⟨micStart_inv _ _ (by decide) (by decide), by decide⟩,
    ⟨micStart_inv _ _ (by decide) (by decide), by decide⟩, fun _ _ => ⟨rfl, rfl, rfl, rfl, rfl⟩⟩

theorem witness_DeriveErrorClearsTheKey :
    (running .derive (kdsStart 1 7) = true ∧ (kdsStart 1 7).checked = false ∧ (kdsStart 1 7).p < 2) ∧
    (running .derive (kdsStart 2 2) = true ∧ 2 ≤ (kdsStart 2 2).p ∧ ((kdsStart 2 2).p - 1) * ((kdsStart 2 2).q - 1) < 2) ∧
    (running .derive kdsDone = true ∧ kdsDone.checked = true ∧ kdsDone.mic.r1 = 0 ∧
      { kdsDone.mic with r0 := 65537 }.r0 ≠ 1) := by decide

theorem witness_DeriveCommitsTheKey :
    MachineInv kdsDone ∧ running .derive kdsDone = true ∧ kdsDone.checked = true ∧ kdsDone.mic.r1 = 0 ∧
    kdsDone.mic.r0 = 1 := ⟨kdsDone_inv, by decide, by decide, by decide, by decide⟩

/-- V1, V9, V8 and V9a: one start for each ending. -/
theorem witness_DeriveRunsToItsResult :
    (MachineInv (kdsStart 43 31) ∧ Nat.gcd 65537 ((43 - 1) * (31 - 1)) = 1) ∧
    (MachineInv (kdsStart 917519 5) ∧ Nat.gcd 65537 ((917519 - 1) * (5 - 1)) ≠ 1) ∧
    (MachineInv (kdsStart 2 2) ∧ (2 - 1) * (2 - 1) < 2) ∧ (MachineInv (kdsStart 1 7) ∧ (kdsStart 1 7).p < 2) ∧
    ∀ p q, (kdsStart p q).inReset = false ∧ (kdsStart p q).turn = .controller ∧ (kdsStart p q).sched = [] ∧
      (kdsStart p q).phase = .derive ∧ (kdsStart p q).checked = false :=
  ⟨⟨kdsStart_inv _ _ (by decide) (by decide), by decide⟩, ⟨kdsStart_inv _ _ (by decide) (by decide), by decide⟩,
    ⟨kdsStart_inv _ _ (by decide) (by decide), by decide⟩, ⟨kdsStart_inv _ _ (by decide) (by decide), by decide⟩,
    fun _ _ => ⟨rfl, rfl, rfl, rfl, rfl⟩⟩

/-- V29a, V29c at the first MSG_LEN past MAXLEN, V29d, and V20. -/
theorem witness_EncryptChecksInOrder :
    (running .encrypt (atWork .encrypt State.reset) = true ∧ (atWork .encrypt State.reset).checked = false ∧
      (atWork .encrypt State.reset).status.keyValid = false) ∧
    (running .encrypt (atWork .encrypt keyA) = true ∧ (atWork .encrypt keyA).checked = false ∧
      (atWork .encrypt keyA).status.keyValid = true ∧ keyA.cfg.maxlen < (257#32).toNat ∧
      2 < ceilDiv (8 * (3#32).toNat) keyA.blockLen.toNat) ∧
    (keyA.msgLen.toNat ≤ keyA.cfg.maxlen ∧ ceilDiv (8 * keyA.msgLen.toNat) keyA.blockLen.toNat ≤ keyA.cfg.maxblk) := by
  decide +kernel

theorem witness_RunningCommandIssuesItsBlockRequest :
    (encFirst.checked = true ∧ encFirst.mxPending = false ∧ running .encrypt encFirst = true ∧
      1 < ceilDiv (8 * encFirst.msgLen.toNat) encFirst.blockLen.toNat) ∧
    (decFirst.checked = true ∧ decFirst.mxPending = false ∧ running .decrypt decFirst = true ∧
      1 < decFirst.blkCount.toNat) := by decide +kernel

theorem witness_RunningCommandHoldsOrAbsorbs :
    (encHeld.checked = true ∧ encHeld.mxPending = true ∧ running .encrypt encHeld = true ∧ encHeld.mxRsp = none) ∧
    running .decrypt { encHeld with phase := .decrypt } = true ∧ { encHeld with mxRsp := some 610 }.mxRsp = some 610 := by
  decide

theorem witness_EncryptCommitsTheCiphertext :
    MachineInv encDone ∧ running .encrypt encDone = true ∧ encDone.checked = true ∧ encDone.mxPending = false ∧
    encDone.blk = blockCount encDone := ⟨encDone_inv, by decide, by decide, by decide, by decide +kernel⟩

/-- The first clause, and the last element of the others' ranges. -/
theorem witness_SegmentsCoverTheMessage : 1 ≤ keyA.blockLen.toNat ∧ 15 < 8 * msgCount keyA ∧ 0 < 1 := by decide

/-- "ab" is 01100001 01100010, most significant bit first (R13), and its first ten bits are the value 389 (V20). -/
theorem test_bit_order :
    (msgBits keyA 2).map Bool.toNat = [0, 1, 1, 0, 0, 0, 0, 1, 0, 1, 1, 0, 0, 0, 1, 0] ∧
    bitsVal (bitSlice (msgBits keyA 2) 0 10) = 389 := by decide +kernel

theorem witness_BlockValueIsBelowTheModulus : MachineInv keyA ∧ keyA.status.keyValid = true := ⟨keyA_inv, rfl⟩

theorem encStart_inv : MachineInv (atWork .encrypt keyA) := atWork_inv keyA_inv .encrypt (by decide) rfl rfl rfl rfl

theorem decStart_inv : MachineInv (atWork .decrypt sealedA) := atWork_inv sealedA_inv .decrypt (by decide) rfl rfl rfl rfl

theorem witness_EncryptRunsToItsResult :
    MachineInv (atWork .encrypt keyA) ∧ (atWork .encrypt keyA).inReset = false ∧
    (atWork .encrypt keyA).turn = .controller ∧ (atWork .encrypt keyA).sched = [] ∧
    (atWork .encrypt keyA).mxLive = true ∧ (atWork .encrypt keyA).phase = .encrypt ∧
    (atWork .encrypt keyA).checked = false ∧ encryptCheck (atWork .encrypt keyA) = none :=
  ⟨encStart_inv, rfl, rfl, rfl, rfl, rfl, rfl, by decide +kernel⟩

/-- Two machines that agree on key and message and differ in IRQ_EN. -/
theorem witness_EncryptDependsOnlyOnKeyAndMessage :
    MachineInv encDone ∧ MachineInv { encDone with doneIe := true } ∧ encDone.turn = .controller ∧
    encDone.phase = .encrypt ∧ encDone.checked = true ∧ encDone.mxPending = false ∧ encDone.blk = blockCount encDone ∧
    ∀ j, msgByte encDone j = msgByte { encDone with doneIe := true } j :=
  ⟨encDone_inv, encWork_inv _ _ _ _ _ _ (by unfold EncryptProgress PortHolds; decide +kernel) (by decide), rfl, rfl, rfl, rfl,
    by decide +kernel, fun _ => rfl⟩

/-- V49a, V48, V49, V43, V46 and V30: each outcome of the checks, CRANGE at CT(1) = N. -/
theorem witness_DecryptChecksInOrder :
    running .decrypt (atWork .decrypt sealedA) = true ∧ (atWork .decrypt sealedA).checked = false ∧
    decryptCheck (atWork .decrypt State.reset) = some .nokey ∧
    decryptCheck { atWork .decrypt sealedA with msgLen := 257 } = some .capacity ∧
    decryptCheck { atWork .decrypt sealedA with blkCount := 1025 } = some .capacity ∧
    decryptCheck { atWork .decrypt sealedA with msgLen := 1 } = some .declen ∧
    decryptCheck { atWork .decrypt sealedA with mem := memSetEntries Config.reference [] 0 [610, 1333] } = some .crange ∧
    decryptCheck (atWork .decrypt sealedA) = none := by decide +kernel

/-- An interior block and the last one. -/
theorem witness_DecryptAppendsTheRendering :
    running .decrypt { decFirst with mxPending := true, mxRsp := some 389 } = true ∧ decFirst.checked = true ∧
    0 < decFirst.blkCount.toNat - 1 ∧ ¬1 < decFirst.blkCount.toNat - 1 := by decide

theorem witness_DecryptCommitsTheMessage :
    MachineInv decDone ∧ running .decrypt decDone = true ∧ decDone.checked = true ∧ decDone.mxPending = false ∧
    decDone.blk = cipherCount decDone := ⟨decDone_inv, by decide, by decide, by decide, by decide⟩

theorem witness_DecryptRunsToItsResult :
    MachineInv (atWork .decrypt sealedA) ∧ (atWork .decrypt sealedA).inReset = false ∧
    (atWork .decrypt sealedA).turn = .controller ∧ (atWork .decrypt sealedA).sched = [] ∧
    (atWork .decrypt sealedA).mxLive = true ∧ (atWork .decrypt sealedA).phase = .decrypt ∧
    (atWork .decrypt sealedA).checked = false ∧ decryptCheck (atWork .decrypt sealedA) = none :=
  ⟨decStart_inv, rfl, rfl, rfl, rfl, rfl, rfl, by decide +kernel⟩

/-- The hypotheses on the key, and the longest overwriting of MSG; those on the state are witness_EncryptRunsToItsResult's. -/
theorem witness_EncryptThenDecryptRestoresTheMessage :
    MachineInv (atWork .encrypt keyA) ∧ encryptCheck (atWork .encrypt keyA) = none ∧ Nat.Prime 43 ∧ Nat.Prime 31 ∧
    43 ≠ 31 ∧ (atWork .encrypt keyA).n = 43 * 31 ∧
    65537 * (atWork .encrypt keyA).d % ((43 - 1) * (31 - 1)) = 1 ∧
    (List.replicate 256 (0 : Byte)).length ≤ (atWork .encrypt keyA).cfg.maxlen :=
  ⟨encStart_inv, by decide +kernel, by norm_num, by norm_num, by decide, by decide, by decide, by rw [List.length_replicate]; decide⟩

/-- With a command waiting, and without one. -/
theorem witness_EngineAnswersWithThePower :
    { encHeld with turn := .engine }.mxReq = some { base := 389, exp := 65537, mod := 1333 } ∧
    { encHeld with turn := .engine }.mxLive = true ∧ encHeld.mxPending = true ∧
    { encHeld with mxPending := false }.mxPending = false := by decide

/-- A held ENCRYPT on the controller's move, and on the move of an engine that never answers, with the step taken. -/
theorem witness_HoldLastsUntilTheAnswer :
    MachineInv encHeld ∧ holds encHeld = true ∧ encHeld.turn ≠ .engine ∧ encHeld.turn ≠ .resetLow ∧
    (∃ t, step encHeld = .next t) ∧
    MachineInv encDead ∧ holds encDead = true ∧ encDead.turn = .engine ∧ encDead.mxLive = false ∧
    ∃ t, step encDead = .next t :=
  ⟨encHeld_inv, rfl, by decide, by decide, ⟨_, rfl⟩, encDead_inv, rfl, rfl, rfl, _, rfl⟩

/-- Asserting rst_n while a command holds, the controller's move in reset, and the release. -/
theorem witness_ResetAbandonsTheCommand :
    { encHeld with turn := .resetLow }.turn = .resetLow ∧
    { State.reset with turn := .controller, inReset := true }.inReset = true ∧
    { State.reset with turn := .resetHigh, inReset := true }.turn = .resetHigh := ⟨rfl, rfl, rfl⟩

/-- Every clause: DERIVE's key, MODINV's MR, ENCRYPT's BLK_COUNT and buffer. -/
theorem witness_OutputsAppearOnlyAtCompletion :
    (∃ t, exec .derive { kdsDone with n := 0 } = .next t ∧ t.n ≠ 0) ∧
    (∃ t, exec .modinv micDone = .next t ∧ t.mr ≠ micDone.mr) ∧
    (∃ t, exec .encrypt encDone = .next t ∧ t.blkCount ≠ encDone.blkCount ∧ t.mem ≠ encDone.mem) :=
  ⟨⟨_, rfl, by decide⟩, ⟨_, rfl, by decide⟩, ⟨_, rfl, by decide +kernel, by decide +kernel⟩⟩

theorem witness_OperandsAreImmutableWhileBusy :
    (atWork .derive keyA).status.busy = true ∧ ∃ t, exec (.wr 0x100 7) (atWork .derive keyA) = .next t := ⟨rfl, _, rfl⟩

/-- A byte changed by a write, by ENCRYPT and by DECRYPT. -/
theorem witness_BufferBytesChangeOnlyInTheFootprint :
    (MachineInv keyA ∧ ∃ t, exec (.wr 0x1000 0) keyA = .next t ∧ byteAt t 0x1000 ≠ byteAt keyA 0x1000) ∧
    (MachineInv decDone ∧ ∃ t, exec .decrypt { decDone with mem := (0x1000, 0) :: decDone.mem.drop 1 } = .next t ∧
      byteAt t 0x1000 = 0x61) ∧
    ∃ t, exec .encrypt { encDone with mem := sealedA.mem, answers := [609, 270] } = .next t ∧
      byteAt t 0x10000 ≠ byteAt { encDone with mem := sealedA.mem } 0x10000 :=
  ⟨⟨keyA_inv, _, rfl, by decide +kernel⟩, ⟨decDone_inv, _, rfl, by decide +kernel⟩, _, rfl, by decide +kernel⟩

/-- A completion, BADCMD, and the write of IRQ_EN. -/
theorem witness_IrqRisesOnlyOnCompletionOrEnable :
    (∃ t, step { micDone with doneIe := true } = .next t ∧ t.irq = true) ∧
    (∃ t, step { keyA with doneIe := true, program := [.txn (encode (.wr 0 5))] } = .next t ∧ t.irq = true) ∧
    (∃ t, step { keyA with
        status := { keyA.status with done := true }, program := [.txn (encode (.wr 8 1))] } = .next t ∧ t.irq = true) ∧
    State.irq { micDone with doneIe := true } = false ∧ State.irq { keyA with doneIe := true } = false :=
  ⟨⟨_, rfl, by decide +kernel⟩, ⟨_, rfl, by decide +kernel⟩, ⟨_, rfl, by decide +kernel⟩, rfl, rfl⟩

theorem witness_StepKeepsInv : MachineInv encHeld ∧ ∃ t, step encHeld = .next t := ⟨encHeld_inv, _, rfl⟩

/-- The smallest and a large legal configuration. -/
theorem witness_ResetMeetsInv :
    Config.Legal { pw := 32, maxlen := 4, maxblk := 1 } ∧ Config.Legal { pw := 1024, maxlen := 4096, maxblk := 256 } := by
  decide +kernel

theorem witness_StepKeepsMemoryForm : Memory.wf sealedA.mem ∧ ∃ t, step sealedA = .next t := ⟨sealedA_inv.mem.1, _, rfl⟩

theorem witness_StepKeepsStatusConsistent : StatusInv encHeld ∧ ∃ t, step encHeld = .next t := ⟨encHeld_inv.status, _, rfl⟩

theorem witness_ValidKeySatisfiesKeyMaterial : MachineInv keyA ∧ keyA.status.keyValid = true := ⟨keyA_inv, rfl⟩

end Sys2Proof.Tests
end

section
/-! ## What the encoder writes, and what a step takes and runs

The decoder undoes the encoder; `fetch` has one equation per kind of move; a step that fetches a packet runs the instruction
that the packet decodes to. -/

namespace Sys2Proof

/-- A reserved word is no valid command (30_encoding.md R93, R94). -/
theorem decodeCommand_of_reservedWord {v : Word} (h : reservedWord v = true) : decodeCommand v = .badcmd := by
  simp only [reservedWord, Bool.or_eq_true, bne_iff_ne, decide_eq_true_eq] at h
  unfold decodeCommand
  split_ifs with hrsvd
  · rfl
  · have hop := h.resolve_left hrsvd
    split
    case h_6 => rfl
    all_goals omega

/-- The decoder gives back every well-formed instruction, with its operands. -/
theorem decode_encode {i : Instr} (h : i.wellFormed = true) : decode (encode i) = .ok i := by
  cases i with
  | badcmd v =>
    have hv : decodeCtrl v = .badcmd v := by rw [decodeCtrl, decodeCommand_of_reservedWord h]
    exact (decode_ctrlPacket v).trans (congrArg _ hv)
  | rd a w => exact decode_busPacket false a w
  | wr a w => exact decode_busPacket true a w
  | nop => exact decode_ctrlPacket 0
  | derive => exact decode_ctrlPacket 1
  | encrypt => exact decode_ctrlPacket 2
  | decrypt => exact decode_ctrlPacket 3
  | modinv => exact decode_ctrlPacket 4

end Sys2Proof

namespace Sys2Proof.Machine

/-! ### What each move takes -/

theorem fetch_host_txn {s : State} {b : List Byte} {rest : List HostOp} (hr : s.inReset = false) (ht : s.turn = .host)
    (hp : s.program = .txn b :: rest) : fetch s = some (b, { s with program := rest }) := by
  simp [fetch, hr, ht, hp]

theorem fetch_host_wait_busy {s : State} {rest : List HostOp} (hr : s.inReset = false) (ht : s.turn = .host)
    (hp : s.program = .wait :: rest) (hb : s.status.busy = true) : fetch s = some (pollPacket, s) := by
  simp [fetch, hr, ht, hp, hb]

theorem fetch_host_wait_idle {s : State} {rest : List HostOp} (hr : s.inReset = false) (ht : s.turn = .host)
    (hp : s.program = .wait :: rest) (hb : s.status.busy = false) :
    fetch s = some (pollPacket, { s with program := rest }) := by
  simp [fetch, hr, ht, hp, hb]

theorem fetch_host_nil {s : State} (hr : s.inReset = false) (ht : s.turn = .host) (hp : s.program = []) :
    fetch s = none := by
  simp [fetch, hr, ht, hp]

theorem fetch_controller {s : State} {v : Word} (hr : s.inReset = false) (ht : s.turn = .controller)
    (hv : phaseWord s.phase = some v) : fetch s = some (ctrlPacket v, s) := by
  simp [fetch, hr, ht, hv]

theorem fetch_controller_idle {s : State} (hr : s.inReset = false) (ht : s.turn = .controller) (hp : s.phase = .idle) :
    fetch s = none := by
  simp [fetch, hr, ht, hp, phaseWord]

/-! ### What a step does with it -/

/-- A packet that decodes is run, and the move passes on. -/
theorem step_of_fetch {s s' : State} {b : List Byte} {i : Instr} (hf : fetch s = some (b, s')) (hd : decode b = .ok i) :
    step s = afterExec (exec i s') := by
  simp only [step, hf, hd]

/-- The poll of `wait` is the RD of STATUS (30_encoding.md R101). -/
theorem step_of_fetch_poll {s s' : State} (hf : fetch s = some (pollPacket, s')) :
    step s = afterExec (exec (.rd 0x004 0) s') :=
  step_of_fetch hf (decode_busPacket false 0x004 0)

/-- The controller runs the instruction of the word that `phase` names (10_state.md R44). -/
theorem step_controller_word {s : State} {v : Word} (hr : s.inReset = false) (ht : s.turn = .controller)
    (hv : phaseWord s.phase = some v) : step s = afterExec (exec (decodeCtrl v) s) :=
  step_of_fetch (fetch_controller hr ht hv) (decode_ctrlPacket v)

/-- A host with nothing to issue only passes the move on. -/
theorem step_host_nil {s : State} (hr : s.inReset = false) (ht : s.turn = .host) (hp : s.program = []) :
    step s = .next (advanceTurn s) := by
  simp [step, fetch_host_nil hr ht hp, otherMove, ht, hr]

/-- A controller that runs no command only passes the move on. -/
theorem step_controller_idle {s : State} (hr : s.inReset = false) (ht : s.turn = .controller) (hp : s.phase = .idle) :
    step s = .next (advanceTurn s) := by
  simp [step, fetch_controller_idle hr ht hp, otherMove, ht]

/-- Settles O5: one fetch equation per clause, and the decoder's answer on the packet it gives. -/
theorem stepRunsTheDecodedInstruction : Obligations.StepRunsTheDecodedInstruction := by
  unfold Obligations.StepRunsTheDecodedInstruction
  intro s hr
  refine ⟨?txn, ?wait, step_host_nil hr, ?derive, ?encrypt, ?decrypt, ?modinv, step_controller_idle hr⟩
  case txn => exact fun i rest ht hp hw => step_of_fetch (fetch_host_txn hr ht hp) (decode_encode hw)
  case wait =>
    exact fun rest ht hp => ⟨fun hb => step_of_fetch_poll (fetch_host_wait_busy hr ht hp hb),
      fun hb => step_of_fetch_poll (fetch_host_wait_idle hr ht hp hb)⟩
  case derive => exact fun ht hp => step_controller_word (v := 1) hr ht (by rw [hp]; rfl)
  case encrypt => exact fun ht hp => step_controller_word (v := 2) hr ht (by rw [hp]; rfl)
  case decrypt => exact fun ht hp => step_controller_word (v := 3) hr ht (by rw [hp]; rfl)
  case modinv => exact fun ht hp => step_controller_word (v := 4) hr ht (by rw [hp]; rfl)

end Sys2Proof.Machine
end

section
/-! ## The buffer memory's form and the configuration

The internal steps of DERIVE and MODINV leave the buffers alone, no operation changes the configuration, and every elementary
effect of a step keeps the canonical form of the memory. -/

namespace Sys2Proof.Machine

/-! ### Frame lemmas of the internal steps and of the other agents -/

@[simp] theorem deriveStep_mem (s : State) : (deriveStep s).mem = s.mem := by
  unfold deriveStep
  split_ifs <;> rfl

@[simp] theorem deriveStep_cfg (s : State) : (deriveStep s).cfg = s.cfg := by
  unfold deriveStep
  split_ifs <;> rfl

@[simp] theorem modinvStep_mem (s : State) : (modinvStep s).mem = s.mem := by
  unfold modinvStep
  split_ifs <;> rfl

@[simp] theorem modinvStep_cfg (s : State) : (modinvStep s).cfg = s.cfg := by
  unfold modinvStep
  split_ifs <;> rfl

@[simp] theorem encryptStep_cfg (s : State) : (encryptStep s).cfg = s.cfg := by
  unfold encryptStep
  split_ifs
  · split <;> rfl
  · split <;> rfl
  · rfl
  · rfl

@[simp] theorem decryptStep_cfg (s : State) : (decryptStep s).cfg = s.cfg := by
  unfold decryptStep
  split_ifs
  · split <;> rfl
  · split <;> rfl
  · rfl
  · rfl

@[simp] theorem engineAnswer_mem (s : State) : (engineAnswer s).mem = s.mem := by
  unfold engineAnswer
  split
  · rfl
  · split_ifs <;> rfl

@[simp] theorem engineAnswer_cfg (s : State) : (engineAnswer s).cfg = s.cfg := by
  unfold engineAnswer
  split
  · rfl
  · split_ifs <;> rfl

@[simp] theorem assertReset_mem (s : State) : (assertReset s).mem = [] := rfl
@[simp] theorem assertReset_cfg (s : State) : (assertReset s).cfg = s.cfg := rfl
@[simp] theorem releaseReset_mem (s : State) : (releaseReset s).mem = s.mem := rfl
@[simp] theorem releaseReset_cfg (s : State) : (releaseReset s).cfg = s.cfg := rfl

/-! ### What every effect keeps -/

/-- No effect changes the implementation parameters (log entry 1). -/
theorem Effect.cfg_eq {s u : State} (h : Effect s u) : u.cfg = s.cfg := by
  cases h <;> simp

/-- Every effect keeps the canonical form of the buffer memory: it leaves the memory alone, writes bytes or entries, or empties
it (log entry 21). -/
theorem Effect.mem_wf {s u : State} (h : Effect s u) (hs : Memory.wf s.mem) : Memory.wf u.mem := by
  cases h with
  | store a v r =>
    rw [respond_mem]
    rcases storeRegion_mem v s r with e | ⟨x, bs, e⟩
    · rwa [e]
    · rw [e]
      exact memSetBytes_wf bs s.mem x hs
  | encrypt =>
    rcases encryptStep_mem s with e | e
    · rwa [e]
    · rw [e]
      exact memSetEntries_wf s.cfg s.answers s.mem 0 hs
  | decrypt =>
    rcases decryptStep_mem s with e | e
    · rwa [e]
    · rw [e]
      exact memSetBytes_wf _ s.mem _ hs
  | reset => exact reset_mem_wf
  | derive => rwa [deriveStep_mem]
  | modinv => rwa [modinvStep_mem]
  | engine => rwa [engineAnswer_mem]
  | idle | read | quiet | ignored | badcmd | start | ack | enable | release => exact hs

/-- Settles O57, by the effect that the step has. -/
theorem stepKeepsMemoryForm : Obligations.StepKeepsMemoryForm := by
  unfold Obligations.StepKeepsMemoryForm
  intro s t hs h
  obtain ⟨l, u, hu, rfl⟩ := step_effect h
  rw [advanceTurn_mem, advanceTurn_cfg]
  exact ⟨hu.mem_wf hs, hu.cfg_eq⟩

end Sys2Proof.Machine
end

section
/-! ## The internal steps, case by case

One inductive predicate per command lists its internal steps with their guards, and one lemma says that the command's step
function takes one of them. The engine's move has its cases in the same way. -/

namespace Sys2Proof.Machine

/-- The internal steps of DERIVE (40_key_derivation.md R120). -/
inductive DeriveMove (s : State) : State → Prop
  | argTooSmall : s.checked = false → s.p < 2 ∨ s.q < 2 → DeriveMove s (deriveError .arg s)
  | phiTooSmall : s.checked = false → 2 ≤ s.p → 2 ≤ s.q → totient s.p s.q < 2 →
      DeriveMove s (deriveError .keyder { s with phi := totient s.p s.q })
  | load : s.checked = false → 2 ≤ s.p → 2 ≤ s.q → 2 ≤ totient s.p s.q →
      DeriveMove s { s with
        checked := true
        phi := totient s.p s.q
        mic := micLoad Config.e (totient s.p s.q) }
  | pass : s.checked = true → s.mic.r1 ≠ 0 → DeriveMove s { s with mic := micPass s.phi s.mic }
  | noInverse : s.checked = true → s.mic.r1 = 0 → s.mic.r0 ≠ 1 → DeriveMove s (deriveError .keyder s)
  | complete : s.checked = true → s.mic.r1 = 0 → s.mic.r0 = 1 → DeriveMove s (completeCommand (deriveCommit s))

theorem deriveStep_move (s : State) : DeriveMove s (deriveStep s) := by
  unfold deriveStep
  split_ifs with hc harg hphi h1 h0
  · exact .argTooSmall (by simpa using hc) harg
  · exact .phiTooSmall (by simpa using hc) (by omega) (by omega) hphi
  · exact .load (by simpa using hc) (by omega) (by omega) (by omega)
  · exact .pass (by simpa using hc) h1
  · exact .noInverse (by simpa using hc) (by simpa using h1) h0
  · exact .complete (by simpa using hc) (by simpa using h1) (by simpa using h0)

/-- The internal steps of MODINV (41_modular_inverse.md R143). -/
inductive ModinvMove (s : State) : State → Prop
  | argTooSmall : s.checked = false → s.mm < 2 → ModinvMove s (errorCompletion .arg s)
  | load : s.checked = false → 2 ≤ s.mm → ModinvMove s { s with checked := true, mic := micLoad s.ma s.mm }
  | pass : s.checked = true → s.mic.r1 ≠ 0 → ModinvMove s { s with mic := micPass s.mm s.mic }
  | noInverse : s.checked = true → s.mic.r1 = 0 → s.mic.r0 ≠ 1 → ModinvMove s (errorCompletion .noinv s)
  | complete : s.checked = true → s.mic.r1 = 0 → s.mic.r0 = 1 →
      ModinvMove s (completeCommand { s with mr := s.mic.t0 })

theorem modinvStep_move (s : State) : ModinvMove s (modinvStep s) := by
  unfold modinvStep
  split_ifs with hc harg h1 h0
  · exact .argTooSmall (by simpa using hc) harg
  · exact .load (by simpa using hc) (by omega)
  · exact .pass (by simpa using hc) h1
  · exact .noInverse (by simpa using hc) (by simpa using h1) h0
  · exact .complete (by simpa using hc) (by simpa using h1) (by simpa using h0)

/-- The internal steps of ENCRYPT (42_encrypt.md R160, 44_control.md R205). -/
inductive EncryptMove (s : State) : State → Prop
  | fail (code : ErrCode) : s.checked = false → encryptCheck s = some code → EncryptMove s (errorCompletion code s)
  | start : s.checked = false → encryptCheck s = none → EncryptMove s { s with checked := true, answers := [] }
  | hold : s.checked = true → s.mxPending = true → s.mxRsp = none → EncryptMove s s
  | absorb (c : Nat) : s.checked = true → s.mxPending = true → s.mxRsp = some c →
      EncryptMove s (absorbModExp { s with answers := s.answers ++ [c] })
  | issue : s.checked = true → s.mxPending = false → s.blk < blockCount s →
      EncryptMove s (issueModExp (blockValue s s.blk) Config.e s.n s)
  | complete : s.checked = true → s.mxPending = false → blockCount s ≤ s.blk →
      EncryptMove s (completeCommand (encryptCommit s))

theorem encryptStep_move (s : State) : EncryptMove s (encryptStep s) := by
  unfold encryptStep
  split_ifs with hc hm hb
  · split
    · exact .fail _ (by simpa using hc) ‹_›
    · exact .start (by simpa using hc) ‹_›
  · split
    · exact .hold (by simpa using hc) hm ‹_›
    · exact .absorb _ (by simpa using hc) hm ‹_›
  · exact .issue (by simpa using hc) (by simpa using hm) hb
  · exact .complete (by simpa using hc) (by simpa using hm) (by omega)

/-- The internal steps of DECRYPT (43_decrypt.md R180, 44_control.md R205). -/
inductive DecryptMove (s : State) : State → Prop
  | fail (code : ErrCode) : s.checked = false → decryptCheck s = some code → DecryptMove s (errorCompletion code s)
  | start : s.checked = false → decryptCheck s = none → DecryptMove s { s with checked := true, acc := [], tp := false }
  | hold : s.checked = true → s.mxPending = true → s.mxRsp = none → DecryptMove s s
  | absorb (pv : Nat) : s.checked = true → s.mxPending = true → s.mxRsp = some pv →
      DecryptMove s (absorbModExp (decryptAppend pv s))
  | issue : s.checked = true → s.mxPending = false → s.blk < cipherCount s →
      DecryptMove s (issueModExp (ctEntry s s.blk) s.d s.n s)
  | complete : s.checked = true → s.mxPending = false → cipherCount s ≤ s.blk →
      DecryptMove s (completeCommand (decryptCommit s))

theorem decryptStep_move (s : State) : DecryptMove s (decryptStep s) := by
  unfold decryptStep
  split_ifs with hc hm hb
  · split
    · exact .fail _ (by simpa using hc) ‹_›
    · exact .start (by simpa using hc) ‹_›
  · split
    · exact .hold (by simpa using hc) hm ‹_›
    · exact .absorb _ (by simpa using hc) hm ‹_›
  · exact .issue (by simpa using hc) (by simpa using hm) hb
  · exact .complete (by simpa using hc) (by simpa using hm) (by omega)

/-- What the engine's move does: nothing, the answer to the request waited for, or the end of a stale request (44_control.md
R209, 70_reset_and_hazards.md R262). -/
inductive EngineMove (s : State) : State → Prop
  | idle : EngineMove s s
  | answer (r : MxReq) : s.mxReq = some r → s.mxPending = true →
      EngineMove s { s with mxReq := none, mxRsp := some (powMod r.base r.exp r.mod) }
  | drop : s.mxPending = false → EngineMove s { s with mxReq := none }

theorem engineAnswer_move (s : State) : EngineMove s (engineAnswer s) := by
  unfold engineAnswer
  split
  · exact .idle
  · split_ifs with hl hm
    · exact .idle
    · exact .answer _ ‹_› hm
    · exact .drop (by simpa using hm)

end Sys2Proof.Machine
end

section
/-! ## STATUS and phase agree (10_state.md R28, R45)

Only the two completions, a command's start and the W1C write touch the fields that `StatusInv` speaks of. -/

namespace Sys2Proof.Machine

theorem StatusInv.idle_of_not_busy {s : State} (h : StatusInv s) (hb : s.status.busy = false) : s.phase = .idle := by
  have hphase := h.1
  rw [hb] at hphase
  simpa using hphase

/-- STATUS and phase agree after reset. -/
theorem statusInv_resetWith (c : Config) : StatusInv (State.resetWith c) := by
  simp [StatusInv, State.resetWith]

theorem statusInv_errorCompletion {c : ErrCode} (s : State) (hc : c ≠ .none) : StatusInv (errorCompletion c s) := by
  simp [StatusInv, statusError, hc]

theorem statusInv_completeCommand {s : State} (h : s.status.err = false ↔ s.status.errcode = .none) :
    StatusInv (completeCommand s) := by
  simp [StatusInv, statusComplete, h]

theorem statusInv_startCommand {ph : Phase} (s : State) (hp : ph ≠ .idle) : StatusInv (startCommand ph s) := by
  simp [StatusInv, statusStart, hp]

/-- The W1C write clears ERR and ERRCODE by the same bit. -/
theorem statusInv_acknowledge {s : State} (v : Word) (h : StatusInv s) : StatusInv (acknowledge v s) := by
  refine ⟨h.1, ?_⟩
  simp only [acknowledge_status, statusW1c]
  cases v.getLsbD 2
  · simpa using h.2
  · simp

theorem DeriveMove.statusInv {s u : State} (h : DeriveMove s u) (hs : StatusInv s) : StatusInv u := by
  cases h with
  | argTooSmall | phiTooSmall | noInverse => exact statusInv_errorCompletion _ (by decide)
  | load | pass => exact hs
  | complete => exact statusInv_completeCommand hs.2

theorem ModinvMove.statusInv {s u : State} (h : ModinvMove s u) (hs : StatusInv s) : StatusInv u := by
  cases h with
  | argTooSmall | noInverse => exact statusInv_errorCompletion _ (by decide)
  | load | pass => exact hs
  | complete => exact statusInv_completeCommand hs.2

theorem EncryptMove.statusInv {s u : State} (h : EncryptMove s u) (hs : StatusInv s) : StatusInv u := by
  cases h with
  | fail code _ hc => exact statusInv_errorCompletion s fun e => encryptCheck_ne s (e ▸ hc)
  | start | hold | absorb | issue => exact hs
  | complete => exact statusInv_completeCommand hs.2

theorem DecryptMove.statusInv {s u : State} (h : DecryptMove s u) (hs : StatusInv s) : StatusInv u := by
  cases h with
  | fail code _ hc => exact statusInv_errorCompletion s fun e => decryptCheck_ne s (e ▸ hc)
  | start | hold | absorb | issue => exact hs
  | complete => exact statusInv_completeCommand hs.2

theorem EngineMove.statusInv {s u : State} (h : EngineMove s u) (hs : StatusInv s) : StatusInv u := by
  cases h <;> exact hs

theorem Effect.statusInv {s u : State} (h : Effect s u) (hs : StatusInv s) : StatusInv u := by
  cases h with
  | idle | read | quiet | ignored | enable | release => exact hs
  | badcmd => exact statusInv_errorCompletion _ (by decide)
  | start ph _ _ hp => exact statusInv_startCommand s hp
  | ack v => exact statusInv_acknowledge v hs
  | store a v r => simpa [StatusInv] using hs
  | derive => exact (deriveStep_move s).statusInv hs
  | encrypt => exact (encryptStep_move s).statusInv hs
  | decrypt => exact (decryptStep_move s).statusInv hs
  | modinv => exact (modinvStep_move s).statusInv hs
  | engine => exact (engineAnswer_move s).statusInv hs
  | reset => exact statusInv_resetWith s.cfg

/-- Settles O58, by the effect that the step has. -/
theorem stepKeepsStatusConsistent : Obligations.StepKeepsStatusConsistent := by
  unfold Obligations.StepKeepsStatusConsistent
  intro s t hs h
  obtain ⟨l, u, hu, rfl⟩ := step_effect h
  have hu' : StatusInv u := hu.statusInv hs
  simpa [StatusInv] using hu'

end Sys2Proof.Machine
end

section
/-! ## What the invariant of the block loop gives, clause by clause -/

namespace Sys2Proof.Machine

theorem BlockInv.running_of_pending {s : State} (h : BlockInv s) (hm : s.mxPending = true) :
    s.checked = true ∧ (s.phase = .encrypt ∨ s.phase = .decrypt) := h.1 hm

theorem BlockInv.rsp_none {s : State} (h : BlockInv s) (hm : s.mxPending = false) : s.mxRsp = none := by
  obtain ⟨-, hrsp, -⟩ := h
  exact hrsp hm

theorem BlockInv.blk_zero {s : State} (h : BlockInv s) (hp : s.phase ≠ .idle) (hc : s.checked = false) : s.blk = 0 := by
  obtain ⟨-, -, hblk, -⟩ := h
  exact hblk ⟨hp, hc⟩

theorem BlockInv.encrypt {s : State} (h : BlockInv s) (hp : s.phase = .encrypt) (hc : s.checked = true) :
    EncryptProgress s := by
  obtain ⟨-, -, -, henc, -⟩ := h
  exact henc ⟨hp, hc⟩

theorem BlockInv.decrypt {s : State} (h : BlockInv s) (hp : s.phase = .decrypt) (hc : s.checked = true) :
    DecryptProgress s := by
  obtain ⟨-, -, -, -, hdec⟩ := h
  exact hdec ⟨hp, hc⟩

/-- A request is out only for a block command past its checks. -/
theorem BlockInv.port_free {s : State} (h : BlockInv s)
    (hp : s.checked = false ∨ s.phase ≠ .encrypt ∧ s.phase ≠ .decrypt) : s.mxPending = false ∧ s.mxRsp = none := by
  have hm : s.mxPending = false := by
    by_contra hm
    obtain ⟨hc, hph⟩ := h.running_of_pending (by simpa using hm)
    rcases hp with hp | ⟨he, hd⟩
    · simp [hc] at hp
    · exact hph.elim he hd
  exact ⟨hm, h.rsp_none hm⟩

theorem BlockInv.port_free_idle {s : State} (h : BlockInv s) (hp : s.phase = .idle) :
    s.mxPending = false ∧ s.mxRsp = none := h.port_free (.inr (by simp [hp]))

end Sys2Proof.Machine
end

section
/-! ## Registers, buffers and key keep what their invariants say

Which values the wide registers, the buffers and the key registers can take after an operation that writes them. -/

namespace Sys2Proof.Machine

/-! ### Wide registers (10_state.md R35 to R41) -/

/-- Replacing the digit of weight a, in base m, of a number below a * m * b leaves it below that bound. -/
theorem replaceDigit_lt {v w a m b : Nat} (ha : 0 < a) (hw : w < m) (hv : v < a * m * b) :
    v % a + w * a + v / (a * m) * (a * m) < a * m * b := by
  have hlow : v % a < a := Nat.mod_lt v ha
  have hdigit : (w + 1) * a ≤ a * m := by
    rw [Nat.mul_comm a]
    exact Nat.mul_le_mul_right a hw
  have hhigh : (v / (a * m) + 1) * (a * m) ≤ a * m * b := by
    rw [Nat.mul_comm (a * m) b]
    exact Nat.mul_le_mul_right _ (Nat.div_lt_of_lt_mul hv)
  rw [Nat.succ_mul] at hdigit hhigh
  omega

/-- Replacing a word inside a window of k words leaves a value of k words (20_memory.md R67). -/
theorem withWord_lt {v j k : Nat} (w : Word) (hj : j < k) (hv : v < 2 ^ (32 * k)) : withWord v j w < 2 ^ (32 * k) := by
  obtain ⟨i, rfl⟩ := Nat.exists_eq_add_of_lt hj
  rw [Nat.add_right_comm, Nat.mul_add, pow_add, Nat.mul_add, pow_add] at hv ⊢
  rw [withWord, Nat.mul_add, pow_add]
  exact replaceDigit_lt (Nat.two_pow_pos _) w.isLt hv

/-- A stored word keeps the widths: its index lies in the register's window. -/
theorem widthInv_storeRegion {s : State} {r : Region} (v : Word) (hl : s.cfg.Legal)
    (hr : ∀ w j, r = .wide w j → j < wideWords s.cfg w) (hs : WidthInv s) : WidthInv (storeRegion v s r) := by
  obtain ⟨-, -, -, hpw, hnw, -, -⟩ := legal_bounds hl
  cases r with
  | wide w j =>
    have hj := hr w j rfl
    rw [WidthInv, hpw, hnw] at hs
    rw [WidthInv, storeRegion_cfg, hpw, hnw]
    obtain ⟨hp, hq, hn, hd, hma, hmm, hmr⟩ := hs
    cases w <;> simp only [storeRegion]
    case p => exact ⟨withWord_lt v hj hp, hq, hn, hd, hma, hmm, hmr⟩
    case q => exact ⟨hp, withWord_lt v hj hq, hn, hd, hma, hmm, hmr⟩
    case ma => exact ⟨hp, hq, hn, hd, withWord_lt v hj hma, hmm, hmr⟩
    case mm => exact ⟨hp, hq, hn, hd, hma, withWord_lt v hj hmm, hmr⟩
    case n | d | mr => exact ⟨hp, hq, hn, hd, hma, hmm, hmr⟩
  | _ => exact hs

/-- The product of P and Q fits in N. -/
theorem WidthInv.modulus_lt {s : State} (h : WidthInv s) : s.p * s.q < 2 ^ s.cfg.nw := by
  obtain ⟨hp, hq, -⟩ := h
  rw [Config.nw, Nat.two_mul, pow_add]
  exact Nat.mul_lt_mul'' hp hq

/-- A coefficient of MIC modulo phi is below P * Q. -/
theorem totient_le_mul (p q : Nat) : totient p q ≤ p * q := Nat.mul_le_mul (Nat.sub_le p 1) (Nat.sub_le q 1)

/-- An error of DERIVE clears N and D and keeps the other wide registers. -/
theorem widthInv_deriveError {s : State} (code : ErrCode) (h : WidthInv s) : WidthInv (deriveError code s) := by
  obtain ⟨hp, hq, -, -, hma, hmm, hmr⟩ := h
  exact ⟨hp, hq, Nat.two_pow_pos _, Nat.two_pow_pos _, hma, hmm, hmr⟩

/-- A committed key fits: N = P * Q, and D is below phi. -/
theorem widthInv_deriveCommit {s : State} (h : WidthInv s) (hd : s.mic.t0 < totient s.p s.q) :
    WidthInv (deriveCommit s) := by
  have hn := h.modulus_lt
  obtain ⟨hp, hq, -, -, hma, hmm, hmr⟩ := h
  exact ⟨hp, hq, hn, (hd.trans_le (totient_le_mul _ _)).trans hn, hma, hmm, hmr⟩

theorem DeriveMove.widthInv {s u : State} (h : DeriveMove s u) (hp : s.phase = .derive) (hm : MicInv s) (hs : WidthInv s) :
    WidthInv u := by
  cases h with
  | argTooSmall | phiTooSmall | noInverse => exact widthInv_deriveError _ hs
  | load | pass => exact hs
  | complete hc _ h0 =>
    obtain ⟨-, -, hphi, hrel⟩ := hm.1 ⟨hp, hc⟩
    have hd : s.mic.t0 < totient s.p s.q := hphi ▸ (micRel_inverse hrel h0).2.1
    exact (widthInv_deriveCommit hs hd : WidthInv (deriveCommit s))

theorem ModinvMove.widthInv {s u : State} (h : ModinvMove s u) (hp : s.phase = .modinv) (hm : MicInv s) (hs : WidthInv s) :
    WidthInv u := by
  cases h with
  | argTooSmall | load | pass | noInverse => exact hs
  | complete hc _ h0 =>
    have ht : s.mic.t0 < s.mm := (micRel_inverse (hm.2 ⟨hp, hc⟩) h0).2.1
    obtain ⟨hp, hq, hn, hd, hma, hmm, -⟩ := hs
    exact ⟨hp, hq, hn, hd, hma, hmm, ht.trans hmm⟩

theorem EncryptMove.widthInv {s u : State} (h : EncryptMove s u) (hs : WidthInv s) : WidthInv u := by
  cases h <;> exact hs

theorem DecryptMove.widthInv {s u : State} (h : DecryptMove s u) (hs : WidthInv s) : WidthInv u := by
  cases h <;> exact hs

theorem EngineMove.widthInv {s u : State} (h : EngineMove s u) (hs : WidthInv s) : WidthInv u := by
  cases h <;> exact hs

theorem widthInv_resetWith (c : Config) : WidthInv (State.resetWith c) := by
  simp [WidthInv, State.resetWith]

theorem Effect.widthInv {s u : State} (h : Effect s u) (hl : s.cfg.Legal) (hm : MicInv s) (hs : WidthInv s) :
    WidthInv u := by
  cases h with
  | idle | read | quiet | ignored | badcmd | start | ack | enable | release => exact hs
  | store a v r _ _ ht => exact widthInv_storeRegion v hl (region_inv (busTarget_inv ht).2).1 hs
  | derive _ hp => exact (deriveStep_move s).widthInv hp hm hs
  | modinv _ hp => exact (modinvStep_move s).widthInv hp hm hs
  | encrypt => exact (encryptStep_move s).widthInv hs
  | decrypt => exact (decryptStep_move s).widthInv hs
  | engine => exact (engineAnswer_move s).widthInv hs
  | reset => exact widthInv_resetWith s.cfg

/-! ### Which bytes the buffers list (20_memory.md R61) -/

/-- Writing bytes that lie in the buffers lists buffer bytes only. -/
theorem bufferAddr_of_memSetBytes {s : State} (hs : MemInv s) {a : Nat} {bs : List Byte}
    (hb : ∀ x, a ≤ x → x < a + bs.length → bufferAddr s.cfg x) :
    ∀ c ∈ memSetBytes s.mem a bs, bufferAddr s.cfg c.1 := by
  intro c hc
  rcases mem_memSetBytes bs s.mem a c hc with ⟨h1, h2⟩ | hc
  · exact hb c.1 h1 h2
  · exact hs.2 c hc

theorem bufferAddr_storeRegion {s : State} {a : Addr} {r : Region} (v : Word) (hl : s.cfg.Legal)
    (ht : busTarget s.cfg a = some r) (hs : MemInv s) : ∀ c ∈ (storeRegion v s r).mem, bufferAddr s.cfg c.1 := by
  obtain ⟨-, hmsg, hct⟩ := region_inv (busTarget_inv ht).2
  have halign := (busTarget_inv ht).1
  obtain ⟨-, -, -, hlen, -⟩ := hl
  cases r with
  | msgBuf w =>
    refine bufferAddr_of_memSetBytes hs fun x h1 h2 => .inl ?_
    have := hmsg w rfl
    simp only [msgAddr, valBytes_length] at h1 h2
    omega
  | ctBuf u =>
    refine bufferAddr_of_memSetBytes hs fun x h1 h2 => .inr ?_
    have := hct u rfl
    simp only [valBytes_length] at h1 h2
    omega
  | wide w j => rw [storeRegion_wide_mem]; exact hs.2
  | _ => exact hs.2

/-- ENCRYPT's commit writes CT(0..k) with k at most MAXBLK. -/
theorem bufferAddr_encryptCommit {s : State} (ha : s.answers.length ≤ s.cfg.maxblk) (hs : MemInv s) :
    ∀ c ∈ (encryptCommit s).mem, bufferAddr s.cfg c.1 := by
  intro c hc
  rcases mem_memSetEntries s.cfg s.answers s.mem 0 c hc with ⟨h1, h2⟩ | hc
  · have := Nat.mul_le_mul_right s.cfg.wpn ha
    rw [ctAddr, Nat.zero_add, Nat.mul_assoc, Nat.mul_comm s.cfg.wpn] at h2
    rw [ctAddr] at h1
    exact .inr ⟨by omega, by omega⟩
  · exact hs.2 c hc

/-- DECRYPT's commit writes MSG(0..L) with L at most MAXLEN. -/
theorem bufferAddr_decryptCommit {s : State} (hm : msgCount s ≤ s.cfg.maxlen) (hs : MemInv s) :
    ∀ c ∈ (decryptCommit s).mem, bufferAddr s.cfg c.1 := by
  refine bufferAddr_of_memSetBytes hs fun x h1 h2 => .inl ?_
  simp only [msgAddr, bitsBytes_length] at h1 h2
  omega

theorem EncryptMove.bufferAddr {s u : State} (h : EncryptMove s u) (hp : s.phase = .encrypt) (hb : BlockInv s)
    (hs : MemInv s) : ∀ c ∈ u.mem, bufferAddr s.cfg c.1 := by
  cases h with
  | fail | start | hold | absorb | issue => exact hs.2
  | complete hc =>
    obtain ⟨hcheck, hblk, hans, -⟩ := hb.encrypt hp hc
    obtain ⟨-, -, hk⟩ := encryptCheck_none hcheck
    refine bufferAddr_encryptCommit ?_ hs
    rw [hans, List.length_map, List.length_range]
    omega

theorem DecryptMove.bufferAddr {s u : State} (h : DecryptMove s u) (hp : s.phase = .decrypt) (hb : BlockInv s)
    (hs : MemInv s) : ∀ c ∈ u.mem, bufferAddr s.cfg c.1 := by
  cases h with
  | fail | start | hold | absorb | issue => exact hs.2
  | complete hc =>
    obtain ⟨hcheck, -⟩ := hb.decrypt hp hc
    exact bufferAddr_decryptCommit (decryptCheck_none hcheck).2.1 hs

theorem memInv_resetWith (c : Config) : MemInv (State.resetWith c) := ⟨reset_mem_wf, by simp [State.resetWith]⟩

theorem Effect.memInv {s u : State} (h : Effect s u) (hl : s.cfg.Legal) (hb : BlockInv s) (hs : MemInv s) : MemInv u := by
  refine ⟨h.mem_wf hs.1, ?_⟩
  rw [h.cfg_eq]
  cases h with
  | idle | read | quiet | ignored | badcmd | start | ack | enable | release => exact hs.2
  | store a v r _ _ ht => exact bufferAddr_storeRegion v hl ht hs
  | derive => rw [deriveStep_mem]; exact hs.2
  | modinv => rw [modinvStep_mem]; exact hs.2
  | encrypt _ hp => exact (encryptStep_move s).bufferAddr hp hb hs
  | decrypt _ hp => exact (decryptStep_move s).bufferAddr hp hb hs
  | engine => rw [engineAnswer_mem]; exact hs.2
  | reset => rw [assertReset_mem]; simp

/-! ### The key registers (10_state.md R50) -/

theorem keyInv_deriveError (code : ErrCode) (s : State) : KeyInv (deriveError code s) := by
  simp [KeyInv, deriveError, statusError]

/-- What DERIVE commits is a key: BLOCK_LEN holds bitlen(N) - 1, since N has at most NW bits. -/
theorem keyInv_deriveCommit {s : State} (hl : s.cfg.Legal) (hw : WidthInv s) (hp : 2 ≤ s.p) (hq : 2 ≤ s.q)
    (hphi : s.phi = totient s.p s.q) (hrel : MicRel Config.e s.phi s.mic) (h0 : s.mic.r0 = 1) :
    KeyInv (deriveCommit s) := by
  obtain ⟨hd1, hd2, hd3⟩ := micRel_inverse hrel h0
  rw [hphi] at hd2 hd3
  have hbl : bitlen (s.p * s.q) ≤ s.cfg.nw := bitlen_le hw.modulus_lt
  have hnw : s.cfg.nw ≤ 2048 := by
    obtain ⟨-, -, hpw, -⟩ := hl
    rw [Config.nw]
    omega
  exact ⟨s.p, s.q, hp, hq, rfl, hd1, hd2, hd3, Nat.mod_eq_of_lt (by omega)⟩

theorem DeriveMove.keyInv {s u : State} (h : DeriveMove s u) (hp : s.phase = .derive) (hl : s.cfg.Legal) (hw : WidthInv s)
    (hm : MicInv s) (hs : KeyInv s) : KeyInv u := by
  cases h with
  | argTooSmall | phiTooSmall | noInverse => exact keyInv_deriveError _ _
  | load | pass => exact hs
  | complete hc _ h0 =>
    obtain ⟨hp2, hq2, hphi, hrel⟩ := hm.1 ⟨hp, hc⟩
    exact (keyInv_deriveCommit hl hw hp2 hq2 hphi hrel h0 : KeyInv (deriveCommit s))

theorem ModinvMove.keyInv {s u : State} (h : ModinvMove s u) (hs : KeyInv s) : KeyInv u := by
  cases h <;> exact hs

theorem EncryptMove.keyInv {s u : State} (h : EncryptMove s u) (hs : KeyInv s) : KeyInv u := by
  cases h <;> exact hs

theorem DecryptMove.keyInv {s u : State} (h : DecryptMove s u) (hs : KeyInv s) : KeyInv u := by
  cases h <;> exact hs

theorem EngineMove.keyInv {s u : State} (h : EngineMove s u) (hs : KeyInv s) : KeyInv u := by
  cases h <;> exact hs

theorem keyInv_resetWith (c : Config) : KeyInv (State.resetWith c) := ⟨rfl, rfl, rfl⟩

theorem Effect.keyInv {s u : State} (h : Effect s u) (hl : s.cfg.Legal) (hw : WidthInv s) (hm : MicInv s) (hs : KeyInv s) :
    KeyInv u := by
  cases h with
  | idle | read | quiet | ignored | badcmd | start | ack | enable | release => exact hs
  | store a v r => simpa [KeyInv] using hs
  | derive _ hp => exact (deriveStep_move s).keyInv hp hl hw hm hs
  | modinv => exact (modinvStep_move s).keyInv hs
  | encrypt => exact (encryptStep_move s).keyInv hs
  | decrypt => exact (decryptStep_move s).keyInv hs
  | engine => exact (engineAnswer_move s).keyInv hs
  | reset => exact keyInv_resetWith s.cfg

/-- Settles O59: the invariant's key clause, with N's width for the bound on BLOCK_LEN (10_state.md R33). -/
theorem validKeySatisfiesKeyMaterial : Obligations.ValidKeySatisfiesKeyMaterial := by
  unfold Obligations.ValidKeySatisfiesKeyMaterial
  intro s hs hk
  obtain ⟨hn4, hbl, hbl2⟩ := key_facts hs.key hk
  obtain ⟨-, -, hn, -⟩ := hs.width
  have hbits : bitlen s.n ≤ s.cfg.nw := bitlen_le hn
  have hkey := hs.key
  rw [KeyInv, if_pos hk] at hkey
  obtain ⟨p, q, hp, hq, hpq, hd1, hd2, hd3, -⟩ := hkey
  exact ⟨hn4, hbl, hbl2, by omega, p, q, hp, hq, hpq, hd1, hd2, hd3⟩

/-! ### MIC's registers (41_modular_inverse.md R141) -/

/-- Outside a running DERIVE or MODINV past its checks nothing is said of MIC. -/
theorem micInv_of_not_computing {s : State} (hd : s.phase = .derive → s.checked = false)
    (hm : s.phase = .modinv → s.checked = false) : MicInv s :=
  ⟨fun h => by simp [hd h.1] at h, fun h => by simp [hm h.1] at h⟩

theorem micInv_idle {s : State} (h : s.phase = .idle) : MicInv s :=
  micInv_of_not_computing (by simp [h]) (by simp [h])

theorem DeriveMove.micInv {s u : State} (h : DeriveMove s u) (hp : s.phase = .derive) (hs : MicInv s) : MicInv u := by
  cases h with
  | argTooSmall | phiTooSmall | noInverse | complete => exact micInv_idle rfl
  | load _ hp2 hq2 hphi => exact ⟨fun _ => ⟨hp2, hq2, rfl, micRel_load Config.e hphi⟩, by simp [hp]⟩
  | pass hc h1 =>
    obtain ⟨hp2, hq2, hphi, hrel⟩ := hs.1 ⟨hp, hc⟩
    exact ⟨fun _ => ⟨hp2, hq2, hphi, micRel_pass hrel h1⟩, by simp [hp]⟩

theorem ModinvMove.micInv {s u : State} (h : ModinvMove s u) (hp : s.phase = .modinv) (hs : MicInv s) : MicInv u := by
  cases h with
  | argTooSmall | noInverse | complete => exact micInv_idle rfl
  | load _ hm => exact ⟨by simp [hp], fun _ => micRel_load s.ma hm⟩
  | pass hc h1 => exact ⟨by simp [hp], fun _ => micRel_pass (hs.2 ⟨hp, hc⟩) h1⟩

theorem EncryptMove.phase_or {s u : State} (h : EncryptMove s u) : u.phase = s.phase ∨ u.phase = .idle := by
  cases h with
  | start | hold | absorb | issue => exact .inl rfl
  | fail | complete => exact .inr rfl

theorem DecryptMove.phase_or {s u : State} (h : DecryptMove s u) : u.phase = s.phase ∨ u.phase = .idle := by
  cases h with
  | start | hold | absorb | issue => exact .inl rfl
  | fail | complete => exact .inr rfl

theorem EngineMove.micInv {s u : State} (h : EngineMove s u) (hs : MicInv s) : MicInv u := by
  cases h <;> exact hs

theorem Effect.micInv {s u : State} (h : Effect s u) (hst : StatusInv s) (hs : MicInv s) : MicInv u := by
  cases h with
  | idle | read | quiet | ignored | ack | enable | release => exact hs
  | badcmd | reset => exact micInv_idle rfl
  | start => exact micInv_of_not_computing (fun _ => rfl) (fun _ => rfl)
  | store a v r _ hb => exact micInv_idle (by simpa using hst.idle_of_not_busy hb)
  | derive _ hp => exact (deriveStep_move s).micInv hp hs
  | modinv _ hp => exact (modinvStep_move s).micInv hp hs
  | encrypt _ hp =>
    rcases (encryptStep_move s).phase_or with e | e
    · exact micInv_of_not_computing (by simp [e, hp]) (by simp [e, hp])
    · exact micInv_idle e
  | decrypt _ hp =>
    rcases (decryptStep_move s).phase_or with e | e
    · exact micInv_of_not_computing (by simp [e, hp]) (by simp [e, hp])
    · exact micInv_idle e
  | engine => exact (engineAnswer_move s).micInv hs

end Sys2Proof.Machine
end

section
/-! ## The block loop of ENCRYPT and DECRYPT (42_encrypt.md R163, 43_decrypt.md R183, 44_control.md R209)

`BlockInv` reads the machine through two lists of fields: what the values of the blocks are computed from, and how far the loop
has come. A step that keeps both keeps the invariant, and each move of the loop changes the second alone. -/

namespace Sys2Proof.Machine

/-- The fields that the checks and the block values of ENCRYPT and DECRYPT are computed from. -/
def blockInputs (s : State) : Config × Bool × Word × Word × Word × Nat × Nat × Memory × Nat :=
  (s.cfg, s.status.keyValid, s.msgLen, s.blkCount, s.blockLen, s.n, s.d, s.mem, s.epoch)

/-- The fields that say how far the block loop has come, but for the port's request and answer. -/
def loopState (s : State) : Phase × Bool × Nat × Bool × List Nat × List Bool × Bool :=
  (s.phase, s.checked, s.blk, s.mxPending, s.answers, s.acc, s.tp)

/-- ENCRYPT's progress in a state with the inputs of s. -/
theorem encryptProgress_iff {s u : State} (hi : blockInputs u = blockInputs s) :
    EncryptProgress u ↔
      encryptCheck s = none ∧ u.blk ≤ blockCount s ∧ u.answers = (List.range u.blk).map (cipherValue s) ∧
      (u.mxPending = true → u.blk < blockCount s ∧ PortHolds u (blockValue s u.blk) Config.e) := by
  simp only [blockInputs, Prod.mk.injEq] at hi
  obtain ⟨hc, hk, hl, -, hb, hn, -, hm, he⟩ := hi
  rw [EncryptProgress, encryptCheck_congr hc hk hl hb, blockCount_congr hl hb, cipherValue_congr hl hb hn hm he,
    blockValue_congr hl hb fun i _ => byteAt_congr hm he _]

/-- DECRYPT's progress in a state with the inputs of s. -/
theorem decryptProgress_iff {s u : State} (hi : blockInputs u = blockInputs s) :
    DecryptProgress u ↔
      decryptCheck s = none ∧ u.blk ≤ cipherCount s ∧ (u.acc, u.tp) = reassembled s u.blk ∧
      (u.mxPending = true → u.blk < cipherCount s ∧ PortHolds u (ctEntry s u.blk) s.d) := by
  simp only [blockInputs, Prod.mk.injEq] at hi
  obtain ⟨hc, hk, hl, hbc, hb, hn, hd, hm, he⟩ := hi
  rw [DecryptProgress, decryptCheck_congr hc hk hl hb hn hbc hm he, cipherCount, hbc,
    reassembled_congr hc hl hb hn hd hbc hm he, ctEntry_congr hm he hc, hd]
  rfl

/-- A step that keeps the inputs and the loop's progress keeps the invariant, if the port's request is still held. -/
theorem BlockInv.of_port {s u : State} (h : BlockInv s) (hi : blockInputs u = blockInputs s)
    (hl : loopState u = loopState s) (hrsp : s.mxPending = false → u.mxRsp = none)
    (hport : ∀ b x, s.mxPending = true → PortHolds s b x → PortHolds u b x) : BlockInv u := by
  obtain ⟨hpend, -, hblk, henc, hdec⟩ := h
  simp only [loopState, Prod.mk.injEq] at hl
  obtain ⟨hp, hc, hb, hm, ha, hacc, htp⟩ := hl
  rw [BlockInv, encryptProgress_iff hi, decryptProgress_iff hi, hp, hc, hb, hm, ha, hacc, htp]
  refine ⟨hpend, hrsp, hblk, fun hrun => ?_, fun hrun => ?_⟩
  · obtain ⟨h1, h2, h3, h4⟩ := henc hrun
    exact ⟨h1, h2, h3, fun hm => ⟨(h4 hm).1, hport _ _ hm (h4 hm).2⟩⟩
  · obtain ⟨h1, h2, h3, h4⟩ := hdec hrun
    exact ⟨h1, h2, h3, fun hm => ⟨(h4 hm).1, hport _ _ hm (h4 hm).2⟩⟩

/-- A step that keeps the inputs, the loop's progress and the port keeps the invariant. -/
theorem BlockInv.frame {s u : State} (h : BlockInv s) (hi : blockInputs u = blockInputs s) (hl : loopState u = loopState s)
    (hport : (u.mxReq, u.mxRsp) = (s.mxReq, s.mxRsp)) : BlockInv u := by
  obtain ⟨hreq, hrsp⟩ := Prod.mk.inj hport
  have hn : u.n = s.n := by
    simp only [blockInputs, Prod.mk.injEq] at hi
    obtain ⟨-, -, -, -, -, hn, -⟩ := hi
    exact hn
  refine h.of_port hi hl (fun hm => hrsp.trans (h.rsp_none hm)) fun b x _ hh => ?_
  rwa [PortHolds, hreq, hrsp, hn]

/-- Nothing is on the port of a machine that runs no block command past its checks. -/
theorem blockInv_of_portFree {s : State} (hm : s.mxPending = false) (hr : s.mxRsp = none)
    (hb : s.phase ≠ .idle → s.checked = false → s.blk = 0)
    (hp : s.phase = .encrypt ∨ s.phase = .decrypt → s.checked = false) : BlockInv s := by
  refine ⟨by simp [hm], fun _ => hr, fun h => hb h.1 h.2, fun h => ?_, fun h => ?_⟩
  · have := hp (.inl h.1)
    simp [h.2] at this
  · have := hp (.inr h.1)
    simp [h.2] at this

theorem blockInv_idle {s : State} (hp : s.phase = .idle) (hm : s.mxPending = false) (hr : s.mxRsp = none) : BlockInv s :=
  blockInv_of_portFree hm hr (by simp [hp]) (by simp [hp])

theorem blockInv_encrypting {s : State} (hp : s.phase = .encrypt) (hc : s.checked = true)
    (hr : s.mxPending = false → s.mxRsp = none) (h : EncryptProgress s) : BlockInv s :=
  ⟨fun _ => ⟨hc, .inl hp⟩, hr, by simp [hc], fun _ => h, by simp [hp]⟩

theorem blockInv_decrypting {s : State} (hp : s.phase = .decrypt) (hc : s.checked = true)
    (hr : s.mxPending = false → s.mxRsp = none) (h : DecryptProgress s) : BlockInv s :=
  ⟨fun _ => ⟨hc, .inr hp⟩, hr, by simp [hc], by simp [hp], fun _ => h⟩

/-- An answer on the port is the one its request asked for. -/
theorem PortHolds.answer_eq {s : State} {b x c : Nat} (h : PortHolds s b x) (hr : s.mxRsp = some c) :
    c = powMod b x s.n := by
  rcases h with ⟨-, hnone⟩ | ⟨-, hsome⟩
  · simp [hr] at hnone
  · simpa [hr] using hsome

theorem EncryptMove.blockInv {s u : State} (h : EncryptMove s u) (hp : s.phase = .encrypt) (hs : BlockInv s) :
    BlockInv u := by
  cases h with
  | fail code hc =>
    obtain ⟨hm, hr⟩ := hs.port_free (.inl hc)
    exact blockInv_idle rfl hm hr
  | start hc hcheck =>
    obtain ⟨hm, hr⟩ := hs.port_free (.inl hc)
    have hblk : s.blk = 0 := hs.blk_zero (by simp [hp]) hc
    refine blockInv_encrypting hp rfl (fun _ => hr) ((encryptProgress_iff (s := s) (by rfl)).2 ⟨hcheck, ?_, ?_, ?_⟩)
    · simp [hblk]
    · simp [hblk]
    · simp [hm]
  | hold => exact hs
  | absorb c hc hm hr =>
    obtain ⟨hcheck, -, hans, hpend⟩ := hs.encrypt hp hc
    obtain ⟨hblk, hport⟩ := hpend hm
    have hvalue : c = cipherValue s s.blk := hport.answer_eq hr
    refine blockInv_encrypting hp hc (fun _ => rfl) ((encryptProgress_iff (s := s) (by rfl)).2 ⟨hcheck, hblk, ?_, nofun⟩)
    simp [hans, hvalue, List.range_succ]
  | issue hc hm hblk =>
    obtain ⟨hcheck, hle, hans, -⟩ := hs.encrypt hp hc
    exact blockInv_encrypting hp hc nofun
      ((encryptProgress_iff (s := s) (by rfl)).2 ⟨hcheck, hle, hans, fun _ => ⟨hblk, .inl ⟨rfl, rfl⟩⟩⟩)
  | complete hc hm => exact blockInv_idle rfl hm (hs.rsp_none hm)

@[simp] theorem decryptAppend_blk (pv : Nat) (s : State) : (decryptAppend pv s).blk = s.blk := rfl

theorem decryptAppend_pair (pv : Nat) (s : State) :
    ((decryptAppend pv s).acc, (decryptAppend pv s).tp) = appendBlock (currentWidth s) pv (s.acc, s.tp) := rfl

theorem DecryptMove.blockInv {s u : State} (h : DecryptMove s u) (hp : s.phase = .decrypt) (hs : BlockInv s) :
    BlockInv u := by
  cases h with
  | fail code hc =>
    obtain ⟨hm, hr⟩ := hs.port_free (.inl hc)
    exact blockInv_idle rfl hm hr
  | start hc hcheck =>
    obtain ⟨hm, hr⟩ := hs.port_free (.inl hc)
    have hblk : s.blk = 0 := hs.blk_zero (by simp [hp]) hc
    refine blockInv_decrypting hp rfl (fun _ => hr) ((decryptProgress_iff (s := s) (by rfl)).2 ⟨hcheck, ?_, ?_, ?_⟩)
    · simp [hblk]
    · simp [hblk, reassembled]
    · simp [hm]
  | hold => exact hs
  | absorb pv hc hm hr =>
    obtain ⟨hcheck, -, hacc, hpend⟩ := hs.decrypt hp hc
    obtain ⟨hblk, hport⟩ := hpend hm
    have hvalue : pv = plainValue s s.blk := hport.answer_eq hr
    refine blockInv_decrypting hp hc (fun _ => rfl) ((decryptProgress_iff (s := s) (by rfl)).2 ⟨hcheck, hblk, ?_, nofun⟩)
    rw [absorbModExp_blk, decryptAppend_blk, reassembled, ← hacc, ← hvalue]
    exact decryptAppend_pair pv s
  | issue hc hm hblk =>
    obtain ⟨hcheck, hle, hacc, -⟩ := hs.decrypt hp hc
    exact blockInv_decrypting hp hc nofun
      ((decryptProgress_iff (s := s) (by rfl)).2 ⟨hcheck, hle, hacc, fun _ => ⟨hblk, .inl ⟨rfl, rfl⟩⟩⟩)
  | complete hc hm => exact blockInv_idle rfl hm (hs.rsp_none hm)

theorem DeriveMove.blockInv {s u : State} (h : DeriveMove s u) (hp : s.phase = .derive) (hs : BlockInv s) :
    BlockInv u := by
  obtain ⟨hm, hr⟩ := hs.port_free (.inr (by simp [hp]))
  cases h with
  | argTooSmall | phiTooSmall | noInverse | complete => exact blockInv_idle rfl hm hr
  | load => exact blockInv_of_portFree hm hr nofun (by simp [hp])
  | pass hc => exact blockInv_of_portFree hm hr (by simp [hc]) (by simp [hp])

theorem ModinvMove.blockInv {s u : State} (h : ModinvMove s u) (hp : s.phase = .modinv) (hs : BlockInv s) :
    BlockInv u := by
  obtain ⟨hm, hr⟩ := hs.port_free (.inr (by simp [hp]))
  cases h with
  | argTooSmall | noInverse | complete => exact blockInv_idle rfl hm hr
  | load => exact blockInv_of_portFree hm hr nofun (by simp [hp])
  | pass hc => exact blockInv_of_portFree hm hr (by simp [hc]) (by simp [hp])

/-- The answer takes the place of the request that `PortHolds` speaks of. -/
theorem EngineMove.blockInv {s u : State} (h : EngineMove s u) (hs : BlockInv s) : BlockInv u := by
  cases h with
  | idle => exact hs
  | drop hm => exact hs.of_port rfl rfl hs.rsp_none (by simp [hm])
  | answer r hreq hm =>
    refine hs.of_port rfl rfl (by simp [hm]) fun b x _ hport => .inr ⟨rfl, ?_⟩
    rcases hport with ⟨hr, -⟩ | ⟨hr, -⟩
    · obtain rfl : r = { base := b, exp := x, mod := s.n } := by simpa [hreq] using hr
      rfl
    · simp [hreq] at hr

theorem Effect.blockInv {s u : State} (h : Effect s u) (hst : StatusInv s) (hs : BlockInv s) : BlockInv u := by
  cases h with
  | idle | read | quiet | ignored | ack | enable | release => exact hs.frame rfl rfl rfl
  | badcmd _ hb =>
    obtain ⟨hm, hr⟩ := hs.port_free_idle (hst.idle_of_not_busy hb)
    exact blockInv_idle rfl hm hr
  | start ph _ hb =>
    obtain ⟨-, hr⟩ := hs.port_free_idle (hst.idle_of_not_busy hb)
    exact blockInv_of_portFree rfl hr (fun _ _ => rfl) fun _ => rfl
  | store a v r _ hb =>
    have hp := hst.idle_of_not_busy hb
    obtain ⟨hm, hr⟩ := hs.port_free_idle hp
    exact blockInv_idle (by simpa using hp) (by simpa using hm) (by simpa using hr)
  | derive _ hp => exact (deriveStep_move s).blockInv hp hs
  | encrypt _ hp => exact (encryptStep_move s).blockInv hp hs
  | decrypt _ hp => exact (decryptStep_move s).blockInv hp hs
  | modinv _ hp => exact (modinvStep_move s).blockInv hp hs
  | engine => exact (engineAnswer_move s).blockInv hs
  | reset => exact blockInv_idle rfl rfl rfl

/-! ### The requests on the port (44_control.md R209) -/

theorem traceInv_respond {r : Resp} {w : Word} {s : State} (h : TraceInv s) : TraceInv (respond r w s) := by
  intro q hq
  exact h q (by simpa using hq)

theorem traceInv_issueModExp {s : State} {b x m : Nat} (h : TraceInv s) (hm : 4 ≤ m) (hb : b < m) :
    TraceInv (issueModExp b x m s) := by
  intro q hq
  rcases List.mem_cons.1 hq with hq | hq
  · obtain rfl : q = { base := b, exp := x, mod := m } := by simpa using hq
    exact ⟨hm, hb⟩
  · exact h q hq

/-- With a valid key every block value is below N: it has fewer bits (42_encrypt.md R166). -/
theorem blockValue_lt_modulus {s : State} (h : KeyInv s) (hk : s.status.keyValid = true) (i : Nat) :
    blockValue s i < s.n := by
  obtain ⟨hn, hbl, -⟩ := key_facts h hk
  calc blockValue s i < 2 ^ (bitlen s.n - 1) := hbl ▸ blockValue_lt_two_pow s i
    _ ≤ s.n := two_pow_bitlen_pred_le (by omega)

theorem EncryptMove.traceInv {s u : State} (h : EncryptMove s u) (hp : s.phase = .encrypt) (hk : KeyInv s)
    (hb : BlockInv s) (hs : TraceInv s) : TraceInv u := by
  cases h with
  | fail | start | hold | absorb | complete => exact hs
  | issue hc =>
    obtain ⟨hcheck, -⟩ := hb.encrypt hp hc
    have hvalid := (encryptCheck_none hcheck).1
    exact traceInv_issueModExp hs (key_facts hk hvalid).1 (blockValue_lt_modulus hk hvalid s.blk)

theorem DecryptMove.traceInv {s u : State} (h : DecryptMove s u) (hp : s.phase = .decrypt) (hk : KeyInv s)
    (hb : BlockInv s) (hs : TraceInv s) : TraceInv u := by
  cases h with
  | fail | start | hold | absorb | complete => exact hs
  | issue hc _ hblk =>
    obtain ⟨hcheck, -⟩ := hb.decrypt hp hc
    obtain ⟨hvalid, -, -, -, hrange⟩ := decryptCheck_none hcheck
    exact traceInv_issueModExp hs (key_facts hk hvalid).1 (hrange s.blk hblk)

theorem DeriveMove.traceInv {s u : State} (h : DeriveMove s u) (hs : TraceInv s) : TraceInv u := by
  cases h <;> exact hs

theorem ModinvMove.traceInv {s u : State} (h : ModinvMove s u) (hs : TraceInv s) : TraceInv u := by
  cases h <;> exact hs

theorem EngineMove.traceInv {s u : State} (h : EngineMove s u) (hs : TraceInv s) : TraceInv u := by
  cases h <;> exact hs

theorem Effect.traceInv {s u : State} (h : Effect s u) (hk : KeyInv s) (hb : BlockInv s) (hs : TraceInv s) :
    TraceInv u := by
  cases h with
  | idle | reset | release => exact hs
  | read | quiet | ignored | badcmd | start | ack | enable => exact traceInv_respond hs
  | store a v r => exact traceInv_respond (by simpa [TraceInv] using hs)
  | derive => exact (deriveStep_move s).traceInv hs
  | modinv => exact (modinvStep_move s).traceInv hs
  | encrypt _ hp => exact (encryptStep_move s).traceInv hp hk hb hs
  | decrypt _ hp => exact (decryptStep_move s).traceInv hp hk hb hs
  | engine => exact (engineAnswer_move s).traceInv hs

/-! ### While rst_n = 0 (70_reset_and_hazards.md R260, R261) -/

theorem resetInv_of_not_inReset {s : State} (h : s.inReset = false) : ResetInv s := fun hr => by simp [h] at hr

theorem DeriveMove.inReset_eq {s u : State} (h : DeriveMove s u) : u.inReset = s.inReset := by cases h <;> rfl

theorem ModinvMove.inReset_eq {s u : State} (h : ModinvMove s u) : u.inReset = s.inReset := by cases h <;> rfl

theorem EncryptMove.inReset_eq {s u : State} (h : EncryptMove s u) : u.inReset = s.inReset := by cases h <;> rfl

theorem DecryptMove.inReset_eq {s u : State} (h : DecryptMove s u) : u.inReset = s.inReset := by cases h <;> rfl

theorem EngineMove.resetInv {s u : State} (h : EngineMove s u) (hs : ResetInv s) : ResetInv u := by cases h <;> exact hs

/-- In reset only the engine and the edges of rst_n can act. -/
theorem Effect.resetInv {s u : State} (h : Effect s u) (hs : ResetInv s) : ResetInv u := by
  cases h with
  | idle => exact hs
  | read _ _ _ hr | quiet hr | ignored hr | badcmd hr | start _ hr | ack _ hr | enable _ hr =>
    exact resetInv_of_not_inReset hr
  | store a v r hr => exact resetInv_of_not_inReset (by simpa using hr)
  | derive hr => exact resetInv_of_not_inReset ((deriveStep_move s).inReset_eq.trans hr)
  | modinv hr => exact resetInv_of_not_inReset ((modinvStep_move s).inReset_eq.trans hr)
  | encrypt hr => exact resetInv_of_not_inReset ((encryptStep_move s).inReset_eq.trans hr)
  | decrypt hr => exact resetInv_of_not_inReset ((decryptStep_move s).inReset_eq.trans hr)
  | engine => exact (engineAnswer_move s).resetInv hs
  | reset => exact fun _ => ⟨rfl, rfl, rfl, rfl, rfl, rfl, rfl, rfl, rfl, rfl, rfl, rfl, rfl, rfl, rfl, rfl⟩
  | release => exact resetInv_of_not_inReset rfl

end Sys2Proof.Machine
end

section
/-! ## The machine's invariant

It holds after reset, every effect keeps it, and it says nothing of the host's program or of whose move it is. -/

namespace Sys2Proof.Machine

theorem machineInv_resetWith {c : Config} (hc : c.Legal) : MachineInv (State.resetWith c) where
  legal := hc
  status := statusInv_resetWith c
  width := widthInv_resetWith c
  mem := memInv_resetWith c
  key := keyInv_resetWith c
  mic := micInv_idle rfl
  block := blockInv_idle rfl rfl rfl
  trace := nofun
  reset := resetInv_of_not_inReset rfl

/-- Settles O56: every clause holds of the reset values. -/
theorem resetMeetsInv : Obligations.ResetMeetsInv := by
  unfold Obligations.ResetMeetsInv
  exact ⟨machineInv_resetWith (by decide), fun c hc => machineInv_resetWith hc⟩

theorem Effect.machineInv {s u : State} (h : Effect s u) (hs : MachineInv s) : MachineInv u where
  legal := h.cfg_eq ▸ hs.legal
  status := h.statusInv hs.status
  width := h.widthInv hs.legal hs.mic hs.width
  mem := h.memInv hs.legal hs.block hs.mem
  key := h.keyInv hs.legal hs.width hs.mic hs.key
  mic := h.micInv hs.status hs.mic
  block := h.blockInv hs.status hs.block
  trace := h.traceInv hs.key hs.block hs.trace
  reset := h.resetInv hs.reset

/-- The host's program and the schedule are outside the invariant. -/
theorem MachineInv.reschedule {s : State} (h : MachineInv s) (l : List HostOp) (t : Turn) (m : List Turn) :
    MachineInv { s with program := l, turn := t, sched := m } where
  legal := h.legal
  status := h.status
  width := h.width
  mem := h.mem
  key := h.key
  mic := h.mic
  block := h.block.frame rfl rfl rfl
  trace := h.trace
  reset := h.reset

/-- Settles O55: the step has one elementary effect, and every effect keeps every clause. -/
theorem stepKeepsInv : Obligations.StepKeepsInv := by
  unfold Obligations.StepKeepsInv
  intro s t hs h
  obtain ⟨l, u, hu, rfl⟩ := step_effect h
  obtain ⟨turn, sched, hadv⟩ := advanceTurn_eq u
  have hinv : MachineInv u := hu.machineInv (hs.reschedule l s.turn s.sched)
  rw [hadv]
  exact hinv.reschedule u.program turn sched

end Sys2Proof.Machine
end

section
/-! ## Bus transactions: registers that are not held, and what hidden scratch cannot reach

STATUS, IRQ_EN and E answer in every state, and neither a response nor STATUS after a transaction depends on the hidden
working registers of 10_state.md R46 to R48. -/

namespace Sys2Proof.Machine

/-! ### One equation per register that is not held (20_memory.md R66, R67) -/

theorem exec_rd_e (w : Word) (s : State) : exec (.rd 0x018 w) s = .next (respond .okay 0x00010001 s) :=
  execRd_live w (busTarget_e s.cfg) (.inr rfl)

theorem exec_wr_e (w : Word) (s : State) : exec (.wr 0x018 w) s = .next (respond .okay 0 s) :=
  execWr_mapped w (busTarget_e s.cfg)

theorem exec_rd_irqEn (w : Word) (s : State) :
    exec (.rd 0x008 w) s = .next (respond .okay ((BitVec.ofBool s.doneIe).setWidth 32) s) :=
  execRd_live w (busTarget_irqEn s.cfg) (.inr rfl)

theorem exec_wr_irqEn (v : Word) (s : State) :
    exec (.wr 0x008 v) s = .next (respond .okay 0 { s with doneIe := v.getLsbD 0 }) :=
  execWr_mapped v (busTarget_irqEn s.cfg)

theorem exec_wr_status (v : Word) (s : State) : exec (.wr 0x004 v) s = .next (respond .okay 0 (acknowledge v s)) :=
  execWr_mapped v (busTarget_status s.cfg)

/-- The W1C write, field by field, as one choice per bit (10_state.md R23 to R29). -/
theorem statusW1c_eq (v : Word) (f : Status) :
    statusW1c v f = { f with
      done := if v.getLsbD 1 then false else f.done
      err := if v.getLsbD 2 then false else f.err
      errcode := if v.getLsbD 2 then .none else f.errcode
      trunc := if v.getLsbD 4 then false else f.trunc
      wign := if v.getLsbD 5 then false else f.wign } := by
  have hclear (x b : Bool) : (x && !b) = if b then false else x := by cases b <;> simp
  simp only [statusW1c, hclear]

/-- Settles O14, by the read and the write of E. -/
theorem eReadsAs65537InEveryState : Obligations.EReadsAs65537InEveryState := by
  unfold Obligations.EReadsAs65537InEveryState
  exact fun s w => ⟨exec_rd_e w s, exec_wr_e w s⟩

/-- Settles O17, by the W1C write of STATUS. -/
theorem statusWriteClearsItsFields : Obligations.StatusWriteClearsItsFields := by
  unfold Obligations.StatusWriteClearsItsFields
  intro s v
  rw [exec_wr_status, acknowledge, statusW1c_eq]
  rfl

/-- Settles O18, by the write and the read of IRQ_EN. -/
theorem irqEnableKeepsBitZero : Obligations.IrqEnableKeepsBitZero := by
  unfold Obligations.IrqEnableKeepsBitZero
  intro s v w
  have hword : (BitVec.ofBool s.doneIe).setWidth 32 = if s.doneIe then (0x00000001 : Word) else 0x00000000 := by
    cases s.doneIe <;> rfl
  refine ⟨exec_wr_irqEn v s, ?_⟩
  rw [exec_rd_irqEn, hword]
  rfl

/-! ### Loading a word of the opcode table (log entry 12) -/

theorem decode_tablePacket {nbits w : Nat} {i : Instr} (h : decodeTableWord nbits w = some i) :
    decode (tablePacket nbits w) = .ok i := by
  unfold decodeTableWord at h
  split at h
  · next j hj => rw [hj, Option.some.inj h]
  · cases h

/-- Settles O6: the loaded packet is the head of the host's program. -/
theorem tableWordRunsInTheNextStep : Obligations.TableWordRunsInTheNextStep := by
  unfold Obligations.TableWordRunsInTheNextStep
  exact fun s nbits w i h => step_of_fetch (fetch_host_txn rfl rfl rfl) (decode_tablePacket h)

/-! ### What a transaction shows (10_state.md R46 to R48) -/

/-- The machine with its hidden scratch at the values of `State.resetWith`. -/
def hideScratch (s : State) : State :=
  { s with phi := 0, seg := 0, blk := 0, mic := { r0 := 0, r1 := 0, t0 := 0, t1 := 0 }, acc := [], tp := false, answers := [] }

@[simp] theorem commandWrite_trace (v : Word) (s : State) : (commandWrite v s).trace = s.trace := by
  rcases commandWrite_cases v s with ⟨-, e⟩ | ⟨-, -, e⟩ | ⟨-, -, e⟩ | ⟨-, ph, -, e⟩
  · rw [e, ignoredWrite_trace]
  · rw [e]
  · rw [e, errorCompletion_trace, startEffects_trace]
  · rw [e, startCommand_trace]

@[simp] theorem writeRegion_trace (v : Word) (s : State) (r : Region) : (writeRegion v s r).trace = s.trace := by
  rcases writeRegion_cases v s r with ⟨-, e⟩ | ⟨-, e⟩ | ⟨-, e⟩ | ⟨-, e⟩ | ⟨-, e⟩ | ⟨-, -, -, -, -, e⟩
  · rw [e, commandWrite_trace]
  · rw [e, acknowledge_trace]
  · rw [e]
  · rw [e]
  · rw [e, ignoredWrite_trace]
  · rw [e, storeRegion_trace]

/-- STATUS after a write to CTRL depends on STATUS and the word alone. -/
theorem commandWrite_status_congr {s t : State} (v : Word) (h : t.status = s.status) :
    (commandWrite v t).status = (commandWrite v s).status := by
  unfold commandWrite
  rw [h]
  split_ifs
  · rw [ignoredWrite_status, ignoredWrite_status, h]
  · split <;> simp [h]

/-- STATUS after a write depends on STATUS, the word and the region alone. -/
theorem writeRegion_status_congr {s t : State} (v : Word) (r : Region) (h : t.status = s.status) :
    (writeRegion v t r).status = (writeRegion v s r).status := by
  unfold writeRegion
  rw [h]
  split_ifs
  · exact commandWrite_status_congr v h
  all_goals simp [h]

/-- No register or buffer word is read from scratch. -/
theorem readRegion_hideScratch (s : State) (r : Region) : readRegion (hideScratch s) r = readRegion s r := by
  cases r with
  | wide w j => cases w <;> rfl
  | _ => rfl

/-- A read shows the same without the scratch. -/
theorem execRd_hideScratch (a : Addr) (w : Word) (s : State) :
    ∃ t u, execRd a w s = .next t ∧ execRd a w (hideScratch s) = .next u ∧ u.trace = t.trace ∧ u.status = t.status := by
  cases ht : busTarget s.cfg a with
  | none => exact ⟨_, _, execRd_unmapped w ht, execRd_unmapped (s := hideScratch s) w ht, rfl, rfl⟩
  | some r =>
    by_cases hfree : s.status.busy = true ∧ held r = true
    · obtain ⟨hb, hh⟩ := hfree
      exact ⟨_, _, execRd_held w ht hb hh, execRd_held (s := hideScratch s) w ht hb hh, rfl, rfl⟩
    · have hlive : s.status.busy = false ∨ held r = false := by
        rw [← Bool.not_eq_true, ← Bool.not_eq_true]
        exact not_and_or.1 hfree
      refine ⟨_, _, execRd_live w ht hlive, execRd_live (s := hideScratch s) w ht hlive, ?_, rfl⟩
      rw [readRegion_hideScratch]
      rfl

/-- A write shows the same without the scratch. -/
theorem execWr_hideScratch (a : Addr) (v : Word) (s : State) :
    ∃ t u, execWr a v s = .next t ∧ execWr a v (hideScratch s) = .next u ∧ u.trace = t.trace ∧ u.status = t.status := by
  cases ht : busTarget s.cfg a with
  | none => exact ⟨_, _, execWr_unmapped v ht, execWr_unmapped (s := hideScratch s) v ht, rfl, rfl⟩
  | some r =>
    refine ⟨_, _, execWr_mapped v ht, execWr_mapped (s := hideScratch s) v ht, ?_, writeRegion_status_congr v r rfl⟩
    simp only [respond_trace, writeRegion_trace]
    rfl

theorem exec_bus_hideScratch {i : Instr} (s : State) (hi : ∃ a w, i = .rd a w ∨ i = .wr a w) :
    ∃ t u, exec i s = .next t ∧ exec i (hideScratch s) = .next u ∧ u.trace = t.trace ∧ u.status = t.status := by
  obtain ⟨a, w, rfl | rfl⟩ := hi
  · exact execRd_hideScratch a w s
  · exact execWr_hideScratch a w s

/-- Settles O16: both machines show what the one without scratch shows. -/
theorem hiddenScratchIsInvisibleOnTheBus : Obligations.HiddenScratchIsInvisibleOnTheBus := by
  unfold Obligations.HiddenScratchIsInvisibleOnTheBus
  intro s t t' i phi seg blk mic acc tp answers hi h h'
  obtain ⟨x, u, hx, hu, htrace, hstatus⟩ := exec_bus_hideScratch s hi
  obtain ⟨x', u', hx', hu', htrace', hstatus'⟩ := exec_bus_hideScratch
    { s with phi := phi, seg := seg, blk := blk, mic := mic, acc := acc, tp := tp, answers := answers } hi
  obtain rfl : x = t := Host.Outcome.next.inj (hx.symm.trans h)
  obtain rfl : x' = t' := Host.Outcome.next.inj (hx'.symm.trans h')
  obtain rfl : u' = u := Host.Outcome.next.inj (hu'.symm.trans hu)
  exact ⟨htrace'.symm.trans htrace, hstatus'.symm.trans hstatus⟩

end Sys2Proof.Machine
end

section
/-! ## The address map, read backwards (20_memory.md R61)

Each region has one address, at which it is mapped within its bounds; `region` is the inverse of that table. -/

namespace Sys2Proof.Machine

/-- The page of 0x100 bytes at whose start a wide register's window begins: the inverse of `widePage`. -/
def Wide.page : Wide → Nat
  | .p => 1
  | .q => 2
  | .n => 3
  | .d => 4
  | .ma => 5
  | .mm => 6
  | .mr => 7

/-- The bus byte address of a region: the table of R61. -/
def Region.addr : Region → Nat
  | .ctrl => 0x000
  | .status => 0x004
  | .irqEn => 0x008
  | .msgLen => 0x00C
  | .blkCount => 0x010
  | .blockLen => 0x014
  | .e => 0x018
  | .wide w j => 0x100 * w.page + 4 * j
  | .msgBuf w => 0x1000 + 4 * w
  | .ctBuf u => 0x10000 + 4 * u

/-- The word counts of R61: which words of a window and of a buffer are mapped. -/
def Region.Mapped (c : Config) : Region → Prop
  | .wide w j => j < wideWords c w
  | .msgBuf w => w < c.maxlen / 4
  | .ctBuf u => u < c.maxblk * c.wpn
  | .ctrl | .status | .irqEn | .msgLen | .blkCount | .blockLen | .e => True

theorem addr_of_fixedReg {k : Nat} {r : Region} (h : fixedReg k = some r) : r.addr = 4 * k := by
  unfold fixedReg at h
  split at h <;> cases h <;> rfl

theorem page_of_widePage {k : Nat} {w : Wide} (h : widePage k = some w) : w.page = k := by
  unfold widePage at h
  split at h <;> cases h <;> rfl

theorem widePage_page (w : Wide) : widePage w.page = some w := by cases w <;> rfl

theorem page_bounds (w : Wide) : 1 ≤ w.page ∧ w.page ≤ 7 := by cases w <;> decide

/-- A window's words fit in its page. -/
theorem wideWords_le {c : Config} (hl : c.Legal) (w : Wide) : wideWords c w ≤ 64 := by
  obtain ⟨-, hwpp, hwpn, -⟩ := legal_bounds hl
  cases w <;> simp only [wideWords] <;> omega

/-- An aligned address that selects a region is that region's address. -/
theorem region_addr {c : Config} {a : Nat} {r : Region} (ha : a % 4 = 0) (h : region c a = some r) : a = r.addr := by
  unfold region at h
  split_ifs at h with hreg hwin hmsg hct
  · rw [addr_of_fixedReg h]
    omega
  · split at h
    · next w hw =>
      split_ifs at h
      cases h
      rw [Region.addr, page_of_widePage hw]
      omega
    · cases h
  · cases h
    rw [Region.addr]
    omega
  · cases h
    rw [Region.addr]
    omega

/-- Nothing past the word counts is selected. -/
theorem region_mapped {c : Config} {a : Nat} {r : Region} (hl : c.Legal) (ha : a % 4 = 0) (h : region c a = some r) :
    r.Mapped c := by
  obtain ⟨hwide, hmsg, hct⟩ := region_inv h
  obtain ⟨-, -, -, hlen, -⟩ := hl
  cases r with
  | wide w j => exact hwide w j rfl
  | msgBuf w =>
    have := hmsg w rfl
    rw [Region.Mapped]
    omega
  | ctBuf u =>
    have := hct u rfl
    rw [Region.Mapped]
    omega
  | _ => trivial

/-- A mapped region is selected by its address. -/
theorem region_at_addr {c : Config} {r : Region} (hl : c.Legal) (hm : r.Mapped c) : region c r.addr = some r := by
  obtain ⟨-, -, -, -, -, hblk, -⟩ := legal_bounds hl
  have ⟨_, _, _, _, _, hlen, _⟩ := hl
  cases r with
  | wide w j =>
    obtain ⟨hpage1, hpage7⟩ := page_bounds w
    have hj : j < wideWords c w := hm
    have h64 := wideWords_le hl w
    rw [Region.addr, region, if_neg (by omega), if_pos (by omega),
      show (0x100 * w.page + 4 * j) / 0x100 = w.page by omega,
      show (0x100 * w.page + 4 * j) % 0x100 / 4 = j by omega, widePage_page]
    exact if_pos hj
  | msgBuf w =>
    have hw : w < c.maxlen / 4 := hm
    rw [Region.addr, region, if_neg (by omega), if_neg (by omega), if_pos (by omega), Nat.add_sub_cancel_left,
      Nat.mul_div_cancel_left w (by decide)]
  | ctBuf u =>
    have hu : u < c.maxblk * c.wpn := hm
    rw [Region.addr, region, if_neg (by omega), if_neg (by omega), if_neg (by omega), if_pos (by omega),
      Nat.add_sub_cancel_left, Nat.mul_div_cancel_left u (by decide)]
  | _ => rfl

/-- The address map and the table of R61 are inverse to each other. -/
theorem region_eq_some_iff {c : Config} {a : Nat} (hl : c.Legal) (ha : a % 4 = 0) (r : Region) :
    region c a = some r ↔ a = r.addr ∧ r.Mapped c := by
  constructor
  · exact fun h => ⟨region_addr ha h, region_mapped hl ha h⟩
  · rintro ⟨rfl, hm⟩
    exact region_at_addr hl hm

/-- Settles O8: each clause is the address map's inverse at one kind of region. -/
theorem addressMapIsTheTable : Obligations.AddressMapIsTheTable := by
  unfold Obligations.AddressMapIsTheTable
  intro c a hl _ ha
  have hmap := region_eq_some_iff hl ha
  have hfixed {r : Region} (hr : r.Mapped c) : region c a = some r ↔ a = r.addr :=
    (hmap r).trans (and_iff_left hr)
  exact ⟨hfixed trivial, hfixed trivial, hfixed trivial, hfixed trivial, hfixed trivial, hfixed trivial, hfixed trivial,
    fun _ => hmap _, fun _ => hmap _, fun _ => hmap _, fun _ => hmap _, fun _ => hmap _, fun _ => hmap _, fun _ => hmap _,
    fun _ => hmap _, fun _ => hmap _⟩

end Sys2Proof.Machine
end

section
/-! ## Words of wide values (20_memory.md R67, R68)

A word's bits are bits of its value, and replacing a word changes those bits alone; so what a write does to a wide register is
said once, bit by bit. -/

namespace Sys2Proof.Machine

/-! ### Bit by bit -/

/-- Bit t of word j is bit 32j + t of the value. -/
theorem getLsbD_wordOf (v j : Nat) {t : Nat} (ht : t < 32) : (wordOf v j).getLsbD t = v.testBit (32 * j + t) := by
  rw [wordOf, BitVec.getLsbD_ofNat, decide_eq_true ht, Bool.true_and, Nat.testBit_div_two_pow, Nat.add_comm t]

/-- A replaced word has the bits [32j+31:32j] of the value, and every other bit stays. -/
theorem testBit_withWord (v j t : Nat) (w : Word) :
    (withWord v j w).testBit t =
      if t < 32 * j then v.testBit t
      else if t < 32 * (j + 1) then w.getLsbD (t - 32 * j)
      else v.testBit t := by
  have hlow : v % 2 ^ (32 * j) < 2 ^ (32 * j) := Nat.mod_lt v (Nat.two_pow_pos _)
  have hsplit : withWord v j w =
      2 ^ (32 * j) * (2 ^ 32 * (v / 2 ^ (32 * (j + 1))) + w.toNat) + v % 2 ^ (32 * j) := by
    rw [withWord, Nat.mul_add 32 j 1, pow_add]
    ring
  rw [hsplit, Nat.testBit_two_pow_mul_add _ hlow]
  split_ifs with hj hj1
  · rw [Nat.testBit_mod_two_pow, decide_eq_true hj, Bool.true_and]
  · rw [Nat.testBit_two_pow_mul_add _ w.isLt, if_pos (by omega), BitVec.testBit_toNat]
  · rw [Nat.testBit_two_pow_mul_add _ w.isLt, if_neg (by omega), Nat.testBit_div_two_pow,
      show t - 32 * j - 32 + 32 * (j + 1) = t by omega]

/-- Replacing word j changes word j and no other. -/
theorem wordOf_withWord (v j i : Nat) (w : Word) : wordOf (withWord v j w) i = if i = j then w else wordOf v i := by
  apply BitVec.eq_of_getLsbD_eq
  intro t ht
  rw [getLsbD_wordOf _ _ ht, testBit_withWord]
  split_ifs with h1 h2 h3 h4
  · omega
  · rw [getLsbD_wordOf _ _ ht]
  · rw [show 32 * i + t - 32 * j = t by omega]
  · omega
  · omega
  · rw [getLsbD_wordOf _ _ ht]

/-- Writing the first n words of v over v0, one at a time, replaces the bits below 32n. -/
theorem testBit_foldl_withWord (v v0 n t : Nat) :
    ((List.range n).foldl (fun x i => withWord x i (wordOf v i)) v0).testBit t =
      if t < 32 * n then v.testBit t else v0.testBit t := by
  induction n with
  | zero => simp
  | succ n ih =>
    rw [List.range_succ, List.foldl_append, List.foldl_cons, List.foldl_nil, testBit_withWord, ih]
    split_ifs with h1 h2
    · rfl
    · omega
    · rw [getLsbD_wordOf _ _ (by omega), show 32 * n + (t - 32 * n) = t by omega]
    · rfl

/-- Settles O21, bit by bit. -/
theorem wordWriteReplacesOneWord : Obligations.WordWriteReplacesOneWord := by
  unfold Obligations.WordWriteReplacesOneWord
  intro v v0 j k w
  refine ⟨fun i => wordOf_withWord v j i w, withWord_lt w, fun hv hv0 => ?_⟩
  apply Nat.eq_of_testBit_eq
  intro t
  rw [testBit_foldl_withWord]
  split_ifs with ht
  · rfl
  · have hk : 2 ^ (32 * k) ≤ 2 ^ t := Nat.pow_le_pow_right (by decide) (by omega)
    rw [Nat.testBit_eq_false_of_lt (hv.trans_le hk), Nat.testBit_eq_false_of_lt (hv0.trans_le hk)]

/-! ### The sum of the words (30_encoding.md R96) -/

/-- The first k words of a value hold the value modulo their width. -/
theorem sum_wordOf (v k : Nat) :
    ((List.range k).map fun j => (wordOf v j).toNat * 2 ^ (32 * j)).sum = v % 2 ^ (32 * k) := by
  induction k with
  | zero => simp [Nat.mod_one]
  | succ k ih =>
    rw [List.range_succ, List.map_append, List.sum_append, ih, List.map_singleton, List.sum_singleton, wordOf_toNat,
      Nat.mul_add 32 k 1, pow_add, Nat.mod_mul, Nat.mul_comm (2 ^ (32 * k))]

/-- A wide register fits in its window. -/
theorem readWide_lt {s : State} (hl : s.cfg.Legal) (h : WidthInv s) (w : Wide) :
    readWide s w < 2 ^ (32 * wideWords s.cfg w) := by
  obtain ⟨-, -, -, hpw, hnw, -⟩ := legal_bounds hl
  rw [WidthInv, hpw, hnw] at h
  obtain ⟨hp, hq, hn, hd, hma, hmm, hmr⟩ := h
  cases w <;> assumption

/-- Settles O12: the words of a register are those of its value, which fits in its window. -/
theorem wideRegisterIsTheSumOfItsWords : Obligations.WideRegisterIsTheSumOfItsWords := by
  unfold Obligations.WideRegisterIsTheSumOfItsWords
  intro s
  refine ⟨⟨rfl, rfl, rfl, rfl, rfl, rfl, rfl⟩, fun w hs => ⟨fun j => wordOf_toNat (readWide s w) j, ?_⟩⟩
  calc readWide s w = readWide s w % 2 ^ (32 * wideWords s.cfg w) :=
        (Nat.mod_eq_of_lt (readWide_lt hs.legal hs.width w)).symm
    _ = _ := (sum_wordOf (readWide s w) (wideWords s.cfg w)).symm

end Sys2Proof.Machine
end

section
/-! ## Bus reads, and accesses that reach nothing (20_memory.md R63, R64, R66) -/

namespace Sys2Proof.Machine

theorem busTarget_eq_none {c : Config} {a : Addr} (h : a.toNat % 4 ≠ 0 ∨ region c a.toNat = none) :
    busTarget c a = none := by
  unfold busTarget
  split_ifs with ha
  · exact h.resolve_left (not_not_intro ha)
  · rfl

/-- Settles O9: the access reaches nothing, so it is answered alone. -/
theorem misalignedOrUnmappedAccessHasNoEffect : Obligations.MisalignedOrUnmappedAccessHasNoEffect := by
  unfold Obligations.MisalignedOrUnmappedAccessHasNoEffect
  intro s a w h
  have ht := busTarget_eq_none h
  exact ⟨execRd_unmapped w ht, execWr_unmapped w ht⟩

/-- Settles O10: an idle read, or one of a region that is not held, answers with the region's data. -/
theorem readReturnsTheRegion : Obligations.ReadReturnsTheRegion := by
  unfold Obligations.ReadReturnsTheRegion
  intro s w
  refine ⟨fun a r ha hr hl => execRd_live w (busTarget_aligned ha hr) ?live,
    execRd_live w (busTarget_ctrl s.cfg) (.inr rfl), fun hb => ⟨?msgLen, ?blkCount, ?blockLen⟩⟩
  case live =>
    rcases hl with hb | rfl | rfl | rfl | rfl
    · exact .inl hb
    all_goals exact .inr rfl
  case msgLen => exact execRd_live w (busTarget_msgLen s.cfg) (.inl hb)
  case blkCount => exact execRd_live w (busTarget_blkCount s.cfg) (.inl hb)
  case blockLen => exact execRd_live w (busTarget_blockLen s.cfg) (.inl hb)

end Sys2Proof.Machine
end

section
/-! ## Idle writes (20_memory.md R67)

While BUSY = 0 a write to an operand register or a buffer stores its word: what it stores, where, and that a read returns it. -/

namespace Sys2Proof.Machine

/-- The regions in which an idle write stores its word. -/
def Region.Stored (r : Region) : Prop := r ≠ .ctrl ∧ r ≠ .status ∧ r ≠ .irqEn ∧ readOnly r = false

theorem writeRegion_idle {s : State} {r : Region} (v : Word) (hb : s.status.busy = false) (hr : r.Stored) :
    writeRegion v s r = storeRegion v s r := by
  obtain ⟨hctrl, hstatus, hirq, hro⟩ := hr
  simp [writeRegion, hctrl, hstatus, hirq, hro, hb]

/-- An idle write to such a region stores its word and answers OKAY. -/
theorem exec_wr_idle {s : State} {a : Addr} {r : Region} (v : Word) (hb : s.status.busy = false) (hr : r.Stored)
    (ht : busTarget s.cfg a = some r) : exec (.wr a v) s = .next (respond .okay 0 (storeRegion v s r)) :=
  (execWr_mapped v ht).trans (by rw [writeRegion_idle v hb hr])

/-! ### Operand registers -/

theorem busTarget_wide {c : Config} {a : Addr} {w : Wide} {j : Nat} (hl : c.Legal) (hj : j < wideWords c w)
    (ha : a.toNat = 0x100 * w.page + 4 * j) : busTarget c a = some (.wide w j) := by
  refine busTarget_aligned (by omega) ?_
  rw [ha]
  exact region_at_addr (r := .wide w j) hl hj

theorem exec_wr_wide_idle {s : State} {a : Addr} {w : Wide} {j : Nat} (v : Word) (hb : s.status.busy = false)
    (hw : readOnly (.wide w j) = false) (hl : s.cfg.Legal) (hj : j < wideWords s.cfg w)
    (ha : a.toNat = 0x100 * w.page + 4 * j) :
    exec (.wr a v) s = .next (respond .okay 0 (storeRegion v s (.wide w j))) :=
  exec_wr_idle v hb ⟨nofun, nofun, nofun, hw⟩ (busTarget_wide hl hj ha)

/-- Settles O20: the address selects the register, and the idle write stores there. -/
theorem idleRegisterWriteStoresTheWord : Obligations.IdleRegisterWriteStoresTheWord := by
  unfold Obligations.IdleRegisterWriteStoresTheWord
  intro s a v hb
  refine ⟨?msgLen, ?blkCount, ?p, ?q, ?ma, ?mm⟩
  case msgLen =>
    rintro rfl
    exact exec_wr_idle (r := .msgLen) v hb ⟨nofun, nofun, nofun, rfl⟩ (busTarget_msgLen s.cfg)
  case blkCount =>
    rintro rfl
    exact exec_wr_idle (r := .blkCount) v hb ⟨nofun, nofun, nofun, rfl⟩ (busTarget_blkCount s.cfg)
  case p => exact fun j hj hl ha => by rw [exec_wr_wide_idle (w := .p) v hb rfl hl hj ha, storeRegion, respond]
  case q => exact fun j hj hl ha => by rw [exec_wr_wide_idle (w := .q) v hb rfl hl hj ha, storeRegion, respond]
  case ma => exact fun j hj hl ha => by rw [exec_wr_wide_idle (w := .ma) v hb rfl hl hj ha, storeRegion, respond]
  case mm => exact fun j hj hl ha => by rw [exec_wr_wide_idle (w := .mm) v hb rfl hl hj ha, storeRegion, respond]

/-! ### Buffers (20_memory.md R69, R70) -/

/-- A stored word's four bytes, least significant first, and every other byte as before. -/
theorem byteAt_memSetBytes_word (s : State) (a x : Nat) (v : Word) :
    byteAt { s with mem := memSetBytes s.mem a (valBytes 4 v.toNat) } x =
      if a ≤ x ∧ x < a + 4 then v.extractLsb' (8 * (x - a)) 8 else byteAt s x := by
  rw [byteAt_memSetBytes]
  simp only [valBytes_length]
  split_ifs with hx
  · apply Option.some.inj
    rw [← List.getElem?_eq_getElem, valBytes_getElem? _ (by omega), byte_of_word]
  · rfl

/-- A stored word is read back. -/
theorem bufWord_memSetBytes_word (s : State) (a : Nat) (v : Word) :
    bufWord { s with mem := memSetBytes s.mem a (valBytes 4 v.toNat) } a = v := by
  have hbyte (i : Nat) (hi : i < 4) : byteAt { s with mem := memSetBytes s.mem a (valBytes 4 v.toNat) } (a + i) =
      BitVec.ofNat 8 (v.toNat / 256 ^ i) := by
    rw [byteAt_memSetBytes_word, if_pos (by omega), Nat.add_sub_cancel_left, byte_of_word]
  have hv : v.toNat % 256 ^ 4 = v.toNat := Nat.mod_eq_of_lt v.isLt
  rw [bufWord, bytesVal_bytesAt _ _ _ _ hbyte, hv, BitVec.ofNat_toNat, BitVec.setWidth_eq]

/-- A word stored in a buffer changes the four bytes at its address, and no other byte. -/
theorem byteAt_storeRegion_buffer {s : State} {r : Region} (v : Word) (hr : ∃ w, r = .msgBuf w ∨ r = .ctBuf w) (x : Nat) :
    byteAt (storeRegion v s r) x =
      if r.addr ≤ x ∧ x < r.addr + 4 then v.extractLsb' (8 * (x - r.addr)) 8 else byteAt s x := by
  obtain ⟨w, rfl | rfl⟩ := hr <;> exact byteAt_memSetBytes_word s _ x v

/-- A word stored in a buffer changes the memory alone. -/
theorem storeRegion_buffer {s : State} {r : Region} (v : Word) (hr : ∃ w, r = .msgBuf w ∨ r = .ctBuf w) :
    storeRegion v s r = { s with mem := (storeRegion v s r).mem } := by
  obtain ⟨w, rfl | rfl⟩ := hr <;> rfl

theorem stored_buffer {r : Region} (hr : ∃ w, r = .msgBuf w ∨ r = .ctBuf w) : r.Stored := by
  obtain ⟨w, rfl | rfl⟩ := hr <;> exact ⟨nofun, nofun, nofun, rfl⟩

/-- Settles O22: the write stores at its region's address, which is the access's own. -/
theorem idleBufferWriteStoresFourBytes : Obligations.IdleBufferWriteStoresFourBytes := by
  unfold Obligations.IdleBufferWriteStoresFourBytes
  intro s a v r hb ha hr hbuf
  refine ⟨_, exec_wr_idle v hb (stored_buffer hbuf) (busTarget_aligned ha hr), fun x => ?_, ?_⟩
  · rw [region_addr ha hr]
    exact byteAt_storeRegion_buffer v hbuf x
  · rw [storeRegion_buffer v hbuf]
    rfl

/-! ### Reading back (20_memory.md R66) -/

/-- What is stored in a region is what the region reads as. -/
theorem readRegion_storeRegion {r : Region} (v : Word) (s : State) (hr : r.Stored) :
    readRegion (storeRegion v s r) r = v := by
  obtain ⟨hctrl, hstatus, hirq, hro⟩ := hr
  have hword (x j : Nat) : wordOf (withWord x j v) j = v := by rw [wordOf_withWord, if_pos rfl]
  cases r with
  | msgLen | blkCount => rfl
  | wide w j =>
    cases w with
    | p | q | ma | mm => exact hword _ j
    | n | d | mr => cases hro
  | msgBuf w => exact bufWord_memSetBytes_word s _ v
  | ctBuf u => exact bufWord_memSetBytes_word s _ v
  | ctrl => exact absurd rfl hctrl
  | status => exact absurd rfl hstatus
  | irqEn => exact absurd rfl hirq
  | blockLen | e => cases hro

/-- Settles O23: the store leaves the address map and BUSY alone, so the read reaches the stored word. -/
theorem idleWriteIsReadBack : Obligations.IdleWriteIsReadBack := by
  unfold Obligations.IdleWriteIsReadBack
  intro s a v w r hb ha hr hctrl hstatus hirq hro
  have hst : r.Stored := ⟨hctrl, hstatus, hirq, hro⟩
  have ht := busTarget_aligned ha hr
  refine ⟨_, exec_wr_idle v hb hst ht, ?_⟩
  have ht' : busTarget (respond .okay 0 (storeRegion v s r)).cfg a = some r := by rwa [respond_cfg, storeRegion_cfg]
  have hb' : (respond .okay 0 (storeRegion v s r)).status.busy = false := by rwa [respond_status, storeRegion_status]
  have hread : readRegion (respond .okay 0 (storeRegion v s r)) r = v := readRegion_storeRegion v s hst
  refine (execRd_live w ht' (.inl hb')).trans ?_
  rw [hread]
  rfl

end Sys2Proof.Machine
end

section
/-! ## How buffer words hold bytes and entries (20_memory.md R69, R70) -/

namespace Sys2Proof.Machine

/-- The bytes in memory are those of the number they hold. -/
theorem byteAt_eq_of_bytesVal (s : State) (a : Nat) {k i : Nat} (hi : i < k) :
    byteAt s (a + i) = BitVec.ofNat 8 (bytesVal (bytesAt s a k) / 256 ^ i) := by
  induction k generalizing a i with
  | zero => omega
  | succ k ih =>
    have hb := (byteAt s a).isLt
    rw [bytesAt, bytesVal]
    cases i with
    | zero =>
      apply BitVec.eq_of_toNat_eq
      rw [BitVec.toNat_ofNat, pow_zero, Nat.div_one, Nat.add_zero]
      omega
    | succ i =>
      rw [pow_succ', ← Nat.div_div_eq_div_mul, show ∀ n, ((byteAt s a).toNat + 256 * n) / 256 = n by omega,
        ← ih (a + 1) (by omega), Nat.add_right_comm, Nat.add_assoc]

/-- n of the bytes that hold a number hold its base-256 digits from i on. -/
theorem bytesVal_bytesAt_slice (s : State) (a : Nat) {k i n : Nat} (h : i + n ≤ k) :
    bytesVal (bytesAt s (a + i) n) = bytesVal (bytesAt s a k) / 256 ^ i % 256 ^ n := by
  apply bytesVal_bytesAt
  intro b hb
  rw [Nat.add_assoc, byteAt_eq_of_bytesVal s a (by omega : i + b < k), pow_add, Nat.div_div_eq_div_mul]

theorem bufWord_toNat (s : State) (a : Nat) : (bufWord s a).toNat = bytesVal (bytesAt s a 4) := by
  rw [bufWord, BitVec.toNat_ofNat]
  have h := bytesVal_lt (bytesAt s a 4)
  rw [bytesAt_length] at h
  exact Nat.mod_eq_of_lt h

/-- Word u of CT_BUF lies in entry u div WPN, after u mod WPN words. -/
theorem ctWord_addr (c : Config) (u : Nat) : 0x10000 + 4 * u = ctAddr c (u / c.wpn) + 4 * (u % c.wpn) := by
  have h := Nat.div_add_mod u c.wpn
  rw [ctAddr, Nat.mul_assoc]
  omega

/-- Settles O13: a buffer word is the number of its four bytes, in CT_BUF four bytes of its entry. -/
theorem bufferWordsAreLaidOut : Obligations.BufferWordsAreLaidOut := by
  unfold Obligations.BufferWordsAreLaidOut
  intro s hl
  refine ⟨fun w => ?msg, fun u => ?ct⟩
  case msg =>
    refine (bufWord_toNat s _).trans ?_
    simp only [bytesAt, bytesVal, msgByte, msgAddr, Nat.add_assoc, Nat.reduceAdd]
    omega
  case ct =>
    obtain ⟨hwpp, -, hwpn, -⟩ := legal_bounds hl
    have hu : u % s.cfg.wpn < s.cfg.wpn := Nat.mod_lt u (by omega)
    have h256 (n : Nat) : 256 ^ n = 2 ^ (8 * n) := by rw [pow_mul]; rfl
    calc (bufWord s (0x10000 + 4 * u)).toNat
        = bytesVal (bytesAt s (ctAddr s.cfg (u / s.cfg.wpn) + 4 * (u % s.cfg.wpn)) 4) := by
          rw [bufWord_toNat, ctWord_addr s.cfg]
      _ = ctEntry s (u / s.cfg.wpn) / 256 ^ (4 * (u % s.cfg.wpn)) % 256 ^ 4 :=
          bytesVal_bytesAt_slice s _ (by omega)
      _ = ctEntry s (u / s.cfg.wpn) / 2 ^ (32 * (u % s.cfg.wpn)) % 2 ^ 32 := by
          rw [h256, h256, ← Nat.mul_assoc]

end Sys2Proof.Machine
end

section
/-! ## Which buffer bytes an instruction can change (20_memory.md R67, 42_encrypt.md R164, 43_decrypt.md R187) -/

namespace Sys2Proof.Machine

/-! ### What changes no buffer byte -/

theorem commandWrite_byteAt (v : Word) (s : State) : byteAt (commandWrite v s) = byteAt s := by
  rcases commandWrite_cases v s with ⟨-, e⟩ | ⟨-, -, e⟩ | ⟨-, -, e⟩ | ⟨-, ph, -, e⟩ <;> rw [e] <;> rfl

theorem ctrlWrite_byteAt (v : Word) (s : State) : byteAt (ctrlWrite v s) = byteAt s := commandWrite_byteAt v s

theorem DeriveMove.byteAt_eq {s u : State} (h : DeriveMove s u) : byteAt u = byteAt s := by cases h <;> rfl

theorem ModinvMove.byteAt_eq {s u : State} (h : ModinvMove s u) : byteAt u = byteAt s := by cases h <;> rfl

theorem execDerive_byteAt {s t : State} (h : execDerive s = .next t) : byteAt t = byteAt s := by
  cases hr : running .derive s with
  | true =>
    cases (execDerive_running hr).symm.trans h
    exact (deriveStep_move s).byteAt_eq
  | false =>
    cases (execDerive_written hr).symm.trans h
    exact ctrlWrite_byteAt 1 s

theorem execModinv_byteAt {s t : State} (h : execModinv s = .next t) : byteAt t = byteAt s := by
  cases hr : running .modinv s with
  | true =>
    cases (execModinv_running hr).symm.trans h
    exact (modinvStep_move s).byteAt_eq
  | false =>
    cases (execModinv_written hr).symm.trans h
    exact ctrlWrite_byteAt 4 s

theorem execRd_byteAt {a : Addr} (w : Word) {s t : State} (h : execRd a w s = .next t) : byteAt t = byteAt s := by
  obtain ⟨r, v, k, e, -⟩ := execRd_cases a w s
  cases e.symm.trans h
  rfl

/-! ### What changes only its own -/

/-- ENCRYPT commits as many entries as there are blocks. -/
theorem EncryptMove.byteAt_outside {s u : State} (h : EncryptMove s u) (hp : s.phase = .encrypt) (hb : BlockInv s) {x : Nat}
    (hx : x < ctAddr s.cfg 0 ∨ ctAddr s.cfg (blockCount s) ≤ x) : byteAt u x = byteAt s x := by
  cases h with
  | fail | start | hold | absorb | issue => rfl
  | complete hc _ hk =>
    obtain ⟨-, hblk, hans, -⟩ := hb.encrypt hp hc
    have hlen : s.answers.length = blockCount s := by
      rw [hans, List.length_map, List.length_range]
      omega
    have hmem : memLookup (memSetEntries s.cfg s.mem 0 s.answers) x = memLookup s.mem x :=
      memLookup_memSetEntries_outside _ _ _ _ _ (by rwa [hlen, Nat.zero_add])
    simp only [byteAt, completeCommand_mem, completeCommand_epoch, encryptCommit, hmem]

/-- DECRYPT commits as many bytes as MSG_LEN says. -/
theorem DecryptMove.byteAt_outside {s u : State} (h : DecryptMove s u) {x : Nat}
    (hx : x < msgAddr 0 ∨ msgAddr (msgCount s) ≤ x) : byteAt u x = byteAt s x := by
  cases h with
  | fail | start | hold | absorb | issue => rfl
  | complete =>
    have hmem : memLookup (memSetBytes s.mem (msgAddr 0) (bitsBytes s.acc (msgCount s))) x = memLookup s.mem x :=
      memLookup_memSetBytes_outside _ _ _ _ (by rwa [bitsBytes_length])
    simp only [byteAt, completeCommand_mem, completeCommand_epoch, decryptCommit, hmem]

theorem execEncrypt_byteAt_outside {s t : State} (hb : BlockInv s) (h : execEncrypt s = .next t) {x : Nat}
    (hx : x < ctAddr s.cfg 0 ∨ ctAddr s.cfg (blockCount s) ≤ x) : byteAt t x = byteAt s x := by
  cases hr : running .encrypt s with
  | true =>
    cases (execEncrypt_running hr).symm.trans h
    exact (encryptStep_move s).byteAt_outside ((running_iff _ _).1 hr).2 hb hx
  | false =>
    cases (execEncrypt_written hr).symm.trans h
    exact congrFun (ctrlWrite_byteAt 2 s) x

theorem execDecrypt_byteAt_outside {s t : State} (h : execDecrypt s = .next t) {x : Nat}
    (hx : x < msgAddr 0 ∨ msgAddr (msgCount s) ≤ x) : byteAt t x = byteAt s x := by
  cases hr : running .decrypt s with
  | true =>
    cases (execDecrypt_running hr).symm.trans h
    exact (decryptStep_move s).byteAt_outside hx
  | false =>
    cases (execDecrypt_written hr).symm.trans h
    exact congrFun (ctrlWrite_byteAt 3 s) x

/-- A stored word changes no byte but the four at its region's address. -/
theorem byteAt_storeRegion_outside {s : State} {r : Region} (v : Word) {x : Nat} (hx : x < r.addr ∨ r.addr + 4 ≤ x) :
    byteAt (storeRegion v s r) x = byteAt s x := by
  have hout : ¬(r.addr ≤ x ∧ x < r.addr + 4) := by omega
  cases r with
  | msgBuf w => rw [byteAt_storeRegion_buffer v ⟨w, .inl rfl⟩, if_neg hout]
  | ctBuf u => rw [byteAt_storeRegion_buffer v ⟨u, .inr rfl⟩, if_neg hout]
  | wide w j => exact byteAt_congr (storeRegion_wide_mem v s w j) (storeRegion_epoch v s _) x
  | _ => rfl

theorem execWr_byteAt_outside {a : Addr} {v : Word} {s t : State} (h : execWr a v s = .next t) {x : Nat}
    (hx : s.status.busy = true ∨ x < a.toNat ∨ a.toNat + 4 ≤ x) : byteAt t x = byteAt s x := by
  rcases execWr_cases a v s with e | ⟨r, ht, e⟩
  · cases e.symm.trans h
    rfl
  · cases e.symm.trans h
    change byteAt (writeRegion v s r) x = byteAt s x
    rcases writeRegion_cases v s r with ⟨-, e⟩ | ⟨-, e⟩ | ⟨-, e⟩ | ⟨-, e⟩ | ⟨-, e⟩ | ⟨hb, -, -, -, -, e⟩ <;> rw [e]
    · exact congrFun (commandWrite_byteAt v s) x
    · rfl
    · rfl
    · rfl
    · obtain ⟨ha, hr⟩ := busTarget_inv ht
      refine byteAt_storeRegion_outside v ?_
      rw [← region_addr ha hr]
      exact hx.resolve_left (by simp [hb])

/-- Settles O53, instruction by instruction: outside its footprint an instruction changes no byte. -/
theorem bufferBytesChangeOnlyInTheFootprint : Obligations.BufferBytesChangeOnlyInTheFootprint := by
  unfold Obligations.BufferBytesChangeOnlyInTheFootprint
  intro i s t x hs h hne
  cases i with
  | nop =>
    cases h
    exact absurd (congrFun (ctrlWrite_byteAt 0 s) x) hne
  | badcmd v =>
    cases h
    exact absurd (congrFun (ctrlWrite_byteAt v s) x) hne
  | derive => exact absurd (congrFun (execDerive_byteAt h) x) hne
  | modinv => exact absurd (congrFun (execModinv_byteAt h) x) hne
  | rd a w => exact absurd (congrFun (execRd_byteAt w h) x) hne
  | encrypt =>
    refine .inr (.inl ⟨rfl, ?_⟩)
    by_contra hx
    exact hne (execEncrypt_byteAt_outside hs.block h (by omega))
  | decrypt =>
    refine .inr (.inr ⟨rfl, ?_⟩)
    by_contra hx
    exact hne (execDecrypt_byteAt_outside h (by omega))
  | wr a v =>
    have hb : s.status.busy = false := by
      by_contra hb
      exact hne (execWr_byteAt_outside h (.inl (by simpa using hb)))
    refine .inl ⟨a, v, rfl, hb, ?_⟩
    by_contra hx
    exact hne (execWr_byteAt_outside h (.inr (by omega)))

end Sys2Proof.Machine
end

section
/-! ## The encoding (30_encoding.md R90 to R99): the decoder's table, its inverse, and the STATUS word -/

namespace Sys2Proof

/-! ### CTRL words (R90 to R94) -/

/-- A word is the number of its OP exactly when its RSVD field is 0 (R90). -/
theorem eq_ofNat_iff_fields (v : Word) {k : Nat} (hk : k < 16) :
    v = BitVec.ofNat 32 k ↔ v.extractLsb' 4 28 = 0#28 ∧ (v.extractLsb' 0 4).toNat = k := by
  have hv := v.isLt
  rw [← BitVec.toNat_inj, ← BitVec.toNat_inj]
  simp only [BitVec.extractLsb'_toNat, BitVec.toNat_ofNat, Nat.shiftRight_eq_div_pow]
  omega

/-- The table of R93, row by row: the word of each valid command, and BADCMD for a reserved word. -/
theorem decodeCommand_cases (v : Word) :
    (v = 0 ∧ decodeCommand v = .nop) ∨ (v = 1 ∧ decodeCommand v = .derive) ∨ (v = 2 ∧ decodeCommand v = .encrypt) ∨
    (v = 3 ∧ decodeCommand v = .decrypt) ∨ (v = 4 ∧ decodeCommand v = .modinv) ∨
    (reservedWord v = true ∧ decodeCommand v = .badcmd) := by
  by_cases hres : reservedWord v = true
  · simp [hres, decodeCommand_of_reservedWord hres]
  · simp only [reservedWord, Bool.or_eq_true, bne_iff_ne, decide_eq_true_eq, not_or, not_not, not_le] at hres
    obtain ⟨hrsvd, hop⟩ := hres
    generalize hk : (v.extractLsb' 0 4).toNat = k at hop
    have hv : v = BitVec.ofNat 32 k := (eq_ofNat_iff_fields v (by omega)).2 ⟨hrsvd, hk⟩
    clear hrsvd hk
    subst hv
    interval_cases k <;> decide

/-- Settles O1, by the round trip `decode_encode`, proved constructor by constructor. -/
theorem decodeEncodeRoundTrip : Obligations.DecodeEncodeRoundTrip := by
  unfold Obligations.DecodeEncodeRoundTrip
  exact fun _ hwf => decode_encode hwf

/-- Settles O3, by the rows of R93's table. -/
theorem commandDecoderMatchesTheTable : Obligations.CommandDecoderMatchesTheTable := by
  unfold Obligations.CommandDecoderMatchesTheTable
  intro v
  rcases decodeCommand_cases v with ⟨rfl, h⟩ | ⟨rfl, h⟩ | ⟨rfl, h⟩ | ⟨rfl, h⟩ | ⟨rfl, h⟩ | ⟨hres, h⟩
  case inr.inr.inr.inr.inr =>
    have hne : v ≠ 0 ∧ v ≠ 1 ∧ v ≠ 2 ∧ v ≠ 3 ∧ v ≠ 4 := by
      refine ⟨?_, ?_, ?_, ?_, ?_⟩ <;> (rintro rfl; exact absurd hres (by decide))
    simp only [h, hne, reduceCtorEq, ne_eq, not_false_eq_true, and_self]
  all_goals
    rw [h]
    decide

/-- What a CTRL word decodes to is well formed, and the encoder gives the word back. -/
theorem encode_decodeCtrl (v : Word) :
    (decodeCtrl v).wellFormed = true ∧ encode (decodeCtrl v) = ctrlPacket v := by
  rcases decodeCommand_cases v with ⟨rfl, h⟩ | ⟨rfl, h⟩ | ⟨rfl, h⟩ | ⟨rfl, h⟩ | ⟨rfl, h⟩ | ⟨hres, h⟩
  case inr.inr.inr.inr.inr =>
    rw [decodeCtrl, h]
    exact ⟨hres, rfl⟩
  all_goals
    rw [decodeCtrl, h]
    exact ⟨rfl, rfl⟩

/-! ### BUS tuples (R99) -/

/-- A tuple is put together from the fields it is read as. -/
theorem busTuple_fields (t : BitVec 50) :
    busTuple (t.getLsbD 49) (t.extractLsb' 32 17) (t.extractLsb' 0 32) = t := by
  ext i hi
  rcases Nat.lt_or_ge i 32 with h32 | h32
  · simp [busTuple, h32, show i < 49 by omega, BitVec.getLsbD_eq_getElem hi]
  rcases Nat.lt_or_ge i 49 with h49 | h49
  · simp [busTuple, h49, Nat.not_lt.2 h32, show i - 32 < 17 by omega, Nat.add_sub_cancel' h32, BitVec.getLsbD_eq_getElem hi]
  · obtain rfl : i = 49 := by omega
    simp [busTuple]

/-- What a tuple decodes to is well formed, and the encoder gives the tuple back. -/
theorem encode_decodeBus (t : BitVec 50) :
    (decodeBus t).wellFormed = true ∧ encode (decodeBus t) = leBytes 7 t.toNat := by
  have hfields := busTuple_fields t
  unfold decodeBus
  split
  case isTrue hwrite =>
    rw [hwrite] at hfields
    exact ⟨rfl, by rw [encode, busPacket, hfields]⟩
  case isFalse hread =>
    rw [Bool.eq_false_of_not_eq_true hread] at hfields
    exact ⟨rfl, by rw [encode, busPacket, hfields]⟩

/-! ### Packets -/

/-- Bytes hold a number of their width. -/
theorem leNat_lt (b : List Byte) : leNat b < 2 ^ (8 * b.length) := by
  calc leNat b = leNat (leBytes b.length (leNat b)) := by rw [leBytes_leNat]
    _ = leNat b % 2 ^ (8 * b.length) := leNat_leBytes _ _
    _ < 2 ^ (8 * b.length) := Nat.mod_lt _ (by positivity)

/-- The decoder accepts the bytes of a CTRL word and the bytes of a BUS tuple, and no others (R90, R99). -/
theorem decode_eq_ok {bytes : List Byte} {i : Instr} (h : decode bytes = .ok i) :
    (∃ v : Word, bytes = ctrlPacket v ∧ i = decodeCtrl v) ∨
    (∃ t : BitVec 50, bytes = leBytes 7 t.toNat ∧ i = decodeBus t) := by
  have hbytes := leBytes_leNat bytes
  unfold decode at h
  split at h
  next hlen =>
    cases h
    rw [hlen] at hbytes
    have hlt : leNat bytes < 2 ^ 32 := by simpa [hlen] using leNat_lt bytes
    refine .inl ⟨_, ?_, rfl⟩
    rw [ctrlPacket, BitVec.toNat_ofNat, Nat.mod_eq_of_lt hlt, hbytes]
  next hlen =>
    split at h
    next hlt =>
      cases h
      rw [hlen] at hbytes
      refine .inr ⟨_, ?_, rfl⟩
      rw [BitVec.toNat_ofNat, Nat.mod_eq_of_lt hlt, hbytes]
    next => cases h
  next => cases h

/-- Settles O2, by the two kinds of packets that the decoder accepts. -/
theorem decodedPacketIsTheEncoding : Obligations.DecodedPacketIsTheEncoding := by
  unfold Obligations.DecodedPacketIsTheEncoding
  intro bytes i h
  rcases decode_eq_ok h with ⟨v, rfl, rfl⟩ | ⟨t, rfl, rfl⟩
  · exact encode_decodeCtrl v
  · exact encode_decodeBus t

/-! ### Words of the opcode table -/

/-- A CTRL row's word is decoded as that word (R90). -/
theorem decodeTableWord_ctrl {w : Nat} (hw : w < 2 ^ 32) : decodeTableWord 32 w = some (decodeCtrl (BitVec.ofNat 32 w)) := by
  have hp : tablePacket 32 w = ctrlPacket (BitVec.ofNat 32 w) := by
    rw [ctrlPacket, BitVec.toNat_ofNat, Nat.mod_eq_of_lt hw]
    rfl
  rw [decodeTableWord, hp, decode_ctrlPacket]

/-- A BUS row's word is decoded as the tuple of its fields (R99). -/
theorem decodeTableWord_bus (p : Bool) (a : Addr) (w : Word) :
    decodeTableWord 56 (busTuple p a w).toNat = some (if p then .wr a w else .rd a w) := by
  rw [decodeTableWord, show tablePacket 56 (busTuple p a w).toNat = busPacket p a w from rfl, decode_busPacket]

/-- Settles O4: each word is a CTRL word, or the tuple of the fields written out. -/
theorem sampleWordsDecode : Obligations.SampleWordsDecode := by
  unfold Obligations.SampleWordsDecode
  refine ⟨decodeTableWord_ctrl (by decide), decodeTableWord_ctrl (by decide), decodeTableWord_ctrl (by decide),
    decodeTableWord_ctrl (by decide), decodeTableWord_ctrl (by decide), decodeTableWord_ctrl (by decide),
    decodeTableWord_bus false 0x4 0, decodeTableWord_bus true 0x100 43⟩

end Sys2Proof

namespace Sys2Proof.Machine

/-! ### The STATUS word (R98) -/

/-- A field of `n` bits at bit `k` of a word counts `2 ^ k` times. -/
theorem toNat_field {n k : Nat} (x : BitVec n) (h : n + k ≤ 32) : (x.setWidth 32 <<< k).toNat = x.toNat <<< k := by
  have hlt : x.toNat <<< k < 2 ^ 32 := by
    rw [Nat.shiftLeft_eq]
    calc x.toNat * 2 ^ k < 2 ^ n * 2 ^ k := Nat.mul_lt_mul_of_pos_right x.isLt (by positivity)
      _ = 2 ^ (n + k) := (pow_add 2 n k).symm
      _ ≤ 2 ^ 32 := Nat.pow_le_pow_right (by decide) h
  rw [BitVec.toNat_shiftLeft, BitVec.toNat_setWidth_of_le (by omega), Nat.mod_eq_of_lt hlt]

/-- A field set above a part of `k` bits adds to it. -/
theorem shiftLeft_or_eq_add {k b : Nat} (a : Nat) (hb : b < 2 ^ k) : a <<< k ||| b = 2 ^ k * a + b := by
  rw [← Nat.shiftLeft_add_eq_or_of_lt hb, Nat.shiftLeft_eq, Nat.mul_comm]

/-- The fields of STATUS do not overlap: the word is their sum. -/
theorem statusWord_toNat (f : Status) :
    (statusWord f).toNat =
      f.busy.toNat + 2 * f.done.toNat + 4 * f.err.toNat + 8 * f.keyValid.toNat + 16 * f.trunc.toNat + 32 * f.wign.toNat +
        256 * (errBits f.errcode).toNat := by
  have hbusy := f.busy.toNat_lt
  have hdone := f.done.toNat_lt
  have herr := f.err.toNat_lt
  have hkey := f.keyValid.toNat_lt
  have htrunc := f.trunc.toNat_lt
  have hwign := f.wign.toNat_lt
  have hbit : ∀ b : Bool, ((BitVec.ofBool b).setWidth 32).toNat = b.toNat := fun b => by
    rw [BitVec.toNat_setWidth_of_le (by decide), BitVec.toNat_ofBool]
  simp (disch := decide) only [statusWord, BitVec.toNat_or, toNat_field, hbit, BitVec.toNat_ofBool, Nat.lor_assoc]
  simp (disch := omega) only [shiftLeft_or_eq_add]
  omega

/-- Settles O11: a read of STATUS returns the STATUS word, and the codes are those of the error table. -/
theorem statusWordFields : Obligations.StatusWordFields := by
  unfold Obligations.StatusWordFields
  exact ⟨fun s => statusWord_toNat s.status, rfl, rfl, rfl, rfl, rfl, rfl, rfl, rfl, rfl⟩

end Sys2Proof.Machine
end

section
/-! ## DERIVE (40_key_derivation.md)

One equation per internal step, with the step's guards as hypotheses; the errors and the commit are read off them, and the run
under the fair schedule chains them. -/

namespace Sys2Proof.Machine

/-! ### One equation per internal step (R120) -/

theorem deriveStep_argTooSmall {s : State} (hc : s.checked = false) (h : s.p < 2 ∨ s.q < 2) :
    deriveStep s = deriveError .arg s := by
  rw [deriveStep, if_pos (by simp [hc]), if_pos h]

theorem deriveStep_phiTooSmall {s : State} (hc : s.checked = false) (hp : 2 ≤ s.p) (hq : 2 ≤ s.q)
    (hphi : totient s.p s.q < 2) : deriveStep s = deriveError .keyder { s with phi := totient s.p s.q } := by
  rw [deriveStep, if_pos (by simp [hc]), if_neg (by omega), if_pos hphi]

theorem deriveStep_load {s : State} (hc : s.checked = false) (hp : 2 ≤ s.p) (hq : 2 ≤ s.q)
    (hphi : 2 ≤ totient s.p s.q) :
    deriveStep s =
      { s with
        checked := true
        phi := totient s.p s.q
        mic := micLoad Config.e (totient s.p s.q) } := by
  rw [deriveStep, if_pos (by simp [hc]), if_neg (by omega), if_neg (by omega)]

theorem deriveStep_pass {s : State} (hc : s.checked = true) (h1 : s.mic.r1 ≠ 0) :
    deriveStep s = { s with mic := micPass s.phi s.mic } := by
  simp [deriveStep, hc, h1]

theorem deriveStep_noInverse {s : State} (hc : s.checked = true) (h1 : s.mic.r1 = 0) (h0 : s.mic.r0 ≠ 1) :
    deriveStep s = deriveError .keyder s := by
  simp [deriveStep, hc, h1, h0]

theorem deriveStep_complete {s : State} (hc : s.checked = true) (h1 : s.mic.r1 = 0) (h0 : s.mic.r0 = 1) :
    deriveStep s = completeCommand (deriveCommit s) := by
  simp [deriveStep, hc, h1, h0]

/-- Settles O32: the two checks and MIC's divisor each end in `deriveError`, which clears the key (R127). -/
theorem deriveErrorClearsTheKey : Obligations.DeriveErrorClearsTheKey := by
  unfold Obligations.DeriveErrorClearsTheKey
  intro s hrun
  have hexec : exec .derive s = .next (deriveStep s) := execDerive_running hrun
  refine ⟨fun hc harg => ?arg, fun hc hp hq hphi => ?phi, fun hc h1 h0 => ?divisor⟩
  case arg => rw [hexec, deriveStep_argTooSmall hc harg]; rfl
  case phi => rw [hexec, deriveStep_phiTooSmall hc hp hq hphi]; rfl
  case divisor => rw [hexec, deriveStep_noInverse hc h1 h0]; rfl

/-- Settles O33: the invariant ties MIC's registers to 65537 and phi, so t0 is the inverse that the commit writes to D. -/
theorem deriveCommitsTheKey : Obligations.DeriveCommitsTheKey := by
  unfold Obligations.DeriveCommitsTheKey
  intro s hs hrun hc h1 h0
  have hexec : exec .derive s = .next (deriveStep s) := execDerive_running hrun
  obtain ⟨-, -, hphi, hrel⟩ := hs.mic.1 ⟨((running_iff _ _).1 hrun).2, hc⟩
  obtain ⟨hpos, hlt, hinv⟩ := micRel_inverse (hphi ▸ hrel) h0
  refine ⟨s.mic.t0, hpos, hlt, hinv, ?_⟩
  rw [hexec, deriveStep_complete hc h1 h0]
  rfl

end Sys2Proof.Machine
end

section
/-! ## A command that computes with MIC, run under the fair schedule (log entry 4)

While a running command waits for no answer, the controller gets the move back after each of its internal steps; so MIC's passes
follow one another up to the end of its loop. -/

namespace Sys2Proof.Machine

/-- With the schedule empty, the controller has the move and runs `ph`, which waits for no answer. -/
structure OnMove (ph : Phase) (s : State) : Prop where
  inReset : s.inReset = false
  turn    : s.turn = .controller
  sched   : s.sched = []
  phase   : s.phase = ph
  mxFree  : s.mxPending = false

/-- The controller's move, whatever it leads to. -/
theorem OnMove.reach_step {ph : Phase} {s : State} (h : OnMove ph s) : Reach s (advanceTurn (internalStep s)) :=
  Reach.head (step_controller h.turn h.inReset) (Reach.refl _)

/-- When the command still runs after its internal step, the controller gets the move back; at most a stale request is answered
in between. -/
theorem OnMove.reach_next {ph : Phase} {s u : State} (h : OnMove ph s) (hph : ph ≠ .idle) (hstep : internalStep s = u)
    (hu : OnMove ph u) : ∃ q, Reach s { u with mxReq := q } := by
  obtain ⟨q, hsettle, -⟩ := settle u hu.sched hu.inReset (hu.phase ▸ hph) hu.mxFree
  rw [← hu.turn] at hsettle
  exact ⟨q, (hstep ▸ h.reach_step).trans hsettle⟩

/-- The machine past its command's checks, with MIC and the engine's stale request at given values. -/
def micWork (s : State) (phi : Nat) (g : MicRegs) (q : Option MxReq) : State :=
  { s with checked := true, phi := phi, mic := g, mxReq := q }

theorem OnMove.atMicWork {ph : Phase} {s : State} (h : OnMove ph s) (phi : Nat) (g : MicRegs) (q : Option MxReq) :
    OnMove ph (micWork s phi g q) :=
  ⟨h.inReset, h.turn, h.sched, h.phase, h.mxFree⟩

/-- While MIC has a remainder and each internal step is a pass, k passes are made (41_modular_inverse.md R141). -/
theorem OnMove.reach_micPasses {ph : Phase} {s : State} {m phi : Nat} (h : OnMove ph s) (hph : ph ≠ .idle)
    (hpass : ∀ g q, g.r1 ≠ 0 → internalStep (micWork s phi g q) = micWork s phi (micPass m g) q)
    (k : Nat) (g : MicRegs) (q : Option MxReq) (hk : ∀ j, j < k → ((micPass m)^[j] g).r1 ≠ 0) :
    ∃ q', Reach (micWork s phi g q) (micWork s phi ((micPass m)^[k] g) q') := by
  induction k generalizing g q with
  | zero => exact ⟨q, Reach.refl _⟩
  | succ k ih =>
    have hstep := hpass g q (hk 0 k.succ_pos)
    obtain ⟨q1, hhead⟩ := (h.atMicWork phi g q).reach_next hph hstep (h.atMicWork phi _ q)
    obtain ⟨q2, htail⟩ := ih (micPass m g) q1 fun j hj => hk (j + 1) (Nat.succ_lt_succ hj)
    exact ⟨q2, hhead.trans htail⟩

/-- MIC's passes come to the end of its loop, where r0 is the greatest common divisor (R140, R141). -/
theorem OnMove.reach_micEnd {ph : Phase} {s : State} {m phi : Nat} (h : OnMove ph s) (hph : ph ≠ .idle) (a : Nat)
    (hm : 2 ≤ m) (hpass : ∀ g q, g.r1 ≠ 0 → internalStep (micWork s phi g q) = micWork s phi (micPass m g) q)
    (q : Option MxReq) :
    ∃ g q', Reach (micWork s phi (micLoad a m) q) (micWork s phi g q') ∧ g.r1 = 0 ∧ MicRel a m g ∧
      g.r0 = Nat.gcd (a % m) m := by
  obtain ⟨k, -, hk, h1, hrel⟩ := micRel_terminates (micRel_load a hm)
  obtain ⟨q', hreach⟩ := h.reach_micPasses hph hpass k _ q hk
  exact ⟨_, q', hreach, h1, hrel, micRel_gcd hrel h1⟩

end Sys2Proof.Machine
end

section
/-! ## DERIVE from its start to its end (40_key_derivation.md R120) -/

namespace Sys2Proof.Machine

/-- The ways DERIVE ends, each with the condition on its operands. -/
inductive DeriveEnd (s : State) : State → Prop
  | argTooSmall : s.p < 2 ∨ s.q < 2 → DeriveEnd s (deriveError .arg s)
  | phiTooSmall : 2 ≤ s.p → 2 ≤ s.q → totient s.p s.q < 2 →
      DeriveEnd s (deriveError .keyder { s with phi := totient s.p s.q })
  | noInverse (g : MicRegs) (q : Option MxReq) : 2 ≤ s.p → 2 ≤ s.q → Nat.gcd Config.e (totient s.p s.q) ≠ 1 →
      DeriveEnd s (deriveError .keyder (micWork s (totient s.p s.q) g q))
  | complete (g : MicRegs) (q : Option MxReq) : 2 ≤ s.p → 2 ≤ s.q → 2 ≤ totient s.p s.q →
      Nat.gcd Config.e (totient s.p s.q) = 1 → MicRel Config.e (totient s.p s.q) g → g.r0 = 1 →
      DeriveEnd s (completeCommand (deriveCommit (micWork s (totient s.p s.q) g q)))

theorem internalStep_derive {s : State} (hp : s.phase = .derive) : internalStep s = deriveStep s := by
  rw [internalStep, hp]

/-- Past its checks DERIVE computes with MIC, which finds the divisor of 65537 and phi. -/
theorem OnMove.reach_deriveEnd_of_loaded {s : State} (h : OnMove .derive s) (hp : 2 ≤ s.p) (hq : 2 ≤ s.q)
    (hphi : 2 ≤ totient s.p s.q) (q : Option MxReq) :
    ∃ u, DeriveEnd s u ∧
      Reach (micWork s (totient s.p s.q) (micLoad Config.e (totient s.p s.q)) q) (advanceTurn u) := by
  have hderive (g q) : internalStep (micWork s (totient s.p s.q) g q) = _ := internalStep_derive h.phase
  obtain ⟨g, q', hreach, h1, hrel, hgcd⟩ := h.reach_micEnd nofun Config.e hphi
    (fun g q h1 => (hderive g q).trans (deriveStep_pass rfl h1)) q
  have hlast := (h.atMicWork (totient s.p s.q) g q').reach_step
  rw [hderive] at hlast
  rw [← Nat.gcd_rec, Nat.gcd_comm] at hgcd
  by_cases h0 : g.r0 = 1
  · rw [deriveStep_complete rfl h1 h0] at hlast
    exact ⟨_, .complete g q' hp hq hphi (hgcd ▸ h0) hrel h0, hreach.trans hlast⟩
  · rw [deriveStep_noInverse rfl h1 h0] at hlast
    exact ⟨_, .noInverse g q' hp hq (hgcd ▸ h0), hreach.trans hlast⟩

/-- From its start DERIVE reaches one of its ends. -/
theorem OnMove.reach_deriveEnd {s : State} (h : OnMove .derive s) (hc : s.checked = false) :
    ∃ u, DeriveEnd s u ∧ Reach s (advanceTurn u) := by
  have hstep := internalStep_derive h.phase
  have hfirst := h.reach_step
  rw [hstep] at hfirst
  by_cases harg : s.p < 2 ∨ s.q < 2
  · rw [deriveStep_argTooSmall hc harg] at hfirst
    exact ⟨_, .argTooSmall harg, hfirst⟩
  have hp : 2 ≤ s.p := by omega
  have hq : 2 ≤ s.q := by omega
  by_cases hphi : totient s.p s.q < 2
  · rw [deriveStep_phiTooSmall hc hp hq hphi] at hfirst
    exact ⟨_, .phiTooSmall hp hq hphi, hfirst⟩
  have hphi2 : 2 ≤ totient s.p s.q := by omega
  obtain ⟨q, hload⟩ := h.reach_next nofun (hstep.trans (deriveStep_load hc hp hq hphi2))
    (h.atMicWork (totient s.p s.q) _ s.mxReq)
  obtain ⟨u, hu, hreach⟩ := h.reach_deriveEnd_of_loaded hp hq hphi2 q
  exact ⟨u, hu, hload.trans hreach⟩

/-! ### What each end leaves -/

/-- The state after a completion, with success or with an error (60_exceptions.md R224, R225). -/
def Completed (t : State) : Prop := t.status.busy = false ∧ t.status.done = true ∧ t.phase = .idle

theorem DeriveEnd.completed {s u : State} (h : DeriveEnd s u) : Completed u := by
  cases h <;> exact ⟨rfl, rfl, rfl⟩

theorem DeriveEnd.frame {s u : State} (h : DeriveEnd s u) :
    (u.p, u.q, u.ma, u.mm, u.mr) = (s.p, s.q, s.ma, s.mm, s.mr) ∧
      (u.msgLen, u.blkCount, u.doneIe, u.mem, u.trace) = (s.msgLen, s.blkCount, s.doneIe, s.mem, s.trace) := by
  cases h <;> exact ⟨rfl, rfl⟩

theorem DeriveEnd.errcode_arg {s u : State} (h : DeriveEnd s u) (harg : s.p < 2 ∨ s.q < 2) : u.status.errcode = .arg := by
  cases h with
  | argTooSmall => rfl
  | phiTooSmall | noInverse | complete => omega

theorem DeriveEnd.errcode_keyder {s u : State} (h : DeriveEnd s u) (hp : 2 ≤ s.p) (hq : 2 ≤ s.q)
    (hbad : totient s.p s.q < 2 ∨ Nat.gcd Config.e (totient s.p s.q) ≠ 1) : u.status.errcode = .keyder := by
  cases h with
  | argTooSmall => omega
  | phiTooSmall | noInverse => rfl
  | complete => omega

theorem DeriveEnd.key_cleared {s u : State} (h : DeriveEnd s u)
    (hbad : s.p < 2 ∨ s.q < 2 ∨ totient s.p s.q < 2 ∨ Nat.gcd Config.e (totient s.p s.q) ≠ 1) :
    (u.n, u.d, u.blockLen, u.status.keyValid) = (0, 0, 0, false) := by
  cases h with
  | argTooSmall | phiTooSmall | noInverse => rfl
  | complete => omega

theorem DeriveEnd.key_committed {s u : State} (h : DeriveEnd s u) (hl : s.cfg.Legal) (hw : WidthInv s) (hp : 2 ≤ s.p)
    (hq : 2 ≤ s.q) (hphi : 2 ≤ totient s.p s.q) (hgcd : Nat.gcd Config.e (totient s.p s.q) = 1) :
    u.status.keyValid = true ∧ u.status.errcode = s.status.errcode ∧ u.n = s.p * s.q ∧ 1 ≤ u.d ∧
      u.d < totient s.p s.q ∧ Config.e * u.d % totient s.p s.q = 1 ∧ u.blockLen.toNat = bitlen (s.p * s.q) - 1 := by
  cases h with
  | argTooSmall | phiTooSmall | noInverse => omega
  | complete g q _ _ _ _ hrel h0 =>
    obtain ⟨hpos, hlt, hinv⟩ := micRel_inverse hrel h0
    have hkey : KeyInv (deriveCommit (micWork s (totient s.p s.q) g q)) :=
      keyInv_deriveCommit hl hw hp hq rfl hrel h0
    exact ⟨rfl, rfl, rfl, hpos, hlt, hinv, (key_facts hkey rfl).2.1⟩

/-- Settles O34: DERIVE reaches one of its ends, and each end meets the clauses. -/
theorem deriveRunsToItsResult : Obligations.DeriveRunsToItsResult := by
  unfold Obligations.DeriveRunsToItsResult
  intro s hs hr ht hsched hp hc
  have hm := (hs.block.port_free (.inl hc)).1
  obtain ⟨u, hu, k, hk⟩ := (OnMove.mk hr ht hsched hp hm).reach_deriveEnd hc
  refine ⟨k, _, hk, ?_⟩
  simp only [advanceTurn_status, advanceTurn_phase, advanceTurn_n, advanceTurn_d, advanceTurn_blockLen, advanceTurn_p,
    advanceTurn_q, advanceTurn_ma, advanceTurn_mm, advanceTurn_mr, advanceTurn_msgLen, advanceTurn_blkCount,
    advanceTurn_doneIe, advanceTurn_mem, advanceTurn_trace]
  obtain ⟨hbusy, hdone, hidle⟩ := hu.completed
  exact ⟨hbusy, hdone, hidle, hu.errcode_arg, hu.errcode_keyder, hu.key_cleared, hu.key_committed hs.legal hs.width,
    hu.frame⟩

end Sys2Proof.Machine
end

section
/-! ## When outputs change (40_key_derivation.md R126, 60_exceptions.md R224, 20_memory.md R74)

Every instruction but a bus write keeps the outputs of all commands, or is the running command whose completion writes its
own. -/

namespace Sys2Proof.Machine

/-- What DERIVE writes. -/
def keyOutputs (s : State) : Nat × Nat × Word × Bool := (s.n, s.d, s.blockLen, s.status.keyValid)

/-- The registers that only the host writes, BLK_COUNT aside. -/
def operands (s : State) : Nat × Nat × Nat × Nat × Word × Bool := (s.p, s.q, s.ma, s.mm, s.msgLen, s.doneIe)

/-- What an instruction can do to the outputs: keep them, or complete its command and write that command's own. -/
inductive OutputMove (s t : State) : Instr → Prop
  | keep (i : Instr) : keyOutputs t = keyOutputs s → t.mr = s.mr → t.blkCount = s.blkCount → t.mem = s.mem →
      OutputMove s t i
  | derive : running .derive s = true → Completed t → t.mr = s.mr → t.blkCount = s.blkCount → t.mem = s.mem →
      OutputMove s t .derive
  | modinv : running .modinv s = true → Completed t → keyOutputs t = keyOutputs s → t.blkCount = s.blkCount →
      t.mem = s.mem → OutputMove s t .modinv
  | encrypt : running .encrypt s = true → Completed t → keyOutputs t = keyOutputs s → t.mr = s.mr →
      OutputMove s t .encrypt
  | decrypt : running .decrypt s = true → Completed t → keyOutputs t = keyOutputs s → t.mr = s.mr →
      t.blkCount = s.blkCount → OutputMove s t .decrypt

/-! ### The internal steps of the commands, and a write to CTRL -/

theorem DeriveMove.outputMove {s u : State} (h : DeriveMove s u) (hr : running .derive s = true) :
    OutputMove s u .derive ∧ operands u = operands s := by
  cases h with
  | argTooSmall | phiTooSmall | noInverse | complete => exact ⟨.derive hr ⟨rfl, rfl, rfl⟩ rfl rfl rfl, rfl⟩
  | load | pass => exact ⟨.keep _ rfl rfl rfl rfl, rfl⟩

theorem ModinvMove.outputMove {s u : State} (h : ModinvMove s u) (hr : running .modinv s = true) :
    OutputMove s u .modinv ∧ operands u = operands s := by
  cases h with
  | argTooSmall | noInverse | load | pass => exact ⟨.keep _ rfl rfl rfl rfl, rfl⟩
  | complete => exact ⟨.modinv hr ⟨rfl, rfl, rfl⟩ rfl rfl rfl, rfl⟩

theorem EncryptMove.outputMove {s u : State} (h : EncryptMove s u) (hr : running .encrypt s = true) :
    OutputMove s u .encrypt ∧ operands u = operands s := by
  cases h with
  | fail | start | hold | absorb | issue => exact ⟨.keep _ rfl rfl rfl rfl, rfl⟩
  | complete => exact ⟨.encrypt hr ⟨rfl, rfl, rfl⟩ rfl rfl, rfl⟩

theorem DecryptMove.outputMove {s u : State} (h : DecryptMove s u) (hr : running .decrypt s = true) :
    OutputMove s u .decrypt ∧ operands u = operands s := by
  cases h with
  | fail | start | hold | absorb | issue => exact ⟨.keep _ rfl rfl rfl rfl, rfl⟩
  | complete => exact ⟨.decrypt hr ⟨rfl, rfl, rfl⟩ rfl rfl rfl, rfl⟩

/-- A write to CTRL starts a command or ends BADCMD, and writes no output. -/
theorem ctrlWrite_outputMove (i : Instr) (v : Word) (s : State) :
    OutputMove s (ctrlWrite v s) i ∧ operands (ctrlWrite v s) = operands s := by
  unfold ctrlWrite
  rcases commandWrite_cases v s with ⟨-, e⟩ | ⟨-, -, e⟩ | ⟨-, -, e⟩ | ⟨-, ph, -, e⟩ <;> rw [e] <;>
    exact ⟨.keep _ rfl rfl rfl rfl, rfl⟩

/-! ### Every instruction but a bus write -/

/-- A command's instruction is the running command's next step or a write of its word, so its step decides what it can do. -/
theorem outputMove_of_command {i : Instr} {ph : Phase} {v : Word} {s t u : State}
    (hu : running ph s = true → OutputMove s u i ∧ operands u = operands s)
    (h : (if running ph s then .next u else .next (ctrlWrite v s) : Host.Outcome State Fault Refusal) = .next t) :
    OutputMove s t i ∧ operands t = operands s := by
  split at h
  next hr =>
    cases h
    exact hu hr
  next =>
    cases h
    exact ctrlWrite_outputMove i v s

theorem exec_outputMove {i : Instr} {s t : State} (h : exec i s = .next t) (hw : ∀ a w, i ≠ .wr a w) :
    OutputMove s t i ∧ operands t = operands s := by
  cases i with
  | nop =>
    cases h
    exact ctrlWrite_outputMove _ 0 s
  | badcmd v =>
    cases h
    exact ctrlWrite_outputMove _ v s
  | derive => exact outputMove_of_command (deriveStep_move s).outputMove h
  | encrypt => exact outputMove_of_command (encryptStep_move s).outputMove h
  | decrypt => exact outputMove_of_command (decryptStep_move s).outputMove h
  | modinv => exact outputMove_of_command (modinvStep_move s).outputMove h
  | rd a w =>
    obtain ⟨r, v, k, e, -⟩ := execRd_cases a w s
    cases e.symm.trans h
    exact ⟨.keep _ rfl rfl rfl rfl, rfl⟩
  | wr a w => exact absurd rfl (hw a w)

/-- Settles O51: an output that changed is one that the instruction's completion wrote. -/
theorem outputsAppearOnlyAtCompletion : Obligations.OutputsAppearOnlyAtCompletion := by
  unfold Obligations.OutputsAppearOnlyAtCompletion
  intro i s t h hw
  obtain ⟨hmove, hoperands⟩ := exec_outputMove h hw
  cases hmove with
  | keep _ hkey hmr hblk hmem => exact ⟨absurd hkey, absurd hmr, absurd hblk, absurd hmem, hoperands⟩
  | derive hr hc hmr hblk hmem => exact ⟨fun _ => ⟨rfl, hr, hc⟩, absurd hmr, absurd hblk, absurd hmem, hoperands⟩
  | modinv hr hc hkey hblk hmem => exact ⟨absurd hkey, fun _ => ⟨rfl, hr, hc⟩, absurd hblk, absurd hmem, hoperands⟩
  | encrypt hr hc hkey hmr =>
    exact ⟨absurd hkey, absurd hmr, fun _ => ⟨rfl, hr, hc⟩, fun _ => ⟨.inl ⟨rfl, hr⟩, hc⟩, hoperands⟩
  | decrypt hr hc hkey hmr hblk =>
    exact ⟨absurd hkey, absurd hmr, absurd hblk, fun _ => ⟨.inr ⟨rfl, hr⟩, hc⟩, hoperands⟩

end Sys2Proof.Machine
end

section
/-! ## MIC computes the inverse (41_modular_inverse.md R140, R141) -/

namespace Sys2Proof.Machine

/-- A number has at most one inverse below the modulus. -/
theorem modInverse_unique {a m x y : Nat} (hx : x < m) (hy : y < m) (hax : a * x % m = 1) (hay : a * y % m = 1) :
    x = y := by
  have hmod : a * x ≡ a * y [MOD m] := hax.trans hay.symm
  have hone : a * x ≡ 1 [MOD m] := by
    rw [← hax]
    exact (Nat.mod_modEq _ _).symm
  have hcop : a.Coprime m := Nat.coprime_of_mul_modEq_one x hone
  exact (hmod.cancel_left_of_coprime hcop.symm).eq_of_lt_of_lt hx hy

/-- Settles O28: the loop from the loaded registers ends in registers that still meet its relation, so r0 is the greatest common
divisor, and t0 the inverse when that is 1. -/
theorem micIterationComputesTheInverse : Obligations.MicIterationComputesTheInverse := by
  unfold Obligations.MicIterationComputesTheInverse
  intro a m hm
  obtain ⟨k, hk, hbefore, h1, hrel⟩ := micRel_terminates (micRel_load a hm)
  have hgcd := micRel_gcd hrel h1
  refine ⟨k, Nat.le_add_right_of_le hk, hbefore, h1, hgcd, fun hcop => ?_⟩
  obtain ⟨hpos, hlt, hinv⟩ := micRel_inverse hrel (hgcd.trans hcop)
  refine ⟨hpos, fun x => ⟨fun ⟨hx, hax⟩ => modInverse_unique hx hlt hax hinv, ?_⟩⟩
  rintro rfl
  exact ⟨hlt, hinv⟩

end Sys2Proof.Machine
end

section
/-! ## MODINV (41_modular_inverse.md R143)

One equation per internal step, with the step's guards as hypotheses; the errors and the result are read off them. -/

namespace Sys2Proof.Machine

theorem modinvStep_argTooSmall {s : State} (hc : s.checked = false) (h : s.mm < 2) :
    modinvStep s = errorCompletion .arg s := by
  simp [modinvStep, hc, h]

theorem modinvStep_load {s : State} (hc : s.checked = false) (h : 2 ≤ s.mm) :
    modinvStep s = { s with checked := true, mic := micLoad s.ma s.mm } := by
  rw [modinvStep, if_pos (by simp [hc]), if_neg (by omega)]

theorem modinvStep_pass {s : State} (hc : s.checked = true) (h1 : s.mic.r1 ≠ 0) :
    modinvStep s = { s with mic := micPass s.mm s.mic } := by
  simp [modinvStep, hc, h1]

theorem modinvStep_noInverse {s : State} (hc : s.checked = true) (h1 : s.mic.r1 = 0) (h0 : s.mic.r0 ≠ 1) :
    modinvStep s = errorCompletion .noinv s := by
  simp [modinvStep, hc, h1, h0]

theorem modinvStep_complete {s : State} (hc : s.checked = true) (h1 : s.mic.r1 = 0) (h0 : s.mic.r0 = 1) :
    modinvStep s = completeCommand { s with mr := s.mic.t0 } := by
  simp [modinvStep, hc, h1, h0]

/-- Settles O29: the check of m and MIC's divisor each end in `errorCompletion`. -/
theorem modinvErrorsChangeOnlyStatus : Obligations.ModinvErrorsChangeOnlyStatus := by
  unfold Obligations.ModinvErrorsChangeOnlyStatus
  intro s hrun
  have hexec : exec .modinv s = .next (modinvStep s) := execModinv_running hrun
  refine ⟨fun hc harg => ?arg, fun hc h1 h0 => ?divisor⟩
  case arg => rw [hexec, modinvStep_argTooSmall hc harg]; rfl
  case divisor => rw [hexec, modinvStep_noInverse hc h1 h0]; rfl

/-- Settles O30: the invariant ties MIC's registers to MA and MM, so the t0 that the completion writes to MR is the inverse. -/
theorem modinvWritesTheInverse : Obligations.ModinvWritesTheInverse := by
  unfold Obligations.ModinvWritesTheInverse
  intro s hs hrun hc h1 h0
  have hexec : exec .modinv s = .next (modinvStep s) := execModinv_running hrun
  have hrel := hs.mic.2 ⟨((running_iff _ _).1 hrun).2, hc⟩
  obtain ⟨hpos, hlt, hinv⟩ := micRel_inverse hrel h0
  refine ⟨s.mic.t0, hpos, hlt, hinv, ?_⟩
  rw [hexec, modinvStep_complete hc h1 h0]
  rfl

end Sys2Proof.Machine
end

section
/-! ## MODINV from its start to its end (41_modular_inverse.md R143) -/

namespace Sys2Proof.Machine

/-- The ways MODINV ends, each with the condition on its operands. -/
inductive ModinvEnd (s : State) : State → Prop
  | argTooSmall : s.mm < 2 → ModinvEnd s (errorCompletion .arg s)
  | noInverse (g : MicRegs) (q : Option MxReq) : 2 ≤ s.mm → Nat.gcd (s.ma % s.mm) s.mm ≠ 1 →
      ModinvEnd s (errorCompletion .noinv (micWork s s.phi g q))
  | complete (g : MicRegs) (q : Option MxReq) : 2 ≤ s.mm → Nat.gcd (s.ma % s.mm) s.mm = 1 → g.t0 < s.mm →
      s.ma * g.t0 % s.mm = 1 → ModinvEnd s (completeCommand { micWork s s.phi g q with mr := g.t0 })

theorem internalStep_modinv {s : State} (hp : s.phase = .modinv) : internalStep s = modinvStep s := by
  rw [internalStep, hp]

/-- Past its check MODINV computes with MIC, which finds the divisor of MA and MM. -/
theorem OnMove.reach_modinvEnd_of_loaded {s : State} (h : OnMove .modinv s) (hm : 2 ≤ s.mm) (q : Option MxReq) :
    ∃ u, ModinvEnd s u ∧ Reach (micWork s s.phi (micLoad s.ma s.mm) q) (advanceTurn u) := by
  have hmodinv (g q) : internalStep (micWork s s.phi g q) = _ := internalStep_modinv h.phase
  obtain ⟨g, q', hreach, h1, hrel, hgcd⟩ := h.reach_micEnd nofun s.ma hm
    (fun g q h1 => (hmodinv g q).trans (modinvStep_pass rfl h1)) q
  have hlast := (h.atMicWork s.phi g q').reach_step
  rw [hmodinv] at hlast
  by_cases h0 : g.r0 = 1
  · obtain ⟨-, hlt, hinv⟩ := micRel_inverse hrel h0
    rw [modinvStep_complete rfl h1 h0] at hlast
    exact ⟨_, .complete g q' hm (hgcd ▸ h0) hlt hinv, hreach.trans hlast⟩
  · rw [modinvStep_noInverse rfl h1 h0] at hlast
    exact ⟨_, .noInverse g q' hm (hgcd ▸ h0), hreach.trans hlast⟩

/-- From its start MODINV reaches one of its ends. -/
theorem OnMove.reach_modinvEnd {s : State} (h : OnMove .modinv s) (hc : s.checked = false) :
    ∃ u, ModinvEnd s u ∧ Reach s (advanceTurn u) := by
  have hstep := internalStep_modinv h.phase
  by_cases harg : s.mm < 2
  · have hfirst := h.reach_step
    rw [hstep, modinvStep_argTooSmall hc harg] at hfirst
    exact ⟨_, .argTooSmall harg, hfirst⟩
  · have hm : 2 ≤ s.mm := by omega
    obtain ⟨q, hload⟩ := h.reach_next nofun (hstep.trans (modinvStep_load hc hm)) (h.atMicWork s.phi _ s.mxReq)
    obtain ⟨u, hu, hreach⟩ := h.reach_modinvEnd_of_loaded hm q
    exact ⟨u, hu, hload.trans hreach⟩

/-! ### What each end leaves -/

theorem ModinvEnd.completed {s u : State} (h : ModinvEnd s u) : Completed u := by
  cases h <;> exact ⟨rfl, rfl, rfl⟩

theorem ModinvEnd.frame {s u : State} (h : ModinvEnd s u) :
    (u.p, u.q, u.n, u.d, u.ma, u.mm) = (s.p, s.q, s.n, s.d, s.ma, s.mm) ∧
      (u.msgLen, u.blkCount, u.blockLen, u.doneIe, u.mem) = (s.msgLen, s.blkCount, s.blockLen, s.doneIe, s.mem) ∧
      u.status.keyValid = s.status.keyValid ∧ u.trace = s.trace := by
  cases h <;> exact ⟨rfl, rfl, rfl, rfl⟩

theorem ModinvEnd.arg {s u : State} (h : ModinvEnd s u) (harg : s.mm < 2) : u.status.errcode = .arg ∧ u.mr = s.mr := by
  cases h with
  | argTooSmall => exact ⟨rfl, rfl⟩
  | noInverse | complete => omega

theorem ModinvEnd.noinv {s u : State} (h : ModinvEnd s u) (hm : 2 ≤ s.mm) (hgcd : Nat.gcd (s.ma % s.mm) s.mm ≠ 1) :
    u.status.errcode = .noinv ∧ u.mr = s.mr := by
  cases h with
  | noInverse => exact ⟨rfl, rfl⟩
  | argTooSmall | complete => omega

theorem ModinvEnd.inverse {s u : State} (h : ModinvEnd s u) (hm : 2 ≤ s.mm) (hgcd : Nat.gcd (s.ma % s.mm) s.mm = 1) :
    u.status.errcode = s.status.errcode ∧ u.mr < s.mm ∧ s.ma * u.mr % s.mm = 1 := by
  cases h with
  | argTooSmall | noInverse => omega
  | complete g q _ _ hlt hinv => exact ⟨rfl, hlt, hinv⟩

/-- Settles O31: MODINV reaches one of its ends, and each end meets the clauses. -/
theorem modinvRunsToItsResult : Obligations.ModinvRunsToItsResult := by
  unfold Obligations.ModinvRunsToItsResult
  intro s hs hr ht hsched hp hc
  have hmx := (hs.block.port_free (.inl hc)).1
  obtain ⟨u, hu, k, hk⟩ := (OnMove.mk hr ht hsched hp hmx).reach_modinvEnd hc
  refine ⟨k, _, hk, ?_⟩
  simp only [advanceTurn_status, advanceTurn_phase, advanceTurn_n, advanceTurn_d, advanceTurn_blockLen, advanceTurn_p,
    advanceTurn_q, advanceTurn_ma, advanceTurn_mm, advanceTurn_mr, advanceTurn_msgLen, advanceTurn_blkCount,
    advanceTurn_doneIe, advanceTurn_mem, advanceTurn_trace]
  obtain ⟨hbusy, hdone, hidle⟩ := hu.completed
  exact ⟨hbusy, hdone, hidle, hu.arg, hu.noinv, hu.inverse, hu.frame⟩

end Sys2Proof.Machine
end

section
/-! ## ENCRYPT's internal steps (42_encrypt.md R160 to R163)

One equation per internal step, with the step's guards as hypotheses; the checks and the issued requests are read off them. -/

namespace Sys2Proof.Machine

/-! ### The checks (R161) -/

theorem encryptCheck_nokey {s : State} (hk : s.status.keyValid = false) : encryptCheck s = some .nokey := by
  rw [encryptCheck, if_pos hk]

theorem encryptCheck_capacity {s : State} (hk : s.status.keyValid = true)
    (h : s.cfg.maxlen < msgCount s ∨ s.cfg.maxblk < blockCount s) : encryptCheck s = some .capacity := by
  rw [encryptCheck, if_neg (by simp [hk])]
  split_ifs with hlen hblk
  · rfl
  · rfl
  · exact (h.elim hlen hblk).elim

theorem encryptCheck_pass {s : State} (hk : s.status.keyValid = true) (hlen : msgCount s ≤ s.cfg.maxlen)
    (hblk : blockCount s ≤ s.cfg.maxblk) : encryptCheck s = none := by
  rw [encryptCheck, if_neg (by simp [hk]), if_neg hlen.not_gt, if_neg hblk.not_gt]

/-! ### One equation per internal step -/

theorem encryptStep_fail {s : State} {code : ErrCode} (hc : s.checked = false) (h : encryptCheck s = some code) :
    encryptStep s = errorCompletion code s := by
  simp [encryptStep, hc, h]

theorem encryptStep_start {s : State} (hc : s.checked = false) (h : encryptCheck s = none) :
    encryptStep s = { s with checked := true, answers := [] } := by
  simp [encryptStep, hc, h]

theorem encryptStep_issue {s : State} (hc : s.checked = true) (hm : s.mxPending = false) (hb : s.blk < blockCount s) :
    encryptStep s = issueModExp (blockValue s s.blk) Config.e s.n s := by
  simp [encryptStep, hc, hm, hb]

theorem encryptStep_absorb {s : State} {c : Nat} (hc : s.checked = true) (hm : s.mxPending = true)
    (hr : s.mxRsp = some c) : encryptStep s = absorbModExp { s with answers := s.answers ++ [c] } := by
  simp [encryptStep, hc, hm, hr]

theorem encryptStep_complete {s : State} (hc : s.checked = true) (hm : s.mxPending = false)
    (hb : blockCount s ≤ s.blk) : encryptStep s = completeCommand (encryptCommit s) := by
  simp [encryptStep, hc, hm, hb.not_gt]

/-- DECRYPT's request for the current block (43_decrypt.md R183). -/
theorem decryptStep_issue {s : State} (hc : s.checked = true) (hm : s.mxPending = false) (hb : s.blk < cipherCount s) :
    decryptStep s = issueModExp (ctEntry s s.blk) s.d s.n s := by
  simp [decryptStep, hc, hm, hb]

/-- Settles O35: each outcome of `encryptCheck` with the step that it decides. -/
theorem encryptChecksInOrder : Obligations.EncryptChecksInOrder := by
  unfold Obligations.EncryptChecksInOrder
  intro s hrun hc
  have hexec : exec .encrypt s = .next (encryptStep s) := execEncrypt_running hrun
  refine ⟨fun hk => ?nokey, fun hk hcap => ?capacity, fun hk hlen hblk => ?pass⟩
  case nokey => rw [hexec, encryptStep_fail hc (encryptCheck_nokey hk)]; rfl
  case capacity => rw [hexec, encryptStep_fail hc (encryptCheck_capacity hk hcap)]; rfl
  case pass => rw [hexec, encryptStep_start hc (encryptCheck_pass hk hlen hblk)]

/-- Settles O36: the issue step of each command; the chunk's upper bound is (blk + 1) * bl. -/
theorem runningCommandIssuesItsBlockRequest : Obligations.RunningCommandIssuesItsBlockRequest := by
  unfold Obligations.RunningCommandIssuesItsBlockRequest
  intro s hc hm
  refine ⟨fun hrun hblk => ?encrypt, fun hrun hblk => ?decrypt⟩
  case encrypt =>
    have hexec : exec .encrypt s = .next (encryptStep s) := execEncrypt_running hrun
    refine ⟨blockValue s s.blk, by rw [Nat.succ_mul]; rfl, ?_⟩
    rw [hexec, encryptStep_issue hc hm hblk]
    rfl
  case decrypt =>
    have hexec : exec .decrypt s = .next (decryptStep s) := execDecrypt_running hrun
    rw [hexec, decryptStep_issue hc hm hblk]
    rfl

end Sys2Proof.Machine
end

section
/-! ## The chunks of the message (42_encrypt.md R162, R166, 00_scope.md R12, R13) -/

namespace Sys2Proof.Machine

/-! ### The bit order of sequences, renderings and message bits -/

/-- The first element of a sequence has the highest weight. -/
theorem bitsVal_cons (b : Bool) (l : List Bool) : bitsVal (b :: l) = b.toNat * 2 ^ l.length + bitsVal l := by
  induction l using List.reverseRecOn with
  | nil => simp [bitsVal]
  | append_singleton l c ih =>
    rw [← List.cons_append, bitsVal_append, ih, bitsVal_append, List.length_append, List.length_singleton, pow_succ]
    ring

theorem render_getElem? (v : Nat) {w t : Nat} (ht : t < w) : (render v w)[t]? = some (v.testBit (w - 1 - t)) := by
  simp [render, ht]

theorem bitSlice_getElem? (l : List Bool) {i j t : Nat} (ht : t < j - i) : (bitSlice l i j)[t]? = l[i + t]? := by
  simp [bitSlice, ht]

/-- Element j of the message bits is bit 7 - (j mod 8) of MSG(j div 8). -/
theorem msgBits_getElem? (s : State) {len j : Nat} (hj : j < 8 * len) :
    (msgBits s len)[j]? = some ((msgByte s (j / 8)).getLsbD (7 - j % 8)) := by
  have hmod : j % 8 < 8 := Nat.mod_lt _ (by decide)
  calc (msgBits s len)[j]? = (msgBits s len)[8 * (j / 8) + j % 8]? := by rw [Nat.div_add_mod]
    _ = (bitSlice (msgBits s len) (8 * (j / 8)) (8 * (j / 8) + 8))[j % 8]? := (bitSlice_getElem? _ (by omega)).symm
    _ = (render (msgByte s (j / 8)).toNat 8)[j % 8]? := by rw [msgBits_byte s len _ (by omega)]
    _ = some ((msgByte s (j / 8)).getLsbD (7 - j % 8)) := by rw [render_getElem? _ hmod, BitVec.testBit_toNat]

/-! ### The chunks, one after another -/

theorem bitSlice_length (l : List Bool) (i j : Nat) : (bitSlice l i j).length = min (j - i) (l.length - i) := by
  simp [bitSlice]

/-- The first k chunks of b elements, the last one cut at the end, are the first k * b elements. -/
theorem flatMap_bitSlice (l : List Bool) (b k : Nat) :
    ((List.range k).flatMap fun i => bitSlice l (i * b) (min (i * b + b) l.length)) = l.take (k * b) := by
  induction k with
  | zero => simp
  | succ k ih =>
    have hcut : bitSlice l (k * b) (min (k * b + b) l.length) = (l.drop (k * b)).take b := by
      rw [bitSlice, List.take_eq_take_iff, List.length_drop]
      omega
    rw [List.range_succ, List.flatMap_append, ih, Nat.succ_mul, List.take_add]
    simp [hcut]

/-- A block value rendered at its chunk's width is the chunk. -/
theorem render_blockValue (s : State) (i : Nat) :
    render (blockValue s i) (min s.blockLen.toNat (8 * msgCount s - i * s.blockLen.toNat)) =
      bitSlice (msgBits s (msgCount s)) (i * s.blockLen.toNat)
        (min (i * s.blockLen.toNat + s.blockLen.toNat) (8 * msgCount s)) := by
  have hlen : (bitSlice (msgBits s (msgCount s)) (i * s.blockLen.toNat)
      (min (i * s.blockLen.toNat + s.blockLen.toNat) (8 * msgCount s))).length =
        min s.blockLen.toNat (8 * msgCount s - i * s.blockLen.toNat) := by
    rw [bitSlice_length, msgBits_length]
    omega
  rw [← hlen]
  exact render_bitsVal _

/-- The chunks of all blocks are the message bits. -/
theorem flatMap_render_blockValue {s : State} (hbl : 1 ≤ s.blockLen.toNat) :
    ((List.range (blockCount s)).flatMap fun i =>
      render (blockValue s i) (min s.blockLen.toNat (8 * msgCount s - i * s.blockLen.toNat))) =
      msgBits s (msgCount s) := by
  have hcover : 8 * msgCount s ≤ blockCount s * s.blockLen.toNat := (ceilDiv_bounds _ hbl).1
  have hchunks := flatMap_bitSlice (msgBits s (msgCount s)) s.blockLen.toNat (blockCount s)
  rw [msgBits_length] at hchunks
  simp only [render_blockValue, hchunks]
  exact List.take_of_length_le (by rwa [msgBits_length])

/-- Settles O39: the chunks joined are the message bits, whose order the element lemmas give. -/
theorem segmentsCoverTheMessage : Obligations.SegmentsCoverTheMessage := by
  unfold Obligations.SegmentsCoverTheMessage
  exact ⟨fun _ => flatMap_render_blockValue, fun s _ _ => msgBits_getElem? s, bitsVal_cons, fun v _ _ => render_getElem? v⟩

/-! ### The bound on the values (R166) -/

theorem cipherValue_eq (s : State) (i : Nat) : cipherValue s i = blockValue s i ^ 65537 % s.n := by
  rw [cipherValue, powMod_eq, Config.e]

theorem cipherValue_lt_modulus {s : State} (h : KeyInv s) (hk : s.status.keyValid = true) (i : Nat) :
    cipherValue s i < s.n := by
  have hn : 4 ≤ s.n := (key_facts h hk).1
  rw [cipherValue_eq]
  exact Nat.mod_lt _ (by omega)

/-- Settles O40: a block has fewer bits than the modulus, and a remainder is below it. -/
theorem blockValueIsBelowTheModulus : Obligations.BlockValueIsBelowTheModulus := by
  unfold Obligations.BlockValueIsBelowTheModulus
  intro s i hs hk
  exact ⟨blockValue_lt_modulus hs.key hk i, cipherValue_eq s i ▸ cipherValue_lt_modulus hs.key hk i⟩

end Sys2Proof.Machine
end

section
/-! ## ENCRYPT's completion (42_encrypt.md R164, R165, R168) -/

namespace Sys2Proof.Machine

/-- ENCRYPT has an answer for every block, and its next internal step completes it. -/
structure EncryptReady (s : State) : Prop where
  inv     : MachineInv s
  phase   : s.phase = .encrypt
  checked : s.checked = true
  mxFree  : s.mxPending = false
  blk     : s.blk = blockCount s

/-- What ENCRYPT's completion leaves. -/
def encryptResult (s : State) : State := completeCommand (encryptCommit s)

theorem EncryptReady.step {s : State} (h : EncryptReady s) : encryptStep s = encryptResult s :=
  encryptStep_complete h.checked h.mxFree h.blk.ge

theorem EncryptReady.exec {s : State} (h : EncryptReady s) (ht : s.turn = .controller) :
    exec .encrypt s = .next (encryptResult s) := by
  rw [← h.step]
  exact execEncrypt_running ((running_iff _ _).2 ⟨ht, h.phase⟩)

theorem EncryptReady.check {s : State} (h : EncryptReady s) : encryptCheck s = none :=
  (h.inv.block.encrypt h.phase h.checked).1

theorem EncryptReady.answers {s : State} (h : EncryptReady s) :
    s.answers = (List.range (blockCount s)).map (cipherValue s) := by
  obtain ⟨-, -, hans, -⟩ := h.inv.block.encrypt h.phase h.checked
  rw [hans, h.blk]

/-- BLK_COUNT holds k, which is at most MAXBLK. -/
theorem EncryptReady.blkCount {s : State} (h : EncryptReady s) : (encryptResult s).blkCount.toNat = blockCount s := by
  obtain ⟨-, -, hk⟩ := encryptCheck_none h.check
  obtain ⟨-, -, -, -, -, -, hmax⟩ := legal_bounds h.inv.legal
  exact Nat.mod_eq_of_lt (by omega)

/-- A value of NW bits fits into the bytes of a CT_BUF entry. -/
theorem two_pow_nw {c : Config} (h : c.Legal) : 2 ^ c.nw = 256 ^ (4 * c.wpn) := by
  obtain ⟨-, -, -, -, hnw, -⟩ := legal_bounds h
  rw [hnw, show (256 : Nat) = 2 ^ 8 from rfl, ← pow_mul, ← Nat.mul_assoc]

/-- CT(i) holds the ciphertext value of block i. -/
theorem EncryptReady.ctEntry {s : State} (h : EncryptReady s) {i : Nat} (hi : i < blockCount s) :
    ctEntry (encryptResult s) i = cipherValue s i := by
  obtain ⟨-, -, hn, -⟩ := h.inv.width
  have hlt : cipherValue s i < s.n := cipherValue_lt_modulus h.inv.key (encryptCheck_none h.check).1 i
  have hlen : i < s.answers.length := by simpa [h.answers] using hi
  have hvalue : s.answers[i] = cipherValue s i := by simp [h.answers]
  have hfits : s.answers[i] < 256 ^ (4 * s.cfg.wpn) := by
    rw [hvalue, ← two_pow_nw h.inv.legal]
    exact hlt.trans hn
  rw [← hvalue]
  exact ctEntry_memSetEntries (t := encryptResult s) s.answers rfl rfl i hlen hfits

theorem EncryptReady.byteAt_outside {s : State} (h : EncryptReady s) {x : Nat}
    (hx : x < ctAddr s.cfg 0 ∨ ctAddr s.cfg (blockCount s) ≤ x) : byteAt (encryptResult s) x = byteAt s x :=
  (EncryptMove.complete h.checked h.mxFree h.blk.ge).byteAt_outside h.phase h.inv.block hx

/-- Settles O38: the completion of a ready ENCRYPT, entry by entry. -/
theorem encryptCommitsTheCiphertext : Obligations.EncryptCommitsTheCiphertext := by
  unfold Obligations.EncryptCommitsTheCiphertext
  intro s hs hrun hc hm hb
  obtain ⟨ht, hp⟩ := (running_iff _ _).1 hrun
  have hready : EncryptReady s := ⟨hs, hp, hc, hm, hb⟩
  exact ⟨_, hready.exec ht, fun i hi => (hready.ctEntry hi).trans (cipherValue_eq s i), fun _ => hready.byteAt_outside,
    hready.blkCount, rfl⟩

/-- Settles O42: the committed values are the ciphertext values, which the key, MSG_LEN and the message bytes determine. -/
theorem encryptDependsOnlyOnKeyAndMessage : Obligations.EncryptDependsOnlyOnKeyAndMessage := by
  unfold Obligations.EncryptDependsOnlyOnKeyAndMessage
  intro s s' hs hs' ht ht' hp hp' hc hc' hm hm' hb hb' hn hbl hlen hmsg
  have hready : EncryptReady s := ⟨hs, hp, hc, hm, hb⟩
  have hready' : EncryptReady s' := ⟨hs', hp', hc', hm', hb'⟩
  have hcount : blockCount s = blockCount s' := blockCount_congr hlen hbl
  have hvalue (i : Nat) : cipherValue s i = cipherValue s' i := by
    rw [cipherValue_eq, cipherValue_eq, hn, blockValue_congr hlen hbl fun j hj => hmsg j (hlen ▸ hj)]
  refine ⟨_, _, hready.exec ht, hready'.exec ht', congrArg (BitVec.ofNat 32) hcount, fun i hi => ?_⟩
  rw [hready.blkCount] at hi
  rw [hready.ctEntry hi, hready'.ctEntry (hcount ▸ hi), hvalue]

end Sys2Proof.Machine
end

section
/-! ## A block command run under the fair schedule (log entry 4)

Each block is one request, its answer by a live engine, and the internal step that absorbs it; then the controller has the move
again. -/

namespace Sys2Proof.Machine

/-- The machine that has issued a request and got the answer, which is still on the port. -/
def answered (r : MxReq) (s : State) : State :=
  { issueModExp r.base r.exp r.mod s with mxReq := none, mxRsp := some (powMod r.base r.exp r.mod) }

/-- A live engine answers an issued request, and the controller gets the move back. -/
theorem OnMove.reach_answered {ph : Phase} {s : State} {r : MxReq} (h : OnMove ph s) (hph : ph ≠ .idle)
    (hlive : s.mxLive = true) (hissue : internalStep s = issueModExp r.base r.exp r.mod s) : Reach s (answered r s) := by
  have hengine : advanceTurn (issueModExp r.base r.exp r.mod s) =
      { issueModExp r.base r.exp r.mod s with turn := .engine } := by
    rw [advanceTurn_fair (by simpa using h.sched)]
    simp [fairTurn, h.inReset, hlive]
  have hanswer : engineAnswer { issueModExp r.base r.exp r.mod s with turn := .engine } =
      { answered r s with turn := .engine } := by
    simp [engineAnswer, answered, hlive]
  have hback : advanceTurn { answered r s with turn := .engine } = answered r s := by
    rw [advanceTurn_fair (by simpa [answered] using h.sched)]
    simp [fairTurn, answered, holds, issueModExp, h.inReset, h.phase, hph, h.turn]
  refine .head (step_controller h.turn h.inReset) ?_
  rw [hissue, hengine]
  refine .head (step_engine rfl) ?_
  rw [hanswer, hback]
  exact .refl _

/-- One block: its request is issued and answered, and the answer absorbed. -/
theorem OnMove.reach_block {ph : Phase} {s u : State} {r : MxReq} (h : OnMove ph s) (hph : ph ≠ .idle)
    (hlive : s.mxLive = true) (hissue : internalStep s = issueModExp r.base r.exp r.mod s)
    (habsorb : internalStep (answered r s) = u) (hu : OnMove ph u) (hreq : u.mxReq = none) : Reach s u := by
  have hstep : step (answered r s) = .next (advanceTurn u) := habsorb ▸ step_controller h.turn h.inReset
  obtain ⟨q, hsettle, hq⟩ := settle u hu.sched hu.inReset (hu.phase ▸ hph) hu.mxFree
  rw [hq hreq, ← hu.turn, ← hreq] at hsettle
  exact (h.reach_answered hph hlive hissue).trans (.head hstep hsettle)

end Sys2Proof.Machine
end

section
/-! ## ENCRYPT from its start to its end (42_encrypt.md R160) -/

namespace Sys2Proof.Machine

/-- The request of ENCRYPT's block i (R163). -/
def encryptRequest (s : State) (i : Nat) : MxReq := { base := blockValue s i, exp := Config.e, mod := s.n }

/-- The machine after i blocks of ENCRYPT, started in s, with SEG and the engine's stale request at given values. -/
def encryptWork (s : State) (i g : Nat) (q : Option MxReq) : State :=
  { s with
    checked := true
    blk := i
    answers := (List.range i).map (cipherValue s)
    seg := g
    mxPending := false
    mxReq := q
    mxRsp := none
    trace := ((List.range i).map fun i => Event.mxIssue (encryptRequest s i)).reverse ++ s.trace }

theorem OnMove.atEncryptWork {ph : Phase} {s : State} (h : OnMove ph s) (i g : Nat) (q : Option MxReq) :
    OnMove ph (encryptWork s i g q) :=
  ⟨h.inReset, h.turn, h.sched, h.phase, rfl⟩

theorem internalStep_encrypt {s : State} (hp : s.phase = .encrypt) : internalStep s = encryptStep s := by
  rw [internalStep, hp]

/-- Absorbing the answer to block i's request completes the block. -/
theorem internalStep_answered_encryptWork {s : State} (hp : s.phase = .encrypt) (i g : Nat) (q : Option MxReq) :
    internalStep (answered (encryptRequest s i) (encryptWork s i g q)) = encryptWork s (i + 1) (blockValue s i) none := by
  rw [internalStep_encrypt, encryptStep_absorb rfl rfl rfl]
  · simp [absorbModExp, answered, issueModExp, encryptWork, encryptRequest, cipherValue, List.range_succ]
  · exact hp

/-- Block after block ENCRYPT comes to any i up to k. -/
theorem OnMove.reach_encryptWork {s : State} (h : OnMove .encrypt s) (hlive : s.mxLive = true) (g : Nat)
    (q : Option MxReq) {i : Nat} (hi : i ≤ blockCount s) :
    ∃ g' q', Reach (encryptWork s 0 g q) (encryptWork s i g' q') := by
  induction i with
  | zero => exact ⟨g, q, .refl _⟩
  | succ i ih =>
    obtain ⟨g', q', hreach⟩ := ih (Nat.le_of_succ_le hi)
    have hwork := h.atEncryptWork i g' q'
    have hissue := (internalStep_encrypt hwork.phase).trans (encryptStep_issue rfl rfl hi)
    have habsorb := internalStep_answered_encryptWork h.phase i g' q'
    have hblock := hwork.reach_block nofun hlive hissue habsorb (h.atEncryptWork (i + 1) _ none) rfl
    exact ⟨blockValue s i, none, hreach.trans hblock⟩

/-- When its checks pass, ENCRYPT comes to the point where an answer for every block is there. -/
theorem OnMove.reach_encryptReady {s : State} (h : OnMove .encrypt s) (hs : MachineInv s) (hlive : s.mxLive = true)
    (hc : s.checked = false) (hcheck : encryptCheck s = none) :
    ∃ g q, Reach s (encryptWork s (blockCount s) g q) ∧ EncryptReady (encryptWork s (blockCount s) g q) := by
  have hblk : s.blk = 0 := hs.block.blk_zero (by simp [h.phase]) hc
  have hrsp : s.mxRsp = none := hs.block.rsp_none h.mxFree
  have hstart : internalStep s = encryptWork s 0 s.seg s.mxReq := by
    rw [internalStep_encrypt h.phase, encryptStep_start hc hcheck]
    simp [encryptWork, hblk, hrsp, h.mxFree]
  obtain ⟨q, hfirst⟩ := h.reach_next nofun hstart (h.atEncryptWork 0 _ _)
  obtain ⟨g, q', hblocks⟩ := h.reach_encryptWork hlive s.seg q (i := blockCount s) le_rfl
  have hreach := hfirst.trans hblocks
  exact ⟨g, q', hreach, hreach.keeps stepKeepsInv hs, h.phase, rfl, rfl, rfl⟩

theorem byteAt_advanceTurn (s : State) (x : Nat) : byteAt (advanceTurn s) x = byteAt s x :=
  byteAt_congr (advanceTurn_mem s) (advanceTurn_epoch s) x

theorem ctEntry_advanceTurn (s : State) (i : Nat) : ctEntry (advanceTurn s) i = ctEntry s i :=
  ctEntry_congr (advanceTurn_mem s) (advanceTurn_epoch s) (advanceTurn_cfg s) i

/-- Settles O41: ENCRYPT reaches the state that is ready to complete, and completes. -/
theorem encryptRunsToItsResult : Obligations.EncryptRunsToItsResult := by
  unfold Obligations.EncryptRunsToItsResult
  intro s hs hr ht hsched hlive hp hc hcheck
  have hmove : OnMove .encrypt s := ⟨hr, ht, hsched, hp, (hs.block.port_free (.inl hc)).1⟩
  obtain ⟨g, q, hreach, hready⟩ := hmove.reach_encryptReady hs hlive hc hcheck
  have hlast := (hmove.atEncryptWork (blockCount s) g q).reach_step
  rw [internalStep_encrypt hready.phase, hready.step] at hlast
  obtain ⟨k, hk⟩ := hreach.trans hlast
  refine ⟨k, _, hk, ?_⟩
  simp only [advanceTurn_status, advanceTurn_phase, advanceTurn_blkCount, ctEntry_advanceTurn, byteAt_advanceTurn,
    advanceTurn_trace, advanceTurn_p, advanceTurn_q, advanceTurn_n, advanceTurn_d, advanceTurn_blockLen,
    advanceTurn_msgLen, advanceTurn_ma, advanceTurn_mm, advanceTurn_mr, advanceTurn_doneIe]
  exact ⟨rfl, rfl, hready.blkCount, fun i hi => (hready.ctEntry hi).trans (cipherValue_eq s i),
    fun _ => hready.byteAt_outside, rfl, rfl⟩

end Sys2Proof.Machine
end

section
/-! ## DECRYPT's internal steps (43_decrypt.md R180 to R186)

One equation per internal step, with the step's guards as hypotheses; the issue step's stands with ENCRYPT's. -/

namespace Sys2Proof.Machine

/-! ### The checks (R181, R182) -/

theorem cipherOutOfRange_iff (s : State) : cipherOutOfRange s = true ↔ ∃ i, i < cipherCount s ∧ s.n ≤ ctEntry s i := by
  simp [cipherOutOfRange]

theorem decryptCheck_pass {s : State} (hk : s.status.keyValid = true) (hlen : msgCount s ≤ s.cfg.maxlen)
    (hmax : cipherCount s ≤ s.cfg.maxblk) (hcount : cipherCount s = blockCount s)
    (hrange : ∀ i, i < cipherCount s → ctEntry s i < s.n) : decryptCheck s = none := by
  have hin : ¬cipherOutOfRange s = true := by
    rw [cipherOutOfRange_iff]
    rintro ⟨i, hi, hge⟩
    exact (hrange i hi).not_ge hge
  rw [decryptCheck, if_neg (by simp [hk]), if_neg hlen.not_gt, if_neg hmax.not_gt, if_neg (not_not.2 hcount), if_neg hin]

/-! ### One equation per internal step -/

theorem decryptStep_fail {s : State} {code : ErrCode} (hc : s.checked = false) (h : decryptCheck s = some code) :
    decryptStep s = errorCompletion code s := by
  simp [decryptStep, hc, h]

theorem decryptStep_start {s : State} (hc : s.checked = false) (h : decryptCheck s = none) :
    decryptStep s = { s with checked := true, acc := [], tp := false } := by
  simp [decryptStep, hc, h]

theorem decryptStep_absorb {s : State} {pv : Nat} (hc : s.checked = true) (hm : s.mxPending = true)
    (hr : s.mxRsp = some pv) : decryptStep s = absorbModExp (decryptAppend pv s) := by
  simp [decryptStep, hc, hm, hr]

theorem decryptStep_complete {s : State} (hc : s.checked = true) (hm : s.mxPending = false)
    (hb : cipherCount s ≤ s.blk) : decryptStep s = completeCommand (decryptCommit s) := by
  simp [decryptStep, hc, hm, hb.not_gt]

/-- Settles O43: the list of checks is `decryptCheck`, and each outcome decides its step. -/
theorem decryptChecksInOrder : Obligations.DecryptChecksInOrder := by
  unfold Obligations.DecryptChecksInOrder
  intro s code hrun hc hcode
  have hexec : exec .decrypt s = .next (decryptStep s) := execDecrypt_running hrun
  have hcheck : decryptCheck s = code := by
    rw [hcode, decryptCheck]
    simp only [cipherOutOfRange_iff]
    rfl
  refine ⟨fun c h => ?fail, fun h => ?pass⟩
  case fail =>
    rw [hexec, decryptStep_fail hc (hcheck.trans h)]
    rfl
  case pass => rw [hexec, decryptStep_start hc (hcheck.trans h)]

/-! ### Rendering a plain value (R184 to R186) -/

/-- A rendering of w bits depends on the w low bits alone. -/
theorem render_mod_two_pow (v w : Nat) : render (v % 2 ^ w) w = render v w := by
  have h := render_bitsVal (render v w)
  rwa [bitsVal_render, render_length] at h

/-- Settles O44: the absorbed value is rendered at the current width, its low bits alone, and TP notes whether it fitted. -/
theorem decryptAppendsTheRendering : Obligations.DecryptAppendsTheRendering := by
  unfold Obligations.DecryptAppendsTheRendering
  intro s pv w hrun hc hm hr hw
  have hexec : exec .decrypt s = .next (decryptStep s) := execDecrypt_running hrun
  have hwidth : currentWidth s = w := hw.symm
  have htp : (s.tp || decide (2 ^ w ≤ pv)) = if 2 ^ w ≤ pv then true else s.tp := by
    split_ifs with hfit <;> simp [hfit]
  rw [hexec, decryptStep_absorb hc hm hr, render_mod_two_pow, ← htp, ← hwidth]
  rfl

end Sys2Proof.Machine
end

section
/-! ## DECRYPT's completion (43_decrypt.md R185, R187) -/

namespace Sys2Proof.Machine

/-- DECRYPT has rendered every block, and its next internal step completes it. -/
structure DecryptReady (s : State) : Prop where
  inv     : MachineInv s
  phase   : s.phase = .decrypt
  checked : s.checked = true
  mxFree  : s.mxPending = false
  blk     : s.blk = cipherCount s

/-- What DECRYPT's completion leaves. -/
def decryptResult (s : State) : State := completeCommand (decryptCommit s)

theorem DecryptReady.step {s : State} (h : DecryptReady s) : decryptStep s = decryptResult s :=
  decryptStep_complete h.checked h.mxFree h.blk.ge

/-- The widths of all blocks of a checked DECRYPT add up to the message bits. -/
theorem reassembled_length_all {s : State} (hk : KeyInv s) (hcheck : decryptCheck s = none) :
    (reassembled s (cipherCount s)).1.length = 8 * msgCount s := by
  obtain ⟨hvalid, -, -, hcount, -⟩ := decryptCheck_none hcheck
  obtain ⟨-, -, hbl⟩ := key_facts hk hvalid
  have hbl1 : 1 ≤ s.blockLen.toNat := by omega
  have hcover : 8 * msgCount s ≤ blockCount s * s.blockLen.toNat := (ceilDiv_bounds _ hbl1).1
  rw [reassembled_length hbl1 hcount _ le_rfl, hcount]
  exact min_eq_right hcover

theorem DecryptReady.acc_length {s : State} (h : DecryptReady s) : s.acc.length = 8 * msgCount s := by
  obtain ⟨hcheck, -, hacc, -⟩ := h.inv.block.decrypt h.phase h.checked
  have hfst : s.acc = (reassembled s (cipherCount s)).1 := h.blk ▸ congrArg Prod.fst hacc
  rw [hfst]
  exact reassembled_length_all h.inv.key hcheck

/-- MSG(j) holds byte j of ACC. -/
theorem msgByte_decryptResult (s : State) {j : Nat} (hj : j < msgCount s) :
    (msgByte (decryptResult s) j).toNat = bitsVal (bitSlice s.acc (8 * j) (8 * j + 8)) := by
  have hbyte : msgByte (decryptResult s) j =
      byteAt { s with mem := memSetBytes s.mem (msgAddr 0) (bitsBytes s.acc (msgCount s)) } (msgAddr 0 + j) := rfl
  have hin : msgAddr 0 ≤ msgAddr 0 + j ∧ msgAddr 0 + j < msgAddr 0 + (bitsBytes s.acc (msgCount s)).length := by
    rw [bitsBytes_length]
    omega
  have hlen : (bitSlice s.acc (8 * j) (8 * j + 8)).length ≤ 8 := (bitSlice_length_le _ _ _).trans (by omega)
  have hlt : bitsVal (bitSlice s.acc (8 * j) (8 * j + 8)) < 2 ^ 8 :=
    (bitsVal_lt _).trans_le (Nat.pow_le_pow_right (by decide) hlen)
  rw [hbyte, byteAt_memSetBytes, dif_pos hin]
  simpa [bitsBytes] using hlt

theorem DecryptReady.byteAt_outside {s : State} (h : DecryptReady s) {x : Nat}
    (hx : x < msgAddr 0 ∨ msgAddr (msgCount s) ≤ x) : byteAt (decryptResult s) x = byteAt s x :=
  (DecryptMove.complete h.checked h.mxFree h.blk.ge).byteAt_outside hx

/-- Settles O45: the completion of a ready DECRYPT, byte by byte. -/
theorem decryptCommitsTheMessage : Obligations.DecryptCommitsTheMessage := by
  unfold Obligations.DecryptCommitsTheMessage
  intro s hs hrun hc hm hb
  obtain ⟨-, hp⟩ := (running_iff _ _).1 hrun
  have hready : DecryptReady s := ⟨hs, hp, hc, hm, hb⟩
  have hexec : exec .decrypt s = .next (decryptResult s) := hready.step ▸ execDecrypt_running hrun
  exact ⟨_, hexec, fun j => msgByte_decryptResult s, fun _ => hready.byteAt_outside, hready.acc_length, rfl⟩

end Sys2Proof.Machine
end

section
/-! ## DECRYPT from its start to its end (43_decrypt.md R180, R183) -/

namespace Sys2Proof.Machine

/-- The request of DECRYPT's block i (R183). -/
def decryptRequest (s : State) (i : Nat) : MxReq := { base := ctEntry s i, exp := s.d, mod := s.n }

/-- The machine after i blocks of DECRYPT, started in s, with SEG and the engine's stale request at given values. -/
def decryptWork (s : State) (i g : Nat) (q : Option MxReq) : State :=
  { s with
    checked := true
    blk := i
    acc := (reassembled s i).1
    tp := (reassembled s i).2
    seg := g
    mxPending := false
    mxReq := q
    mxRsp := none
    trace := ((List.range i).map fun i => Event.mxIssue (decryptRequest s i)).reverse ++ s.trace }

theorem OnMove.atDecryptWork {ph : Phase} {s : State} (h : OnMove ph s) (i g : Nat) (q : Option MxReq) :
    OnMove ph (decryptWork s i g q) :=
  ⟨h.inReset, h.turn, h.sched, h.phase, rfl⟩

theorem internalStep_decrypt {s : State} (hp : s.phase = .decrypt) : internalStep s = decryptStep s := by
  rw [internalStep, hp]

/-- Block i's request is the one that the internal step issues. -/
theorem internalStep_issue_decryptWork {s : State} (hp : s.phase = .decrypt) {i : Nat} (hi : i < cipherCount s) (g : Nat)
    (q : Option MxReq) :
    internalStep (decryptWork s i g q) = issueModExp (ctEntry s i) s.d s.n (decryptWork s i g q) := by
  have hphase : (decryptWork s i g q).phase = .decrypt := hp
  have hentry : ctEntry (decryptWork s i g q) i = ctEntry s i :=
    ctEntry_congr (s := s) (t := decryptWork s i g q) rfl rfl rfl i
  have hissue := decryptStep_issue (s := decryptWork s i g q) rfl rfl hi
  rw [internalStep_decrypt hphase, hissue, ← hentry]
  rfl

/-- Absorbing the answer to block i's request renders the block. -/
theorem internalStep_answered_decryptWork {s : State} (hp : s.phase = .decrypt) (i g : Nat) (q : Option MxReq) :
    internalStep (answered (decryptRequest s i) (decryptWork s i g q)) = decryptWork s (i + 1) (ctEntry s i) none := by
  rw [internalStep_decrypt, decryptStep_absorb rfl rfl rfl]
  · simp [absorbModExp, decryptAppend, currentWidth, answered, issueModExp, decryptWork, decryptRequest, reassembled,
      plainValue, msgCount, cipherCount, List.range_succ]
  · exact hp

/-- Block after block DECRYPT comes to any i up to k. -/
theorem OnMove.reach_decryptWork {s : State} (h : OnMove .decrypt s) (hlive : s.mxLive = true) (g : Nat)
    (q : Option MxReq) {i : Nat} (hi : i ≤ cipherCount s) :
    ∃ g' q', Reach (decryptWork s 0 g q) (decryptWork s i g' q') := by
  induction i with
  | zero => exact ⟨g, q, .refl _⟩
  | succ i ih =>
    obtain ⟨g', q', hreach⟩ := ih (Nat.le_of_succ_le hi)
    have hwork := h.atDecryptWork i g' q'
    have hissue := internalStep_issue_decryptWork h.phase hi g' q'
    have habsorb := internalStep_answered_decryptWork h.phase i g' q'
    have hblock := hwork.reach_block nofun hlive hissue habsorb (h.atDecryptWork (i + 1) _ none) rfl
    exact ⟨ctEntry s i, none, hreach.trans hblock⟩

/-- When its checks pass, DECRYPT comes to the point where every block is rendered. -/
theorem OnMove.reach_decryptReady {s : State} (h : OnMove .decrypt s) (hs : MachineInv s) (hlive : s.mxLive = true)
    (hc : s.checked = false) (hcheck : decryptCheck s = none) :
    ∃ g q, Reach s (decryptWork s (cipherCount s) g q) ∧ DecryptReady (decryptWork s (cipherCount s) g q) := by
  have hblk : s.blk = 0 := hs.block.blk_zero (by simp [h.phase]) hc
  have hrsp : s.mxRsp = none := hs.block.rsp_none h.mxFree
  have hstart : internalStep s = decryptWork s 0 s.seg s.mxReq := by
    rw [internalStep_decrypt h.phase, decryptStep_start hc hcheck]
    simp [decryptWork, reassembled, hblk, hrsp, h.mxFree]
  obtain ⟨q, hfirst⟩ := h.reach_next nofun hstart (h.atDecryptWork 0 _ _)
  obtain ⟨g, q', hblocks⟩ := h.reach_decryptWork hlive s.seg q (i := cipherCount s) le_rfl
  have hreach := hfirst.trans hblocks
  exact ⟨g, q', hreach, hreach.keeps stepKeepsInv hs, h.phase, rfl, rfl, rfl⟩

theorem msgByte_advanceTurn (s : State) (i : Nat) : msgByte (advanceTurn s) i = msgByte s i := byteAt_advanceTurn s _

/-- Settles O46: DECRYPT reaches the state that is ready to complete, and completes. -/
theorem decryptRunsToItsResult : Obligations.DecryptRunsToItsResult := by
  unfold Obligations.DecryptRunsToItsResult
  intro s hs hr ht hsched hlive hp hc hcheck
  have hmove : OnMove .decrypt s := ⟨hr, ht, hsched, hp, (hs.block.port_free (.inl hc)).1⟩
  obtain ⟨g, q, hreach, hready⟩ := hmove.reach_decryptReady hs hlive hc hcheck
  have hlast := (hmove.atDecryptWork (cipherCount s) g q).reach_step
  rw [internalStep_decrypt hready.phase, hready.step] at hlast
  obtain ⟨k, hk⟩ := hreach.trans hlast
  refine ⟨k, _, hk, ?_⟩
  simp only [advanceTurn_status, advanceTurn_phase, advanceTurn_blkCount, msgByte_advanceTurn, byteAt_advanceTurn,
    advanceTurn_trace, advanceTurn_p, advanceTurn_q, advanceTurn_n, advanceTurn_d, advanceTurn_blockLen,
    advanceTurn_msgLen, advanceTurn_ma, advanceTurn_mm, advanceTurn_mr, advanceTurn_doneIe]
  exact ⟨rfl, rfl, fun _ => msgByte_decryptResult (decryptWork s (cipherCount s) g q),
    fun _ => hready.byteAt_outside, rfl, rfl⟩

end Sys2Proof.Machine
end

section
/-! ## A machine that holds the ciphertext of a message (43_decrypt.md R188)

What DECRYPT needs of ENCRYPT's end: the key, MSG_LEN and the entries of CT_BUF, but not the message bytes. -/

namespace Sys2Proof.Machine

/-- x has the key and MSG_LEN of s, and CT(0..k) and BLK_COUNT as ENCRYPT of s writes them. -/
structure HoldsCiphertext (s x : State) : Prop where
  cfg      : x.cfg = s.cfg
  keyValid : x.status.keyValid = s.status.keyValid
  msgLen   : x.msgLen = s.msgLen
  blockLen : x.blockLen = s.blockLen
  n        : x.n = s.n
  d        : x.d = s.d
  count    : cipherCount x = blockCount s
  entry    : ∀ i, i < blockCount s → ctEntry x i = cipherValue s i

/-- The ciphertext is held whatever else changes. -/
theorem HoldsCiphertext.frame {s x y : State} (h : HoldsCiphertext s x) (hi : blockInputs y = blockInputs x) :
    HoldsCiphertext s y := by
  simp only [blockInputs, Prod.mk.injEq] at hi
  obtain ⟨hc, hk, hl, hbc, hb, hn, hd, hm, he⟩ := hi
  have hcount : cipherCount y = cipherCount x := by rw [cipherCount, cipherCount, hbc]
  exact ⟨hc.trans h.cfg, hk.trans h.keyValid, hl.trans h.msgLen, hb.trans h.blockLen, hn.trans h.n, hd.trans h.d,
    hcount.trans h.count, fun i hlt => (ctEntry_congr hm he hc i).trans (h.entry i hlt)⟩

/-- ENCRYPT's completion leaves the ciphertext of the machine it was started in. -/
theorem EncryptReady.holdsCiphertext {s : State} {g : Nat} {q : Option MxReq}
    (h : EncryptReady (encryptWork s (blockCount s) g q)) :
    HoldsCiphertext s (encryptResult (encryptWork s (blockCount s) g q)) :=
  ⟨rfl, rfl, rfl, rfl, rfl, rfl, h.blkCount, fun _ hi => h.ctEntry hi⟩

/-- The machine with bytes written over MSG_BUF from MSG(0) on. -/
def overwriteMsg (bs : List Byte) (s : State) : State := { s with mem := memSetBytes s.mem (msgAddr 0) bs }

/-- MSG_BUF ends below CT_BUF (20_memory.md R61), so its bytes are in no entry. -/
theorem ctEntry_overwriteMsg {s : State} {bs : List Byte} (hl : s.cfg.Legal) (hlen : bs.length ≤ s.cfg.maxlen) (i : Nat) :
    ctEntry (overwriteMsg bs s) i = ctEntry s i := by
  obtain ⟨-, -, -, -, -, hmax, -⟩ := hl
  refine congrArg bytesVal (bytesAt_congr _ _ fun x hx _ => ?_)
  have hout : ¬(msgAddr 0 ≤ x ∧ x < msgAddr 0 + bs.length) := by
    have hlow : 0x10000 ≤ x := (Nat.le_add_right _ _).trans hx
    rw [msgAddr]
    omega
  rw [overwriteMsg, byteAt_memSetBytes, dif_neg hout]

theorem HoldsCiphertext.overwriteMsg {s x : State} {bs : List Byte} (h : HoldsCiphertext s x) (hl : x.cfg.Legal)
    (hlen : bs.length ≤ x.cfg.maxlen) : HoldsCiphertext s (overwriteMsg bs x) :=
  ⟨h.cfg, h.keyValid, h.msgLen, h.blockLen, h.n, h.d, h.count,
    fun i hi => (ctEntry_overwriteMsg hl hlen i).trans (h.entry i hi)⟩

/-- An idle machine may have any message: no clause of the invariant speaks of its bytes. -/
theorem MachineInv.overwriteMsg {s : State} {bs : List Byte} (h : MachineInv s) (hr : s.inReset = false)
    (hp : s.phase = .idle) (hlen : bs.length ≤ s.cfg.maxlen) : MachineInv (overwriteMsg bs s) where
  legal := h.legal
  status := h.status
  width := h.width
  mem := by
    refine ⟨memSetBytes_wf bs s.mem _ h.mem.1, bufferAddr_of_memSetBytes h.mem fun x hlow hhigh => .inl ?_⟩
    rw [msgAddr] at hlow hhigh
    omega
  key := h.key
  mic := micInv_idle hp
  block := by
    obtain ⟨hm, hrsp⟩ := h.block.port_free_idle hp
    exact blockInv_idle hp hm hrsp
  trace := h.trace
  reset := resetInv_of_not_inReset hr

/-! ### What DECRYPT makes of it -/

/-- Every ciphertext value is below N, so DECRYPT's checks pass where ENCRYPT's did (R181, R182). -/
theorem HoldsCiphertext.decryptCheck {s x : State} (h : HoldsCiphertext s x) (hkey : KeyInv s)
    (hcheck : encryptCheck s = none) : decryptCheck x = none := by
  obtain ⟨hk, hlen, hmax⟩ := encryptCheck_none hcheck
  have hmsg : msgCount x = msgCount s := congrArg BitVec.toNat h.msgLen
  have hblocks : blockCount x = blockCount s := blockCount_congr h.msgLen h.blockLen
  refine decryptCheck_pass (h.keyValid.trans hk) ?_ ?_ (h.count.trans hblocks.symm) fun i hi => ?_
  · rwa [hmsg, h.cfg]
  · rwa [h.count, h.cfg]
  · rw [h.entry i (h.count ▸ hi), h.n]
    exact cipherValue_lt_modulus hkey hk i

/-- With a key from distinct primes the plain values are the block values (R188). -/
theorem HoldsCiphertext.plainValue {s x : State} (h : HoldsCiphertext s x) (hkey : KeyInv s)
    (hk : s.status.keyValid = true) {p q : Nat} (hp : p.Prime) (hq : q.Prime) (hne : p ≠ q) (hn : s.n = p * q)
    (hd : 65537 * s.d % ((p - 1) * (q - 1)) = 1) {i : Nat} (hi : i < blockCount s) : plainValue x i = blockValue s i := by
  have hlt : blockValue s i < p * q := hn ▸ blockValue_lt_modulus hkey hk i
  rw [Machine.plainValue, powMod_eq, h.entry i hi, h.n, h.d, cipherValue_eq, hn]
  exact rsa_round_trip hp hq hne hd hlt

/-- When the plain values are the block values, ACC ends as the message bits, and every value has fitted (R184 to R186). -/
theorem HoldsCiphertext.reassembled {s x : State} (h : HoldsCiphertext s x) (hbl : 1 ≤ s.blockLen.toNat)
    (hv : ∀ i, i < blockCount s → Machine.plainValue x i = blockValue s i) :
    reassembled x (cipherCount x) = (msgBits s (msgCount s), false) := by
  rw [reassembled_eq h.blockLen h.msgLen h.count hbl hv _ h.count.le, h.count, flatMap_render_blockValue hbl]

end Sys2Proof.Machine
end

section
/-! ## ENCRYPT, then DECRYPT (43_decrypt.md R188) -/

namespace Sys2Proof.Machine

/-- A command has ended with success, the schedule is empty and the engine live: the host may write the next command. -/
structure AtRest (s : State) : Prop where
  inReset : s.inReset = false
  sched   : s.sched = []
  mxLive  : s.mxLive = true
  phase   : s.phase = .idle
  busy    : s.status.busy = false
  done    : s.status.done = true

/-- ENCRYPT whose checks pass ends at rest, with its ciphertext in CT_BUF. -/
theorem OnMove.reach_ciphertext {s : State} (h : OnMove .encrypt s) (hs : MachineInv s) (hlive : s.mxLive = true)
    (hc : s.checked = false) (hcheck : encryptCheck s = none) :
    ∃ t, Reach s t ∧ AtRest t ∧ HoldsCiphertext s t := by
  obtain ⟨g, q, hreach, hready⟩ := h.reach_encryptReady hs hlive hc hcheck
  have hlast := (h.atEncryptWork (blockCount s) g q).reach_step
  have hsched : (encryptResult (encryptWork s (blockCount s) g q)).sched = [] := h.sched
  rw [internalStep_encrypt hready.phase, hready.step, advanceTurn_fair hsched] at hlast
  exact ⟨_, hreach.trans hlast, ⟨h.inReset, h.sched, hlive, rfl, rfl, rfl⟩, hready.holdsCiphertext.frame rfl⟩

theorem AtRest.overwriteMsg {s : State} (h : AtRest s) (bs : List Byte) : AtRest (overwriteMsg bs s) :=
  ⟨h.inReset, h.sched, h.mxLive, h.phase, h.busy, h.done⟩

/-! ### The host's write of DECRYPT (log entry 12) -/

/-- The machine in which the host has written DECRYPT's word. -/
def decryptStarted (s : State) : State :=
  respond .okay 0 (startCommand .decrypt { s with turn := .host, inReset := false })

@[simp] theorem decryptStarted_phase (s : State) : (decryptStarted s).phase = .decrypt := rfl
@[simp] theorem decryptStarted_status (s : State) :
    (decryptStarted s).status = { statusStart s.status with busy := true } := rfl

/-- The word 3 written to CTRL of a machine that runs nothing starts DECRYPT (44_control.md R200). -/
theorem commandWrite_decrypt {s : State} (hb : s.status.busy = false) : commandWrite 3 s = startCommand .decrypt s := by
  have hdecode : decodeCommand 3 = .decrypt := by decide
  rw [commandWrite, if_neg (by simp [hb]), hdecode]

theorem exec_decrypt_written {s : State} (hb : s.status.busy = false) :
    exec .decrypt { s with turn := .host, inReset := false } = .next (decryptStarted s) := by
  have hnot : running .decrypt { s with turn := .host, inReset := false } = false := running_false_of_turn (by simp)
  refine (execDecrypt_written hnot).trans ?_
  rw [ctrlWrite, commandWrite_decrypt (s := { s with turn := .host, inReset := false }) hb, decryptStarted]

theorem step_withFetchWord_decrypt {s : State} (hb : s.status.busy = false) :
    step (s.withFetchWord 32 3) = .next (advanceTurn (decryptStarted s)) := by
  have hword : decodeTableWord 32 3 = some .decrypt := by decide
  have hstep := step_of_fetch (s := s.withFetchWord 32 3) (fetch_host_txn rfl rfl rfl) (decode_tablePacket hword)
  exact hstep.trans (congrArg afterExec (exec_decrypt_written hb))

/-- Loading a transaction into a machine that is not in reset keeps the invariant. -/
theorem MachineInv.withFetchWord {s : State} (h : MachineInv s) (hr : s.inReset = false) (nbits w : Nat) :
    MachineInv (s.withFetchWord nbits w) := by
  have hload : s.withFetchWord nbits w =
      { s with program := .txn (tablePacket nbits w) :: s.program, turn := .host, sched := s.sched } := by
    simp [State.withFetchWord, hostIssues, hr]
  rw [hload]
  exact h.reschedule _ _ _

/-- The started DECRYPT with the move at its controller, and the engine's stale request at a given value. -/
def decryptOnMove (s : State) (q : Option MxReq) : State :=
  { decryptStarted s with turn := .controller, mxReq := q }

/-- After the host's write the controller gets the move. -/
theorem AtRest.reach_decryptOnMove {s : State} (h : AtRest s) (hs : MachineInv s) :
    ∃ q, Reach (advanceTurn (decryptStarted s)) (decryptOnMove s q) ∧ MachineInv (decryptOnMove s q) ∧
      OnMove .decrypt (decryptOnMove s q) := by
  obtain ⟨q, hreach, -⟩ := settle (decryptStarted s) h.sched rfl (by simp) rfl
  have hstart : MachineInv (advanceTurn (decryptStarted s)) :=
    stepKeepsInv _ _ (hs.withFetchWord h.inReset 32 3) (step_withFetchWord_decrypt h.busy)
  exact ⟨q, hreach, hreach.keeps stepKeepsInv hstart, rfl, rfl, h.sched, rfl, rfl⟩

/-- A started DECRYPT whose plain values are the block values of s ends with the message of s, and without truncation. -/
theorem HoldsCiphertext.decrypts {s x : State} (h : HoldsCiphertext s x) (hs : MachineInv s)
    (hcheck : encryptCheck s = none) (hv : ∀ i, i < blockCount s → Machine.plainValue x i = blockValue s i)
    (hx : MachineInv x) (hmove : OnMove .decrypt x) (hlive : x.mxLive = true) (hc : x.checked = false) :
    ∃ t, Reach x t ∧ t.phase = .idle ∧ t.status = { x.status with busy := false, done := true, trunc := false } ∧
      ∀ j, j < msgCount s → msgByte t j = msgByte s j := by
  have hbl : 1 ≤ s.blockLen.toNat := by
    obtain ⟨-, -, hbl⟩ := key_facts hs.key (encryptCheck_none hcheck).1
    omega
  have hbits := h.reassembled hbl hv
  have hlen : msgCount x = msgCount s := congrArg BitVec.toNat h.msgLen
  obtain ⟨k, t, hk, hphase, hstatus, hbytes, -⟩ := decryptRunsToItsResult x hx hmove.inReset hmove.turn hmove.sched
    hlive hmove.phase hc (h.decryptCheck hs.key hcheck)
  rw [hbits] at hstatus hbytes
  refine ⟨t, ⟨k, hk⟩, hphase, hstatus, fun j hj => BitVec.eq_of_toNat_eq ?_⟩
  rw [hbytes j (hlen ▸ hj), msgBits_value s _ j hj]

/-- Settles O47: ENCRYPT's end holds the ciphertext, the new message bytes leave it alone, and DECRYPT gives the old bytes
back. -/
theorem encryptThenDecryptRestoresTheMessage : Obligations.EncryptThenDecryptRestoresTheMessage := by
  unfold Obligations.EncryptThenDecryptRestoresTheMessage
  intro s p q hs hr ht hsched hlive hp hc hcheck hprime hprime' hne hn hd
  have hmove : OnMove .encrypt s := ⟨hr, ht, hsched, hp, (hs.block.port_free (.inl hc)).1⟩
  obtain ⟨t, hreach, hrest, hholds⟩ := hmove.reach_ciphertext hs hlive hc hcheck
  have hinv : MachineInv t := hreach.keeps stepKeepsInv hs
  obtain ⟨k, hk⟩ := hreach
  refine ⟨k, t, hk, hrest.done, hrest.busy, hrest.phase, fun other hlen => ?_⟩
  have hlen : other.length ≤ t.cfg.maxlen := hholds.cfg ▸ hlen
  have hrest' := hrest.overwriteMsg other
  obtain ⟨r, hsettle, hstarted, hmove'⟩ :=
    hrest'.reach_decryptOnMove (hinv.overwriteMsg hrest.inReset hrest.phase hlen)
  have hholds' : HoldsCiphertext s (decryptOnMove (overwriteMsg other t) r) :=
    (hholds.overwriteMsg hinv.legal hlen).frame rfl
  have hvalues (i : Nat) (hi : i < blockCount s) : plainValue _ i = blockValue s i :=
    hholds'.plainValue hs.key (encryptCheck_none hcheck).1 hprime hprime' hne hn hd hi
  obtain ⟨t', hrun, hphase, hstatus, hmsg⟩ :=
    hholds'.decrypts hs hcheck hvalues hstarted hmove' hrest'.mxLive rfl
  obtain ⟨k', hk'⟩ := hsettle.trans hrun
  refine ⟨_, k', t', step_withFetchWord_decrypt hrest'.busy, by simp, by simp, by simp [statusStart], hk', hphase, ?_⟩
  rw [hstatus]
  exact ⟨rfl, rfl, rfl, rfl, hmsg⟩

end Sys2Proof.Machine
end

section
/-! ## Host transactions while a command runs (44_control.md R203, R204)

A write to CTRL or to a region that an idle write stores in sets WIGN alone, one to a read-only region does nothing, and a read
of a held region draws a free word; so no transaction reaches an operand, a result or the running command. -/

namespace Sys2Proof.Machine

/-! ### Reads (R204) -/

theorem held_iff (r : Region) : held r = true ↔ r ≠ .ctrl ∧ r ≠ .status ∧ r ≠ .irqEn ∧ r ≠ .e := by
  cases r <;> simp [held]

/-- Settles O15: the region is held, so the read draws the next free word. -/
theorem busyReadOfAHeldRegisterIsFree : Obligations.BusyReadOfAHeldRegisterIsFree := by
  unfold Obligations.BusyReadOfAHeldRegisterIsFree
  intro s a w r ha hr hb hctrl hstatus hirq he
  exact execRd_held w (busTarget_aligned ha hr) hb ((held_iff r).2 ⟨hctrl, hstatus, hirq, he⟩)

/-! ### Writes (R203) -/

theorem commandWrite_busy {s : State} (v : Word) (hb : s.status.busy = true) : commandWrite v s = ignoredWrite s :=
  if_pos hb

theorem writeRegion_readOnly {r : Region} (v : Word) (s : State) (hr : readOnly r = true) : writeRegion v s r = s := by
  have hctrl : r ≠ .ctrl := by rintro rfl; cases hr
  have hstatus : r ≠ .status := by rintro rfl; cases hr
  have hirq : r ≠ .irqEn := by rintro rfl; cases hr
  rw [writeRegion, if_neg hctrl, if_neg hstatus, if_neg hirq, if_pos hr]

/-- What would start a command or store a word is ignored, and sets WIGN. -/
theorem writeRegion_busy {s : State} {r : Region} (v : Word) (hb : s.status.busy = true) (hr : r = .ctrl ∨ r.Stored) :
    writeRegion v s r = ignoredWrite s := by
  rcases hr with rfl | ⟨hctrl, hstatus, hirq, hro⟩
  · exact commandWrite_busy v hb
  · rw [writeRegion, if_neg hctrl, if_neg hstatus, if_neg hirq, if_neg (by simp [hro]), if_pos hb]

/-- Settles O19: each list of regions decides the effect of the write. -/
theorem writesWhileBusyAreIgnoredOrHonoured : Obligations.WritesWhileBusyAreIgnoredOrHonoured := by
  unfold Obligations.WritesWhileBusyAreIgnoredOrHonoured
  intro s a v r ha hr
  have hexec : exec (.wr a v) s = .next (respond .okay 0 (writeRegion v s r)) :=
    execWr_mapped v (busTarget_aligned ha hr)
  refine ⟨fun hb hlist => ?ignored, fun _ hst => ?status, fun _ hirq => ?irqEn, fun hlist => ?readOnly⟩
  case ignored =>
    have hkind : r = .ctrl ∨ r.Stored := by
      rcases hlist with rfl | rfl | rfl | ⟨j, rfl | rfl | rfl | rfl⟩ | hbuf
      · exact .inl rfl
      case inr.inr.inr.inr => exact .inr (stored_buffer hbuf)
      all_goals exact .inr ⟨nofun, nofun, nofun, rfl⟩
    rw [hexec, writeRegion_busy v hb hkind]
    rfl
  case status =>
    subst hst
    exact hexec
  case irqEn =>
    subst hirq
    exact hexec
  case readOnly =>
    have hro : readOnly r = true := by rcases hlist with rfl | rfl | ⟨j, rfl | rfl | rfl⟩ <;> rfl
    rw [hexec, writeRegion_readOnly v s hro]
    rfl

/-! ### What no transaction changes -/

/-- While a command runs a write reaches STATUS and IRQ_EN alone, and in STATUS neither BUSY nor KEY_VALID. -/
theorem writeRegion_busy_frame {s : State} (v : Word) (r : Region) (hb : s.status.busy = true) :
    ∃ f b, writeRegion v s r = { s with status := f, doneIe := b } ∧ f.busy = true ∧
      f.keyValid = s.status.keyValid := by
  rcases writeRegion_cases v s r with ⟨-, e⟩ | ⟨-, e⟩ | ⟨-, e⟩ | ⟨-, e⟩ | ⟨-, e⟩ | ⟨hidle, -⟩
  · exact ⟨_, _, e.trans (commandWrite_busy v hb), hb, rfl⟩
  · exact ⟨_, _, e, hb, rfl⟩
  · exact ⟨_, _, e, hb, rfl⟩
  · exact ⟨_, _, e, hb, rfl⟩
  · exact ⟨_, _, e, hb, rfl⟩
  · simp [hb] at hidle

/-- While a command runs a transaction moves STATUS, IRQ_EN, the free words drawn and the trace alone. -/
theorem exec_bus_busy_frame {i : Instr} {s : State} (hb : s.status.busy = true) (hi : ∃ a w, i = .rd a w ∨ i = .wr a w) :
    ∃ f b k l, exec i s = .next { s with status := f, doneIe := b, draws := k, trace := l } ∧ f.busy = true ∧
      f.keyValid = s.status.keyValid := by
  obtain ⟨a, w, rfl | rfl⟩ := hi
  · obtain ⟨r, v, k, e, -⟩ := execRd_cases a w s
    exact ⟨_, _, _, _, e, hb, rfl⟩
  · rcases execWr_cases a w s with e | ⟨r, -, e⟩
    · exact ⟨_, _, _, _, e, hb, rfl⟩
    · obtain ⟨f, b, hw, hbusy, hkey⟩ := writeRegion_busy_frame w r hb
      rw [hw] at e
      exact ⟨_, _, _, _, e, hbusy, hkey⟩

/-- Settles O52: the fields named are none of those that a transaction moves. -/
theorem operandsAreImmutableWhileBusy : Obligations.OperandsAreImmutableWhileBusy := by
  unfold Obligations.OperandsAreImmutableWhileBusy
  intro s t i hb hi h
  obtain ⟨f, b, k, l, e, hbusy, hkey⟩ := exec_bus_busy_frame hb hi
  cases e.symm.trans h
  exact ⟨rfl, rfl, rfl, rfl, hbusy, hkey⟩

end Sys2Proof.Machine
end

section
/-! ## Command words written to CTRL (44_control.md R200 to R202)

A command that the controller is not running is a write of its word; what the write does in a machine that runs nothing is said
once per kind of command. -/

namespace Sys2Proof.Machine

/-! ### A command and its word -/

/-- The command that a word decodes to is the write of that word, unless the controller runs it. -/
theorem exec_decodeCtrl {s : State} (v : Word) (ht : s.turn ≠ .controller) :
    exec (decodeCtrl v) s = .next (ctrlWrite v s) := by
  rcases decodeCommand_cases v with ⟨rfl, h⟩ | ⟨rfl, h⟩ | ⟨rfl, h⟩ | ⟨rfl, h⟩ | ⟨rfl, h⟩ | ⟨-, h⟩ <;> rw [decodeCtrl, h]
  · rfl
  · exact execDerive_written (running_false_of_turn ht)
  · exact execEncrypt_written (running_false_of_turn ht)
  · exact execDecrypt_written (running_false_of_turn ht)
  · exact execModinv_written (running_false_of_turn ht)
  · rfl

/-- Settles O24: both are the write of the word to CTRL. -/
theorem writeToCtrlRunsTheDecodedCommand : Obligations.WriteToCtrlRunsTheDecodedCommand := by
  unfold Obligations.WriteToCtrlRunsTheDecodedCommand
  exact fun s v ht => (execWr_mapped v (busTarget_ctrl s.cfg)).trans (exec_decodeCtrl v ht).symm

/-- While a command runs the write of a word is ignored and sets WIGN (R203). -/
theorem ctrlWrite_busy {s : State} (v : Word) (hb : s.status.busy = true) :
    ctrlWrite v s = respond .okay 0 (ignoredWrite s) := by
  rw [ctrlWrite, commandWrite_busy v hb]

/-! ### DERIVE, ENCRYPT, DECRYPT and MODINV (R200) -/

/-- Each command that runs has the word that its phase names. -/
theorem command_phaseWord {i : Instr} {ph : Phase}
    (h : (i, ph) ∈ [(Instr.derive, Phase.derive), (.encrypt, .encrypt), (.decrypt, .decrypt), (.modinv, .modinv)]) :
    ∃ v, phaseWord ph = some v ∧ decodeCtrl v = i := by
  simp only [List.mem_cons, Prod.mk.injEq, List.not_mem_nil, or_false] at h
  obtain ⟨rfl, rfl⟩ | ⟨rfl, rfl⟩ | ⟨rfl, rfl⟩ | ⟨rfl, rfl⟩ := h
  · exact ⟨1, rfl, by decide⟩
  · exact ⟨2, rfl, by decide⟩
  · exact ⟨3, rfl, by decide⟩
  · exact ⟨4, rfl, by decide⟩

/-- The word that a phase names starts that phase's command. -/
theorem commandWrite_phaseWord {s : State} {ph : Phase} {v : Word} (hb : s.status.busy = false)
    (hv : phaseWord ph = some v) : commandWrite v s = startCommand ph s := by
  rw [commandWrite, if_neg (by simp [hb])]
  cases ph <;> cases hv <;> rfl

/-- Settles O25: the command is the write of its phase's word, which starts it or is ignored. -/
theorem commandStartSetsBusyAndPhase : Obligations.CommandStartSetsBusyAndPhase := by
  unfold Obligations.CommandStartSetsBusyAndPhase
  intro s i ph ht hmem
  obtain ⟨v, hv, rfl⟩ := command_phaseWord hmem
  refine ⟨fun hb => ?start, fun hb => ?ignored⟩
  case start =>
    rw [exec_decodeCtrl v ht, ctrlWrite, commandWrite_phaseWord hb hv]
    rfl
  case ignored =>
    rw [exec_decodeCtrl v ht, ctrlWrite_busy v hb]
    rfl

/-! ### NOP (R201) and BADCMD (R202) -/

theorem commandWrite_nop {s : State} (hb : s.status.busy = false) : commandWrite 0 s = s := by
  rw [commandWrite, if_neg (by simp [hb])]
  rfl

/-- Settles O26, by the write of the word 0. -/
theorem nopChangesNothing : Obligations.NopChangesNothing := by
  unfold Obligations.NopChangesNothing
  intro s
  have hexec : exec .nop s = .next (ctrlWrite 0 s) := rfl
  refine ⟨fun hb => ?idle, fun hb => ?ignored⟩
  case idle =>
    rw [hexec, ctrlWrite, commandWrite_nop hb]
    rfl
  case ignored =>
    rw [hexec, ctrlWrite_busy 0 hb]
    rfl

theorem commandWrite_reserved {s : State} {v : Word} (hb : s.status.busy = false) (hv : reservedWord v = true) :
    commandWrite v s = errorCompletion .badcmd (startEffects s) := by
  rw [commandWrite, if_neg (by simp [hb]), decodeCommand_of_reservedWord hv]

/-- Settles O27: a reserved word starts and completes with its error in one write, and BUSY was 0 before. -/
theorem badcmdCompletesAtOnce : Obligations.BadcmdCompletesAtOnce := by
  unfold Obligations.BadcmdCompletesAtOnce
  intro s v hv
  have hexec : exec (.badcmd v) s = .next (ctrlWrite v s) := rfl
  refine ⟨rfl, fun hb => ?idle, fun hb => ?ignored⟩
  case idle =>
    rw [hexec, ctrlWrite, commandWrite_reserved hb hv]
    simp only [respond, errorCompletion, startEffects, statusError, statusStart, hb]
  case ignored =>
    rw [hexec, ctrlWrite_busy v hb]
    rfl

end Sys2Proof.Machine
end

section
/-! ## The hold and the engine's answer (44_control.md R205, R207, R209)

The fields that the hold speaks of are `holdState`; every effect but a live engine's and a reset keeps them while the controller
holds. -/

namespace Sys2Proof.Machine

theorem holds_iff (s : State) : holds s = true ↔ s.mxPending = true ∧ s.mxRsp = none := by
  simp [holds]

/-! ### The controller's step while a request is out (R205) -/

theorem encryptStep_hold {s : State} (hc : s.checked = true) (hm : s.mxPending = true) (hr : s.mxRsp = none) :
    encryptStep s = s := by
  simp [encryptStep, hc, hm, hr]

theorem decryptStep_hold {s : State} (hc : s.checked = true) (hm : s.mxPending = true) (hr : s.mxRsp = none) :
    decryptStep s = s := by
  simp [decryptStep, hc, hm, hr]

/-- Settles O37, by the hold and the absorb step of the commands. -/
theorem runningCommandHoldsOrAbsorbs : Obligations.RunningCommandHoldsOrAbsorbs := by
  unfold Obligations.RunningCommandHoldsOrAbsorbs
  intro s c hc hm
  refine ⟨fun hrun hr => ?encryptHold, fun hrun hr => ?decryptHold, fun hrun hr => ?absorb⟩
  case encryptHold => exact (execEncrypt_running hrun).trans (congrArg _ (encryptStep_hold hc hm hr))
  case decryptHold => exact (execDecrypt_running hrun).trans (congrArg _ (decryptStep_hold hc hm hr))
  case absorb => exact (execEncrypt_running hrun).trans (congrArg _ (encryptStep_absorb hc hm hr))

/-! ### The engine's move (R209, 70_reset_and_hazards.md R262) -/

theorem engineAnswer_pending {s : State} {r : MxReq} (hq : s.mxReq = some r) (hl : s.mxLive = true)
    (hm : s.mxPending = true) :
    engineAnswer s = { s with mxReq := none, mxRsp := some (r.base ^ r.exp % r.mod) } := by
  simp [engineAnswer, hq, hl, hm, powMod_eq]

theorem engineAnswer_stale {s : State} {r : MxReq} (hq : s.mxReq = some r) (hl : s.mxLive = true)
    (hm : s.mxPending = false) : engineAnswer s = { s with mxReq := none } := by
  simp [engineAnswer, hq, hl, hm]

/-- An engine that never answers does nothing (log entry 11). -/
theorem engineAnswer_dead {s : State} (hl : s.mxLive = false) : engineAnswer s = s := by
  unfold engineAnswer
  split
  · rfl
  · simp [hl]

/-- Settles O48, by the engine's two moves on a request it holds. -/
theorem engineAnswersWithThePower : Obligations.EngineAnswersWithThePower := by
  unfold Obligations.EngineAnswersWithThePower
  intro s r ht hq hl
  exact ⟨fun hm => by rw [step_engine ht, engineAnswer_pending hq hl hm],
    fun hm => by rw [step_engine ht, engineAnswer_stale hq hl hm]⟩

/-! ### What lifts the hold (R207) -/

/-- What the controller's hold is made of: the running command, its block, and the port. -/
def holdState (s : State) : Bool × Phase × Nat × Bool × Option MxReq × Option Nat :=
  (s.status.busy, s.phase, s.blk, s.mxPending, s.mxReq, s.mxRsp)

/-- While the controller holds, a block command runs and is past its checks. -/
theorem MachineInv.running_of_holds {s : State} (hs : MachineInv s) (hh : holds s = true) :
    s.status.busy = true ∧ s.checked = true ∧ (s.phase = .encrypt ∨ s.phase = .decrypt) := by
  obtain ⟨hc, hp⟩ := hs.block.running_of_pending ((holds_iff s).1 hh).1
  have hphase : s.phase ≠ .idle := by rcases hp with hp | hp <;> simp [hp]
  exact ⟨hs.status.1.2 hphase, hc, hp⟩

/-- No effect lifts the hold but a live engine's answer and a reset. -/
theorem Effect.holdState_eq {s u : State} (h : Effect s u) (hs : MachineInv s) (hh : holds s = true)
    (hengine : s.turn ≠ .engine ∨ s.mxLive = false) (hreset : s.turn ≠ .resetLow) : holdState u = holdState s := by
  obtain ⟨hm, hr⟩ := (holds_iff s).1 hh
  obtain ⟨hbusy, hc, hp⟩ := hs.running_of_holds hh
  cases h with
  | idle | read | quiet | ignored | ack | enable | release => rfl
  | badcmd _ hb | start _ _ hb | store _ _ _ _ hb => simp [hbusy] at hb
  | derive _ hd | modinv _ hd => simp [hd] at hp
  | encrypt => rw [encryptStep_hold hc hm hr]
  | decrypt => rw [decryptStep_hold hc hm hr]
  | engine ht => rw [engineAnswer_dead (hengine.resolve_left (not_not_intro ht))]
  | reset ht => exact absurd ht hreset

/-- Settles O49: the step has one effect, which keeps what the hold is made of. -/
theorem holdLastsUntilTheAnswer : Obligations.HoldLastsUntilTheAnswer := by
  unfold Obligations.HoldLastsUntilTheAnswer
  intro s t hs hh hengine hreset h
  obtain ⟨hm, hr⟩ := (holds_iff s).1 hh
  obtain ⟨hbusy, -⟩ := hs.running_of_holds hh
  obtain ⟨l, u, hu, rfl⟩ := step_effect h
  have hkeep := hu.holdState_eq (hs.reschedule l s.turn s.sched) hh hengine hreset
  simp only [holdState, Prod.mk.injEq] at hkeep
  obtain ⟨hb', hp', hblk', hm', hq', hr'⟩ := hkeep
  simp only [holds_iff, advanceTurn_mxPending, advanceTurn_mxRsp, advanceTurn_status, advanceTurn_phase, advanceTurn_blk,
    advanceTurn_mxReq]
  exact ⟨⟨hm'.trans hm, hr'.trans hr⟩, hb'.trans hbusy, hp', hblk', hq'⟩

end Sys2Proof.Machine
end

section
/-! ## The interrupt output (60_exceptions.md R230, R231)

Each agent's move is taken by itself: the controller's internal steps raise irq by their completions alone, the host's
transactions by BADCMD and by the write of IRQ_EN alone, and the engine and the edges of rst_n never. -/

namespace Sys2Proof.Machine

/-! ### irq and the state it is read from (R230) -/

theorem irq_iff (s : State) : s.irq = true ↔ s.status.done = true ∧ s.doneIe = true := by
  simp [State.irq]

@[simp] theorem advanceTurn_irq (s : State) : (advanceTurn s).irq = s.irq := by
  simp [State.irq]

/-- With the enable set, irq is low because DONE is. -/
theorem done_eq_false_of_irq {s : State} (hs : s.irq = false) (he : s.doneIe = true) : s.status.done = false := by
  simpa [State.irq, he] using hs

/-- With DONE standing, irq is low because the enable is. -/
theorem doneIe_eq_false_of_irq {s : State} (hs : s.irq = false) (hd : s.status.done = true) : s.doneIe = false := by
  simpa [State.irq, hd] using hs

/-! ### The controller's moves -/

theorem DeriveMove.irq_eq_or_completed {s u : State} (h : DeriveMove s u) :
    u.irq = s.irq ∨ Completed u ∧ u.doneIe = s.doneIe := by
  cases h with
  | load | pass => exact .inl rfl
  | argTooSmall | phiTooSmall | noInverse | complete => exact .inr ⟨⟨rfl, rfl, rfl⟩, rfl⟩

theorem ModinvMove.irq_eq_or_completed {s u : State} (h : ModinvMove s u) :
    u.irq = s.irq ∨ Completed u ∧ u.doneIe = s.doneIe := by
  cases h with
  | load | pass => exact .inl rfl
  | argTooSmall | noInverse | complete => exact .inr ⟨⟨rfl, rfl, rfl⟩, rfl⟩

theorem EncryptMove.irq_eq_or_completed {s u : State} (h : EncryptMove s u) :
    u.irq = s.irq ∨ Completed u ∧ u.doneIe = s.doneIe := by
  cases h with
  | start | hold | absorb | issue => exact .inl rfl
  | fail | complete => exact .inr ⟨⟨rfl, rfl, rfl⟩, rfl⟩

theorem DecryptMove.irq_eq_or_completed {s u : State} (h : DecryptMove s u) :
    u.irq = s.irq ∨ Completed u ∧ u.doneIe = s.doneIe := by
  cases h with
  | start | hold | absorb | issue => exact .inl rfl
  | fail | complete => exact .inr ⟨⟨rfl, rfl, rfl⟩, rfl⟩

/-- An internal step keeps irq or is a running command's completion, which keeps the enable. -/
theorem internalStep_irq_eq_or_completed (s : State) :
    (internalStep s).irq = s.irq ∨
      s.phase ≠ .idle ∧ Completed (internalStep s) ∧ (internalStep s).doneIe = s.doneIe := by
  cases hp : s.phase with
  | idle => exact .inl (by rw [internalStep, hp])
  | derive =>
    rw [internalStep_derive hp]
    exact (deriveStep_move s).irq_eq_or_completed.imp_right (⟨nofun, ·⟩)
  | encrypt =>
    rw [internalStep_encrypt hp]
    exact (encryptStep_move s).irq_eq_or_completed.imp_right (⟨nofun, ·⟩)
  | decrypt =>
    rw [internalStep_decrypt hp]
    exact (decryptStep_move s).irq_eq_or_completed.imp_right (⟨nofun, ·⟩)
  | modinv =>
    rw [internalStep_modinv hp]
    exact (modinvStep_move s).irq_eq_or_completed.imp_right (⟨nofun, ·⟩)

/-- In reset the controller runs no command, so its move is the internal step there too. -/
theorem step_controller_of_resetInv {s : State} (hs : ResetInv s) (ht : s.turn = .controller) :
    step s = .next (advanceTurn (internalStep s)) := by
  cases hr : s.inReset with
  | false => exact step_controller ht hr
  | true =>
    obtain ⟨-, -, -, -, -, -, -, -, -, -, -, -, -, hp, -⟩ := hs hr
    simp [step, fetch, hr, otherMove, ht, internalStep, hp]

/-- A controller's move that raises irq completes the running command. -/
theorem step_controller_irq_rise {s t : State} (hs : MachineInv s) (ht : s.turn = .controller) (h : step s = .next t)
    (hlow : s.irq = false) (hhigh : t.irq = true) :
    s.status.done = false ∧ s.status.busy = true ∧ t.status.busy = false ∧ t.phase = .idle := by
  cases (step_controller_of_resetInv hs.reset ht).symm.trans h
  rw [advanceTurn_irq] at hhigh
  rw [advanceTurn_status, advanceTurn_phase]
  rcases internalStep_irq_eq_or_completed s with hkeep | ⟨hp, ⟨hbusy, -, hidle⟩, hie⟩
  · simp [hkeep, hlow] at hhigh
  · exact ⟨done_eq_false_of_irq hlow (hie ▸ ((irq_iff _).1 hhigh).2), hs.status.1.2 hp, hbusy, hidle⟩

/-! ### The host's moves -/

/-- An effect of the host's move that raises irq is BADCMD, or the write that enables a standing DONE. -/
theorem Effect.host_irq_rise {s u : State} (h : Effect s u) (ht : s.turn = .host) (hlow : s.irq = false)
    (hhigh : u.irq = true) :
    (s.status.done = false ∧ u.status.errcode = .badcmd ∧ u.status.busy = false) ∨
      (s.status.done = true ∧ s.doneIe = false ∧ u.doneIe = true) := by
  obtain ⟨hdone, hie⟩ := (irq_iff u).1 hhigh
  cases h with
  | idle | read | quiet | ignored => cases hlow.symm.trans hhigh
  | badcmd => exact .inl ⟨done_eq_false_of_irq hlow hie, rfl, rfl⟩
  | start => cases hdone
  | ack v =>
    have hkept : s.status.done = true := (Bool.and_eq_true_iff.1 hdone).1
    cases hlow.symm.trans ((irq_iff s).2 ⟨hkept, hie⟩)
  | enable b => exact .inr ⟨hdone, doneIe_eq_false_of_irq hlow hdone, hie⟩
  | store a v r =>
    rw [respond_status, storeRegion_status] at hdone
    rw [respond_doneIe, storeRegion_doneIe] at hie
    cases hlow.symm.trans ((irq_iff s).2 ⟨hdone, hie⟩)
  | derive _ _ hc | encrypt _ _ hc | decrypt _ _ hc | modinv _ _ hc | engine hc | reset hc | release hc =>
    cases ht.symm.trans hc

/-! ### The engine's moves and the edges of rst_n -/

/-- Only the host and the controller have an instruction to run. -/
theorem fetch_eq_none_of_turn {s : State} (hh : s.turn ≠ .host) (hc : s.turn ≠ .controller) : fetch s = none := by
  cases hf : fetch s with
  | none => rfl
  | some p =>
    obtain ⟨-, -, ht⟩ := fetch_state hf
    exact (ht.elim hh fun h => hc h.1).elim

theorem EngineMove.irq_eq {s u : State} (h : EngineMove s u) : u.irq = s.irq := by cases h <;> rfl

/-- The engine and a release of rst_n keep irq low, and its assertion clears DONE and the enable. -/
theorem step_irq_low_of_turn {s t : State} (hh : s.turn ≠ .host) (hc : s.turn ≠ .controller) (h : step s = .next t)
    (hlow : s.irq = false) : t.irq = false := by
  have hmove : otherMove s = .next t := by rwa [step, fetch_eq_none_of_turn hh hc] at h
  rw [otherMove] at hmove
  cases ht : s.turn <;> rw [ht] at hmove
  case host => exact absurd ht hh
  case controller => exact absurd ht hc
  case engine =>
    cases hmove
    rw [advanceTurn_irq, (engineAnswer_move s).irq_eq, hlow]
  case resetLow =>
    cases hmove
    exact advanceTurn_irq _
  case resetHigh =>
    cases hmove
    exact (advanceTurn_irq _).trans hlow

/-! ### The rises (R231) -/

/-- Settles O54, by whose move the step is. -/
theorem irqRisesOnlyOnCompletionOrEnable : Obligations.IrqRisesOnlyOnCompletionOrEnable := by
  unfold Obligations.IrqRisesOnlyOnCompletionOrEnable
  refine ⟨irq_iff, fun s t hs h hlow hhigh => ?_⟩
  by_cases hc : s.turn = .controller
  · obtain ⟨hdone, hrest⟩ := step_controller_irq_rise hs hc h hlow hhigh
    exact .inl ⟨hdone, hc, hrest⟩
  by_cases hh : s.turn = .host
  · obtain ⟨l, u, hu, rfl⟩ := step_effect h
    rw [advanceTurn_irq] at hhigh
    rw [advanceTurn_status, advanceTurn_doneIe]
    rcases hu.host_irq_rise hh hlow hhigh with ⟨hdone, hrest⟩ | ⟨hdone, hrest⟩
    · exact .inr (.inl ⟨hdone, hh, hrest⟩)
    · exact .inr (.inr ⟨hdone, hh, hrest⟩)
  · cases (step_irq_low_of_turn hh hc h hlow).symm.trans hhigh

end Sys2Proof.Machine
end

section
/-! ## Where a step stops (70_reset_and_hazards.md R260, 93_implementation_defined.md I2, 30_encoding.md R90)

A move that takes no packet stops on the host's access in reset alone, and a packet that was taken stops the step only when it is
no transaction, which only the host's own packet can be. -/

namespace Sys2Proof.Machine

/-! ### Moves that take no packet -/

/-- Nobody takes an instruction while rst_n = 0. -/
theorem fetch_eq_none_of_inReset {s : State} (hr : s.inReset = true) : fetch s = none := by
  simp [fetch, hr]

theorem step_of_fetch_none {s : State} (hf : fetch s = none) : step s = otherMove s := by
  simp only [step, hf]

theorem otherMove_host_inReset {s : State} (ht : s.turn = .host) (hr : s.inReset = true) (hp : s.program ≠ []) :
    otherMove s = .refused .busAccessInReset := by
  simp [otherMove, ht, hr, hp]

/-- Every other move that takes no packet answers a next state. -/
theorem otherMove_answers {s : State} (h : ¬(s.turn = .host ∧ s.inReset = true ∧ s.program ≠ [])) :
    ∃ t, otherMove s = .next t := by
  unfold otherMove
  cases ht : s.turn with
  | host =>
    have hquiet : ¬(s.inReset && !s.program.isEmpty) = true := by simpa [ht] using h
    exact ⟨_, if_neg hquiet⟩
  | controller | engine | resetLow | resetHigh => exact ⟨_, rfl⟩

/-! ### Moves that take one -/

theorem step_of_decode_error {s s' : State} {b : List Byte} {e : DecodeError} (hf : fetch s = some (b, s'))
    (hd : decode b = .error e) : step s = .fault .notATransaction := by
  simp only [step, hf, hd]

/-- A packet that decodes gives a next state, since every instruction has a meaning in every state. -/
theorem step_answers_of_decode {s s' : State} {b : List Byte} {i : Instr} (hf : fetch s = some (b, s'))
    (hd : decode b = .ok i) : ∃ t, step s = .next t := by
  obtain ⟨hr, ⟨l, rfl⟩, -⟩ := fetch_state hf
  obtain ⟨u, hu, -⟩ := exec_effect (s := { s with program := l }) i hr
  exact ⟨advanceTurn u, by rw [step_of_fetch hf hd, hu, afterExec]⟩

/-- The packet that a host's `wait` takes is the poll. -/
theorem packet_of_fetch_wait {s s' : State} {b : List Byte} {rest : List HostOp} (hr : s.inReset = false)
    (ht : s.turn = .host) (hp : s.program = .wait :: rest) (hf : fetch s = some (b, s')) : b = pollPacket := by
  cases hb : s.status.busy with
  | true => cases (fetch_host_wait_busy hr ht hp hb).symm.trans hf; rfl
  | false => cases (fetch_host_wait_idle hr ht hp hb).symm.trans hf; rfl

/-- A packet that is no transaction is the host's own: the controller's words and the poll decode. -/
theorem host_packet_of_decode_error {s s' : State} {b : List Byte} {e : DecodeError} (hf : fetch s = some (b, s'))
    (hd : decode b = .error e) : s.turn = .host ∧ s.inReset = false ∧ ∃ rest, s.program = .txn b :: rest := by
  obtain ⟨hr, -, ht | ⟨-, v, -, rfl⟩⟩ := fetch_state hf
  · refine ⟨ht, hr, ?_⟩
    match hp : s.program with
    | [] => cases (fetch_host_nil hr ht hp).symm.trans hf
    | .txn bytes :: rest => cases (fetch_host_txn hr ht hp).symm.trans hf; exact ⟨rest, rfl⟩
    | .wait :: rest =>
      rw [packet_of_fetch_wait hr ht hp hf] at hd
      cases (decode_busPacket false 0x004 0).symm.trans hd
  · cases (decode_ctrlPacket v).symm.trans hd

/-- Settles O7: the move takes a packet or none, and the packet decodes or not. -/
theorem stepStopsOnlyOnAForbiddenHostMove : Obligations.StepStopsOnlyOnAForbiddenHostMove := by
  unfold Obligations.StepStopsOnlyOnAForbiddenHostMove
  intro s
  refine ⟨?refusal, ?fault, ?answer⟩
  case refusal =>
    rintro ⟨ht, hr, hp⟩
    rw [step_of_fetch_none (fetch_eq_none_of_inReset hr), otherMove_host_inReset ht hr hp]
  case fault =>
    rintro ⟨ht, hr, bytes, rest, hp, hbad⟩
    cases hd : decode bytes with
    | ok i => exact absurd hd (hbad i)
    | error e => exact step_of_decode_error (fetch_host_txn hr ht hp) hd
  case answer =>
    intro hrefusal hfault
    match hf : fetch s with
    | none =>
      rw [step_of_fetch_none hf]
      exact otherMove_answers hrefusal
    | some (bytes, s') =>
      cases hd : decode bytes with
      | ok i => exact step_answers_of_decode hf hd
      | error e =>
        obtain ⟨ht, hr, rest, hp⟩ := host_packet_of_decode_error hf hd
        exact absurd ⟨ht, hr, bytes, rest, hp, fun i hi => by cases hd.symm.trans hi⟩ hfault

end Sys2Proof.Machine
end

section
/-! ## The edges of rst_n (70_reset_and_hazards.md R260 to R262, 10_state.md R51) -/

namespace Sys2Proof.Machine

theorem step_resetLow {s : State} (ht : s.turn = .resetLow) : step s = .next (advanceTurn (assertReset s)) := by
  rw [step_of_fetch_none (fetch_eq_none_of_turn (by simp [ht]) (by simp [ht])), otherMove, ht]

theorem step_resetHigh {s : State} (ht : s.turn = .resetHigh) : step s = .next (advanceTurn (releaseReset s)) := by
  rw [step_of_fetch_none (fetch_eq_none_of_turn (by simp [ht]) (by simp [ht])), otherMove, ht]

/-- The controller takes no internal step while rst_n = 0 (R260). -/
theorem step_controller_inReset {s : State} (ht : s.turn = .controller) (hr : s.inReset = true) :
    step s = .next (advanceTurn s) := by
  rw [step_of_fetch_none (fetch_eq_none_of_inReset hr), otherMove, ht]

/-- After a reset every buffer byte is free again (log entry 2). -/
theorem byteAt_assertReset (s : State) (x : Nat) : byteAt (assertReset s) x = Config.freeByte (s.epoch + 1) x := by
  rw [byteAt, assertReset_mem, memLookup_nil]
  rfl

/-- Settles O50: each move has one equation, and the asserted reset holds R51's values whoever moves next. -/
theorem resetAbandonsTheCommand : Obligations.ResetAbandonsTheCommand := by
  unfold Obligations.ResetAbandonsTheCommand
  refine fun s => ⟨fun ht => ⟨_, step_resetLow ht, ?values⟩, step_controller_inReset, step_resetHigh⟩
  case values =>
    obtain ⟨turn, sched, hadv⟩ := advanceTurn_eq (assertReset s)
    rw [hadv]
    exact ⟨rfl, rfl, rfl, rfl, rfl, rfl, rfl, rfl, rfl, rfl, rfl, rfl, rfl, rfl, byteAt_assertReset s⟩

end Sys2Proof.Machine
end
